-- ==== Sys2Proof/Word.lean ====
section
/-! DEFINITION. The word types of FBPACK and truthiness (00_scope.md R6, R8). -/

namespace Sys2Proof

/-- A host register, a CMD word, an error code or a pixel-memory address: 32 bits (00_scope.md R6). -/
abbrev Word := BitVec 32

/-- A byte of PACKBUF, of pixel memory or of a bus transaction. -/
abbrev Byte := BitVec 8

/-- `truthy(v)` is `v ≠ 0` (00_scope.md R8). -/
def truthy {n : Nat} (v : BitVec n) : Bool := decide (v ≠ 0#n)

end Sys2Proof
end

