-- ==== Sys2Proof/Syntax.lean ====
section
/-! DEFINITION. The instructions: one constructor for every row of spec/opcode_table.json, and the names of the
wire constants. -/

namespace Sys2Proof

/-- The constants of the parameter WIRE, each named by 30_encoding.md R95 (table order). -/
inductive WireName where
  | displayOff
  | setClockDiv
  | clockDivArg
  | setMux
  | setDisplayOffset
  | setStartLine
  | setChargePump
  | chargePumpOnArg
  | segRemapNormal
  | segRemapMirrored
  | comScanNormal
  | comScanMirrored
  | setComPins
  | comPinsAltArg
  | comPinsSeqArg
  | setMemMode
  | memModeVerticalArg
  | setPrecharge
  | prechargeArg
  | setVcomh
  | vcomhArg
  | entireDisplayResume
  | normalDisplay
  | displayOn
  | setContrastCmd
  | setColumnRange
  | setPageRange
  deriving DecidableEq, Repr

/-- The rows of spec/opcode_table.json.
The first six are the host operations of 30_encoding.md R84; `illegal` is every other CMD word (R85, R86), with the
two fields of format H32 (R81); the `wire…` rows are Command transactions of one byte (format WC, R88, R95);
`dataBurst` is the Data transaction of a frame (format WD, R90).
No operand stands in a CMD word: operands are latched registers (R80, 10_state.md R33). -/
inductive Instr where
  | init
  | setWindow
  | pack
  | writeFrame
  | setContrast
  | setBlank
  | illegal (rsvd : BitVec 28) (opcode : BitVec 4)
  | wireDisplayOff
  | wireSetClockDiv
  | wireClockDivArg
  | wireSetMux
  | wireSetDisplayOffset
  | wireSetStartLine
  | wireSetChargePump
  | wireChargePumpOnArg
  | wireSegRemapNormal
  | wireSegRemapMirrored
  | wireComScanNormal
  | wireComScanMirrored
  | wireSetComPins
  | wireComPinsAltArg
  | wireComPinsSeqArg
  | wireSetMemMode
  | wireMemModeVerticalArg
  | wireSetPrecharge
  | wirePrechargeArg
  | wireSetVcomh
  | wireVcomhArg
  | wireEntireDisplayResume
  | wireNormalDisplay
  | wireDisplayOn
  | wireSetContrastCmd
  | wireSetColumnRange
  | wireSetPageRange
  | dataBurst
  deriving DecidableEq, Repr

/-- The row of the opcode table that a wire constant has. -/
def Instr.ofWire : WireName → Instr
  | .displayOff => .wireDisplayOff
  | .setClockDiv => .wireSetClockDiv
  | .clockDivArg => .wireClockDivArg
  | .setMux => .wireSetMux
  | .setDisplayOffset => .wireSetDisplayOffset
  | .setStartLine => .wireSetStartLine
  | .setChargePump => .wireSetChargePump
  | .chargePumpOnArg => .wireChargePumpOnArg
  | .segRemapNormal => .wireSegRemapNormal
  | .segRemapMirrored => .wireSegRemapMirrored
  | .comScanNormal => .wireComScanNormal
  | .comScanMirrored => .wireComScanMirrored
  | .setComPins => .wireSetComPins
  | .comPinsAltArg => .wireComPinsAltArg
  | .comPinsSeqArg => .wireComPinsSeqArg
  | .setMemMode => .wireSetMemMode
  | .memModeVerticalArg => .wireMemModeVerticalArg
  | .setPrecharge => .wireSetPrecharge
  | .prechargeArg => .wirePrechargeArg
  | .setVcomh => .wireSetVcomh
  | .vcomhArg => .wireVcomhArg
  | .entireDisplayResume => .wireEntireDisplayResume
  | .normalDisplay => .wireNormalDisplay
  | .displayOn => .wireDisplayOn
  | .setContrastCmd => .wireSetContrastCmd
  | .setColumnRange => .wireSetColumnRange
  | .setPageRange => .wireSetPageRange

/-- The wire constant of a row, for the 27 WIRE rows. -/
def Instr.wireName : Instr → Option WireName
  | .init => none
  | .setWindow => none
  | .pack => none
  | .writeFrame => none
  | .setContrast => none
  | .setBlank => none
  | .illegal _ _ => none
  | .wireDisplayOff => some .displayOff
  | .wireSetClockDiv => some .setClockDiv
  | .wireClockDivArg => some .clockDivArg
  | .wireSetMux => some .setMux
  | .wireSetDisplayOffset => some .setDisplayOffset
  | .wireSetStartLine => some .setStartLine
  | .wireSetChargePump => some .setChargePump
  | .wireChargePumpOnArg => some .chargePumpOnArg
  | .wireSegRemapNormal => some .segRemapNormal
  | .wireSegRemapMirrored => some .segRemapMirrored
  | .wireComScanNormal => some .comScanNormal
  | .wireComScanMirrored => some .comScanMirrored
  | .wireSetComPins => some .setComPins
  | .wireComPinsAltArg => some .comPinsAltArg
  | .wireComPinsSeqArg => some .comPinsSeqArg
  | .wireSetMemMode => some .setMemMode
  | .wireMemModeVerticalArg => some .memModeVerticalArg
  | .wireSetPrecharge => some .setPrecharge
  | .wirePrechargeArg => some .prechargeArg
  | .wireSetVcomh => some .setVcomh
  | .wireVcomhArg => some .vcomhArg
  | .wireEntireDisplayResume => some .entireDisplayResume
  | .wireNormalDisplay => some .normalDisplay
  | .wireDisplayOn => some .displayOn
  | .wireSetContrastCmd => some .setContrastCmd
  | .wireSetColumnRange => some .setColumnRange
  | .wireSetPageRange => some .setPageRange
  | .dataBurst => none

/-- The formats of 30_encoding.md R80: a 32-bit CMD word, a Command transaction of one byte, a Data transaction. -/
inductive Format where
  | h32
  | wc
  | wd
  deriving DecidableEq, Repr

/-- The format of each row of the opcode table. -/
def Instr.format : Instr → Format
  | .init => .h32
  | .setWindow => .h32
  | .pack => .h32
  | .writeFrame => .h32
  | .setContrast => .h32
  | .setBlank => .h32
  | .illegal _ _ => .h32
  | .wireDisplayOff => .wc
  | .wireSetClockDiv => .wc
  | .wireClockDivArg => .wc
  | .wireSetMux => .wc
  | .wireSetDisplayOffset => .wc
  | .wireSetStartLine => .wc
  | .wireSetChargePump => .wc
  | .wireChargePumpOnArg => .wc
  | .wireSegRemapNormal => .wc
  | .wireSegRemapMirrored => .wc
  | .wireComScanNormal => .wc
  | .wireComScanMirrored => .wc
  | .wireSetComPins => .wc
  | .wireComPinsAltArg => .wc
  | .wireComPinsSeqArg => .wc
  | .wireSetMemMode => .wc
  | .wireMemModeVerticalArg => .wc
  | .wireSetPrecharge => .wc
  | .wirePrechargeArg => .wc
  | .wireSetVcomh => .wc
  | .wireVcomhArg => .wc
  | .wireEntireDisplayResume => .wc
  | .wireNormalDisplay => .wc
  | .wireDisplayOn => .wc
  | .wireSetContrastCmd => .wc
  | .wireSetColumnRange => .wc
  | .wireSetPageRange => .wc
  | .dataBurst => .wd

/-- What one Command transaction of an operation's sequence carries: a named constant of WIRE (a row of the opcode
table), or an argument byte that the engine computes (30_encoding.md R82, R83, R94). -/
inductive Slot where
  | row (n : WireName)
  | arg (b : Byte)
  deriving DecidableEq, Repr

end Sys2Proof
end

