-- ==== Sys2Proof/Config.lean ====
section
/-! DEFINITION. What an implementation fixes (the parameters of 00_scope.md R6 marked OPEN, as plain data), and the
free values, which are opaque: nothing can evaluate them.
State holds one `Config` that no step changes, so a statement about every state is a statement about every value of
the parameters (notes/assumptions/1.md). -/

namespace Sys2Proof

/-- The parameter WIRE: one byte for each name (30_encoding.md R95). -/
structure Wire where
  displayOff : Byte
  setClockDiv : Byte
  clockDivArg : Byte
  setMux : Byte
  setDisplayOffset : Byte
  setStartLine : Byte
  setChargePump : Byte
  chargePumpOnArg : Byte
  segRemapNormal : Byte
  segRemapMirrored : Byte
  comScanNormal : Byte
  comScanMirrored : Byte
  setComPins : Byte
  comPinsAltArg : Byte
  comPinsSeqArg : Byte
  setMemMode : Byte
  memModeVerticalArg : Byte
  setPrecharge : Byte
  prechargeArg : Byte
  setVcomh : Byte
  vcomhArg : Byte
  entireDisplayResume : Byte
  normalDisplay : Byte
  displayOn : Byte
  setContrastCmd : Byte
  setColumnRange : Byte
  setPageRange : Byte
  deriving DecidableEq, Repr

/-- The value a profile gives a name. -/
def Wire.get (w : Wire) : WireName → Byte
  | .displayOff => w.displayOff
  | .setClockDiv => w.setClockDiv
  | .clockDivArg => w.clockDivArg
  | .setMux => w.setMux
  | .setDisplayOffset => w.setDisplayOffset
  | .setStartLine => w.setStartLine
  | .setChargePump => w.setChargePump
  | .chargePumpOnArg => w.chargePumpOnArg
  | .segRemapNormal => w.segRemapNormal
  | .segRemapMirrored => w.segRemapMirrored
  | .comScanNormal => w.comScanNormal
  | .comScanMirrored => w.comScanMirrored
  | .setComPins => w.setComPins
  | .comPinsAltArg => w.comPinsAltArg
  | .comPinsSeqArg => w.comPinsSeqArg
  | .setMemMode => w.setMemMode
  | .memModeVerticalArg => w.memModeVerticalArg
  | .setPrecharge => w.setPrecharge
  | .prechargeArg => w.prechargeArg
  | .setVcomh => w.setVcomh
  | .vcomhArg => w.vcomhArg
  | .entireDisplayResume => w.entireDisplayResume
  | .normalDisplay => w.normalDisplay
  | .displayOn => w.displayOn
  | .setContrastCmd => w.setContrastCmd
  | .setColumnRange => w.setColumnRange
  | .setPageRange => w.setPageRange

/-- The default profile of 30_encoding.md R95.
PRESUMED (notes/assumptions/2.md; unsafe): the spec marks these values as general knowledge, not in its source. -/
def Wire.default : Wire where
  displayOff := 0xAE#8
  setClockDiv := 0xD5#8
  clockDivArg := 0x80#8
  setMux := 0xA8#8
  setDisplayOffset := 0xD3#8
  setStartLine := 0x40#8
  setChargePump := 0x8D#8
  chargePumpOnArg := 0x14#8
  segRemapNormal := 0xA0#8
  segRemapMirrored := 0xA1#8
  comScanNormal := 0xC0#8
  comScanMirrored := 0xC8#8
  setComPins := 0xDA#8
  comPinsAltArg := 0x12#8
  comPinsSeqArg := 0x02#8
  setMemMode := 0x20#8
  memModeVerticalArg := 0x01#8
  setPrecharge := 0xD9#8
  prechargeArg := 0xF1#8
  setVcomh := 0xDB#8
  vcomhArg := 0x40#8
  entireDisplayResume := 0xA4#8
  normalDisplay := 0xA6#8
  displayOn := 0xAF#8
  setContrastCmd := 0x81#8
  setColumnRange := 0x21#8
  setPageRange := 0x22#8

/-- The parameter SUPPORTED (00_scope.md R6, 10_state.md R27): the spec's default predicate, or the geometries listed. -/
inductive Geometries where
  | default
  | listed (gs : List (Nat × Nat))
  deriving DecidableEq, Repr

/-- How pixel memory treats a 2-byte read at an address: it answers (PIX_ADMIT holds), it does not admit the read
(20_memory.md R54), or it never answers (70_reset_and_hazards.md R266). -/
inductive PixAnswer where
  | admitted
  | denied
  | silent
  deriving DecidableEq, Repr

/-- A region of pixel memory, the addresses `base … base + size - 1`, that treats its reads as `kind` says. -/
structure PixRegion where
  base : Nat
  size : Nat
  kind : PixAnswer
  deriving DecidableEq, Repr

/-- The parameters marked OPEN in 00_scope.md R6, and REG_BASE (20_memory.md R58).
An address in no region of `pixMap` is admitted; where regions overlap the first one counts.
BUS is not here: its draws are the field `answers` of State. -/
structure Config where
  wire     : Wire
  geometry : Geometries
  pixMap   : List PixRegion
  regBase  : Nat
  deriving DecidableEq, Repr

/-- The default parameters.
The geometry is the default the spec takes (10_state.md R27).
PRESUMED (notes/assumptions/2.md; unsafe): the wire profile.
DESIGN CHOICE (notes/assumptions/3.md, notes/assumptions/4.md; unsafe): every read is admitted, REG_BASE is 0. -/
def Config.default : Config where
  wire     := Wire.default
  geometry := .default
  pixMap   := []
  regBase  := 0

/-- The byte that a read of PACKBUF gives where 10_state.md R35 leaves it unspecified: the free value of draw `n`. -/
opaque Config.freeByte : Nat → Byte

/-- The sample that a raced pixel read gives (20_memory.md R63): the free value of draw `n`. -/
opaque Config.freeSample : Nat → BitVec 16

end Sys2Proof
end

