-- ==== Sys2Proof/WellFormed.lean ====
section
/-! DEFINITION. Which instructions and which parameters are well formed. -/

namespace Sys2Proof

/-- Every row is well formed but `illegal` on one of the six words of 30_encoding.md R84: the word of an `illegal` has a
nonzero bit above bit 3 (R86) or the OPCODE 0x0 or 0x7 to 0xF (R85). -/
def Instr.wellFormed : Instr → Bool
  | .init => true
  | .setWindow => true
  | .pack => true
  | .writeFrame => true
  | .setContrast => true
  | .setBlank => true
  | .illegal rsvd opcode => decide (rsvd ≠ 0#28 ∨ opcode = 0#4 ∨ 7 ≤ opcode.toNat)
  | .wireDisplayOff => true
  | .wireSetClockDiv => true
  | .wireClockDivArg => true
  | .wireSetMux => true
  | .wireSetDisplayOffset => true
  | .wireSetStartLine => true
  | .wireSetChargePump => true
  | .wireChargePumpOnArg => true
  | .wireSegRemapNormal => true
  | .wireSegRemapMirrored => true
  | .wireComScanNormal => true
  | .wireComScanMirrored => true
  | .wireSetComPins => true
  | .wireComPinsAltArg => true
  | .wireComPinsSeqArg => true
  | .wireSetMemMode => true
  | .wireMemModeVerticalArg => true
  | .wireSetPrecharge => true
  | .wirePrechargeArg => true
  | .wireSetVcomh => true
  | .wireVcomhArg => true
  | .wireEntireDisplayResume => true
  | .wireNormalDisplay => true
  | .wireDisplayOn => true
  | .wireSetContrastCmd => true
  | .wireSetColumnRange => true
  | .wireSetPageRange => true
  | .dataBurst => true

/-- A geometry that the controller can address and PACKBUF can hold (00_scope.md R6: MAX_COLS, MAX_PAGES,
PACKBUF_BYTES; 10_state.md R27): a positive width of at most 128, a positive height of at most 64, a multiple of 8. -/
def geometryInRange (g : Nat × Nat) : Bool :=
  decide (0 < g.1 ∧ g.1 ≤ 128 ∧ g.2 % 8 = 0 ∧ 0 < g.2 ∧ g.2 ≤ 64)

/-- The constraint on SUPPORTED: every geometry it admits is in the controller's range (notes/assumptions/23.md). -/
def Geometries.wellFormed : Geometries → Bool
  | .default => true
  | .listed gs => gs.all geometryInRange

/-- The constraints on WIRE: DISPLAY_OFF and DISPLAY_ON differ (30_encoding.md R96), and MEM_MODE_VERTICAL_ARG is the
value that selects vertical addressing: a profile that changes it "is not a profile of this hardware" (40_sequencer.md
R119). That this value is the default profile's is PRESUMED (notes/assumptions/31.md). -/
def Wire.wellFormed (w : Wire) : Bool :=
  decide (w.displayOff ≠ w.displayOn ∧ w.memModeVerticalArg = Wire.default.memModeVerticalArg)

/-- The parameters the spec allows. -/
def Config.wellFormed (c : Config) : Bool := c.wire.wellFormed && c.geometry.wellFormed

end Sys2Proof
end

