-- ==== Sys2Proof/Decode.lean ====
section
/-! DEFINITION. Decoding and encoding: the CMD word (30_encoding.md R81, R84 to R87, R93) and the bytes on the wire
(R88 to R90, R95).

A CMD word decodes by itself. A Command byte decodes by itself only to the FIRST row of the table with its value: two
names may share a value (R96; in the default profile SET_START_LINE and VCOMH_ARG are both 0x40), and R89 says that
command bytes and argument bytes are told apart only by parsing from the start of an operation. `parseWire` is that
parser (notes/assumptions/17.md). -/

namespace Sys2Proof

/-- Why bytes are no instruction. -/
inductive DecodeError where
  /-- Format H32 is exactly four bytes and format WC exactly one (30_encoding.md R80). -/
  | wrongLength (n : Nat)
  /-- No row of WIRE has this value. -/
  | unknownByte (b : Byte)
  /-- A byte where a command byte must stand that is no command byte of R89. -/
  | unknownCommand (b : Byte)
  /-- A byte after a command with a fixed argument that is not that argument. -/
  | unknownArgument (n : WireName) (b : Byte)
  /-- The bytes end before the arguments of the last command. -/
  | missingArgument (n : WireName)
  /-- A Data transaction carries at least one byte and at most PACKBUF's 1024 (R36, R90). -/
  | badBurstLength (n : Nat)
  deriving DecidableEq, Repr

/-! The CMD word. -/

/-- The field OPCODE, `CMD[3:0]` (30_encoding.md R81). -/
def cmdOpcode (w : Word) : BitVec 4 := w.extractLsb' 0 4

/-- The field RSVD, `CMD[31:4]` (30_encoding.md R81). -/
def cmdRsvd (w : Word) : BitVec 28 := w.extractLsb' 4 28

/-- The decode function of 30_encoding.md R93, total on all words. -/
def decodeCmd (w : Word) : Instr :=
  if cmdRsvd w ≠ 0#28 then .illegal (cmdRsvd w) (cmdOpcode w)
  else if cmdOpcode w = 1#4 then .init
  else if cmdOpcode w = 2#4 then .setWindow
  else if cmdOpcode w = 3#4 then .pack
  else if cmdOpcode w = 4#4 then .writeFrame
  else if cmdOpcode w = 5#4 then .setContrast
  else if cmdOpcode w = 6#4 then .setBlank
  else .illegal (cmdRsvd w) (cmdOpcode w)

/-! The bytes on the wire. -/

/-- The names of WIRE, in the order of the table of 30_encoding.md R95. -/
def wireNames : List WireName :=
  [.displayOff, .setClockDiv, .clockDivArg, .setMux, .setDisplayOffset,
   .setStartLine, .setChargePump, .chargePumpOnArg, .segRemapNormal, .segRemapMirrored,
   .comScanNormal, .comScanMirrored, .setComPins, .comPinsAltArg, .comPinsSeqArg,
   .setMemMode, .memModeVerticalArg, .setPrecharge, .prechargeArg, .setVcomh,
   .vcomhArg, .entireDisplayResume, .normalDisplay, .displayOn, .setContrastCmd,
   .setColumnRange, .setPageRange]

/-- Whether a row is an argument byte, and not a command byte (the rows without a count in 30_encoding.md R95). -/
def isArgument : WireName → Bool
  | .displayOff => false
  | .setClockDiv => false
  | .clockDivArg => true
  | .setMux => false
  | .setDisplayOffset => false
  | .setStartLine => false
  | .setChargePump => false
  | .chargePumpOnArg => true
  | .segRemapNormal => false
  | .segRemapMirrored => false
  | .comScanNormal => false
  | .comScanMirrored => false
  | .setComPins => false
  | .comPinsAltArg => true
  | .comPinsSeqArg => true
  | .setMemMode => false
  | .memModeVerticalArg => true
  | .setPrecharge => false
  | .prechargeArg => true
  | .setVcomh => false
  | .vcomhArg => true
  | .entireDisplayResume => false
  | .normalDisplay => false
  | .displayOn => false
  | .setContrastCmd => false
  | .setColumnRange => false
  | .setPageRange => false

/-- How many argument bytes follow a command byte (30_encoding.md R89); an argument byte has none. -/
def argCount : WireName → Nat
  | .displayOff => 0
  | .setClockDiv => 1
  | .clockDivArg => 0
  | .setMux => 1
  | .setDisplayOffset => 1
  | .setStartLine => 0
  | .setChargePump => 1
  | .chargePumpOnArg => 0
  | .segRemapNormal => 0
  | .segRemapMirrored => 0
  | .comScanNormal => 0
  | .comScanMirrored => 0
  | .setComPins => 1
  | .comPinsAltArg => 0
  | .comPinsSeqArg => 0
  | .setMemMode => 1
  | .memModeVerticalArg => 0
  | .setPrecharge => 1
  | .prechargeArg => 0
  | .setVcomh => 1
  | .vcomhArg => 0
  | .entireDisplayResume => 0
  | .normalDisplay => 0
  | .displayOn => 0
  | .setContrastCmd => 1
  | .setColumnRange => 2
  | .setPageRange => 2

/-- The named argument bytes that may follow a command byte (30_encoding.md R95, `used in`); a command whose arguments
are computed has none. -/
def fixedArgs : WireName → List WireName
  | .displayOff => []
  | .setClockDiv => [.clockDivArg]
  | .clockDivArg => []
  | .setMux => []
  | .setDisplayOffset => []
  | .setStartLine => []
  | .setChargePump => [.chargePumpOnArg]
  | .chargePumpOnArg => []
  | .segRemapNormal => []
  | .segRemapMirrored => []
  | .comScanNormal => []
  | .comScanMirrored => []
  | .setComPins => [.comPinsAltArg, .comPinsSeqArg]
  | .comPinsAltArg => []
  | .comPinsSeqArg => []
  | .setMemMode => [.memModeVerticalArg]
  | .memModeVerticalArg => []
  | .setPrecharge => [.prechargeArg]
  | .prechargeArg => []
  | .setVcomh => [.vcomhArg]
  | .vcomhArg => []
  | .entireDisplayResume => []
  | .normalDisplay => []
  | .displayOn => []
  | .setContrastCmd => []
  | .setColumnRange => []
  | .setPageRange => []

/-- One Command byte by itself: the first row of the table with its value. -/
def decodeWire (w : Wire) (b : Byte) : Option WireName :=
  wireNames.find? (fun n => decide (w.get n = b))

/-- A command byte: the first command row with its value. -/
def decodeCommandByte (w : Wire) (b : Byte) : Except DecodeError WireName :=
  match wireNames.find? (fun n => !isArgument n && decide (w.get n = b)) with
  | some n => .ok n
  | none => .error (.unknownCommand b)

/-- An argument byte of the command `cmd`: one of its named arguments, or any byte where the argument is computed. -/
def decodeArgumentByte (w : Wire) (cmd : WireName) (b : Byte) : Except DecodeError Slot :=
  match fixedArgs cmd with
  | [] => .ok (.arg b)
  | n :: ns =>
    match (n :: ns).find? (fun m => decide (w.get m = b)) with
    | some m => .ok (.row m)
    | none => .error (.unknownArgument cmd b)

/-- The parser of 30_encoding.md R89, from the start of an operation; `pending` holds the last command byte and how
many of its arguments are still to come. -/
def parseWireFrom (w : Wire) : Option (WireName × Nat) → List Byte → Except DecodeError (List Slot)
  | some (cmd, _ + 1), [] => .error (.missingArgument cmd)
  | some (_, 0), [] => .ok []
  | none, [] => .ok []
  | some (cmd, left + 1), b :: bs => do
      let slot ← decodeArgumentByte w cmd b
      let rest ← parseWireFrom w (some (cmd, left)) bs
      return slot :: rest
  | some (_, 0), b :: bs => do
      let n ← decodeCommandByte w b
      let rest ← parseWireFrom w (some (n, argCount n)) bs
      return .row n :: rest
  | none, b :: bs => do
      let n ← decodeCommandByte w b
      let rest ← parseWireFrom w (some (n, argCount n)) bs
      return .row n :: rest

/-- The Command bytes of an operation, from its start. -/
def parseWire (w : Wire) (bytes : List Byte) : Except DecodeError (List Slot) := parseWireFrom w none bytes

/-! One instruction from bytes, and the encoder. -/

/-- A word from its four bytes, the first the least significant (10_state.md R21). -/
def wordOfBytes (b0 b1 b2 b3 : Byte) : Word := b3 ++ b2 ++ b1 ++ b0

/-- Byte `k` of a word, byte 0 the least significant. -/
def byteOfWord (w : Word) (k : Nat) : Byte := w.extractLsb' (8 * k) 8

/-- The instruction that the bytes of one code are, total on any bytes: a CMD word as it lies in the window
(little-endian), one Command byte, or the bytes of a Data transaction. -/
def decode (w : Wire) : Format → List Byte → Except DecodeError Instr
  | .h32, [b0, b1, b2, b3] => .ok (decodeCmd (wordOfBytes b0 b1 b2 b3))
  | .h32, bytes => .error (.wrongLength bytes.length)
  | .wc, [b] =>
    match decodeWire w b with
    | some n => .ok (.ofWire n)
    | none => .error (.unknownByte b)
  | .wc, bytes => .error (.wrongLength bytes.length)
  | .wd, bytes => if bytes.length = 0 ∨ 1024 < bytes.length then .error (.badBurstLength bytes.length) else .ok .dataBurst

/-- The CMD word of a host operation or an illegal word (30_encoding.md R84, R81). -/
def encodeCmd : Instr → Option Word
  | .init => some 0x00000001#32
  | .setWindow => some 0x00000002#32
  | .pack => some 0x00000003#32
  | .writeFrame => some 0x00000004#32
  | .setContrast => some 0x00000005#32
  | .setBlank => some 0x00000006#32
  | .illegal rsvd opcode => some (rsvd ++ opcode)
  | .wireDisplayOff => none
  | .wireSetClockDiv => none
  | .wireClockDivArg => none
  | .wireSetMux => none
  | .wireSetDisplayOffset => none
  | .wireSetStartLine => none
  | .wireSetChargePump => none
  | .wireChargePumpOnArg => none
  | .wireSegRemapNormal => none
  | .wireSegRemapMirrored => none
  | .wireComScanNormal => none
  | .wireComScanMirrored => none
  | .wireSetComPins => none
  | .wireComPinsAltArg => none
  | .wireComPinsSeqArg => none
  | .wireSetMemMode => none
  | .wireMemModeVerticalArg => none
  | .wireSetPrecharge => none
  | .wirePrechargeArg => none
  | .wireSetVcomh => none
  | .wireVcomhArg => none
  | .wireEntireDisplayResume => none
  | .wireNormalDisplay => none
  | .wireDisplayOn => none
  | .wireSetContrastCmd => none
  | .wireSetColumnRange => none
  | .wireSetPageRange => none
  | .dataBurst => none

/-- The bytes of an instruction: the CMD word little-endian, the byte the profile gives a WIRE row, or, for the data
burst, the frame it is to send (a DATA_BURST has no bits of its own, 30_encoding.md R90). -/
def encode (w : Wire) (frame : List Byte) (i : Instr) : List Byte :=
  match encodeCmd i with
  | some v => [byteOfWord v 0, byteOfWord v 1, byteOfWord v 2, byteOfWord v 3]
  | none =>
    match i.wireName with
    | some n => [w.get n]
    | none => frame

/-- The format and bytes that the table's bits stand for: 32 bits are a CMD word, 8 bits a Command byte, and no bits
the data burst, which the table gives none. -/
def tableCode (nbits v : Nat) : Option (Format × List Byte) :=
  if nbits = 32 then
    let x : Word := BitVec.ofNat 32 v
    some (.h32, [byteOfWord x 0, byteOfWord x 1, byteOfWord x 2, byteOfWord x 3])
  else if nbits = 8 then some (.wc, [BitVec.ofNat 8 v])
  else if nbits = 0 then some (.wd, [0#8])
  else none

/-- The instruction the decoder reads, under profile `w`, from bits numbered as spec/opcode_table.json numbers them. -/
def decodeTableWordWith (w : Wire) (nbits v : Nat) : Option Instr :=
  match tableCode nbits v with
  | some (f, bytes) =>
    match decode w f bytes with
    | .ok i => some i
    | .error _ => none
  | none => none

/-- The same under the default profile, whose bytes the table shows. -/
def decodeTableWord (nbits w : Nat) : Option Instr := decodeTableWordWith Wire.default nbits w

end Sys2Proof
end

