-- ==== Sys2Proof/Machine/State.lean ====
section
/-! DEFINITION. The state of FBPACK, of its ports, and of the outside world's plan, as plain data; its value right
after reset; and the reasons a step can stop. -/

namespace Sys2Proof.Machine

/-- STATUS.DSTATE (10_state.md R34). -/
inductive DState where
  | uninitialized
  | initializing
  | on
  | blanked
  deriving DecidableEq, Repr

/-- STATUS.RESULT: the six values that are produced (60_exceptions.md R220). -/
inductive Result where
  | ok
  | busError
  | configError
  | stateError
  | illegalOp
  | memError
  deriving DecidableEq, Repr

/-- The causes of a ConfigurationError (60_exceptions.md R221). -/
inductive ConfigCause where
  | geometry
  | orientRange
  | pixbaseAlign
  | pixbaseRange
  deriving DecidableEq, Repr

/-- The causes of a StateError (60_exceptions.md R222). -/
inductive StateCause where
  | initState
  | notInitialized
  deriving DecidableEq, Repr

/-- What `raise` carries (00_scope.md R12): the kind of error and its info. -/
inductive OpError where
  | bus (code : Word)
  | config (c : ConfigCause)
  | state (c : StateCause)
  | illegalOp
  | mem (addr : Nat)
  deriving DecidableEq, Repr

/-- The sequencer step index `pc` (10_state.md R31): idle; the check step (60_exceptions.md R227); INIT step 1
(40_sequencer.md R113); transaction `t_k`, `k` from 1 (40_sequencer.md R114, 41_window.md R142, 44_contrast_blank.md
R200, R205); the fill of PACK and WRITE_FRAME (42_packer.md R162); the burst of WRITE_FRAME (43_write_path.md R181). -/
inductive Pc where
  | idle
  | check
  | lazyContrast
  | tx (k : Nat)
  | fill
  | burst
  deriving DecidableEq, Repr

/-- The operands latched at the start of an operation, `L.*` (10_state.md R33). -/
structure Latched where
  cmd      : Word
  arg      : Word
  width    : BitVec 16
  height   : BitVec 16
  orient   : BitVec 9
  contrast : Word
  pixbase  : Word
  deriving DecidableEq, Repr

/-- How far the fill of PACK or WRITE_FRAME has come (10_state.md R40): the samples read, each by its row-major index
with whether it was lit; the PACKBUF bytes written; the samples the host has written before they were read, whose reads
are free values (20_memory.md R63). -/
structure Fill where
  read    : List (Nat × Bool)
  written : List Nat
  raced   : List Nat
  deriving DecidableEq, Repr

/-- No sample read, no byte written. -/
def Fill.empty : Fill where
  read    := []
  written := []
  raced   := []

/-- The command/data control line of a transaction (10_state.md R36). -/
inductive Phase where
  | command
  | data
  deriving DecidableEq, Repr

/-- A request on the bus port (10_state.md R36). -/
structure Request where
  phase : Phase
  bytes : List Byte
  deriving DecidableEq, Repr

/-- What the transport answers to a transaction: a draw of BUS (20_memory.md R60). On an error it has delivered
`delivered` bytes, or all of them if there are fewer (notes/assumptions/8.md). -/
inductive Answer where
  | ok
  | err (code : Word) (delivered : Nat)
  deriving DecidableEq, Repr

/-- How a transaction of the trace ended: answered, or abandoned by a reset (70_reset_and_hazards.md R253). -/
inductive Response where
  | ok
  | err (code : Word) (delivered : Nat)
  | abandoned (delivered : Nat)
  deriving DecidableEq, Repr

/-- One transaction of the bus trace (00_scope.md R16). -/
structure Transaction where
  phase    : Phase
  bytes    : List Byte
  response : Response
  deriving DecidableEq, Repr

/-- A move of one of the agents (00_scope.md R15; notes/assumptions/5.md). -/
inductive Move where
  /-- The engine takes its next step. -/
  | engine
  /-- The host polls STATUS until BUSY reads 0 (30_encoding.md R91); the engine steps meanwhile. -/
  | wait
  /-- The host reads `width` bits at an address. -/
  | rd (width addr : Nat)
  /-- The host writes `width` bits at an address. -/
  | wr (width addr : Nat) (v : Word)
  /-- The host writes the value it read last, the temporary `t` of 30_encoding.md R91. -/
  | wrTemp (width addr : Nat)
  /-- The host writes a byte of pixel memory by its own means (20_memory.md R50). -/
  | pixWrite (addr : Word) (b : Byte)
  /-- The transport gives its answer to the next transaction that has none yet. -/
  | answer (a : Answer)
  /-- The platform asserts reset; of an outstanding transaction `delivered` bytes had arrived (R250, R253). -/
  | reset (delivered : Nat)
  deriving DecidableEq, Repr

/-- Why the machine stops. -/
inductive Fault where
  /-- Raised by a host operation that is asked to run a step that is not one of its own: the step index names none of
  its steps, or another operation is running.
  No state that meets the control invariant raises it, so it stands for no behaviour of the hardware: safe
  (notes/assumptions/16.md). -/
  | noStep
  deriving DecidableEq, Repr

/-- Why an instruction is turned away. -/
inductive Refusal where
  /-- Raised only by an arm of `exec` without a meaning: the instruction is not modelled.
  No arm of this model is one: safe. -/
  | notModelled (mnemonic : String)
  deriving DecidableEq, Repr

/-- The state: registers, engine, ports, parameters, and the outside world's plan.
INVENTORY.md lists every field with its rule and its reset value. -/
structure State where
  /-- The parameters (00_scope.md R6); no step changes them. -/
  cfg       : Config
  /-- ARG (10_state.md R23). -/
  arg       : Word
  /-- ERRCODE (10_state.md R25). -/
  errcode   : Word
  /-- WIDTH[15:0] (10_state.md R26). -/
  width     : BitVec 16
  /-- HEIGHT[15:0] (10_state.md R26). -/
  height    : BitVec 16
  /-- ORIENT[8:0] (10_state.md R28). -/
  orient    : BitVec 9
  /-- CONTRAST (10_state.md R29). -/
  contrast  : Word
  /-- PIXBASE (10_state.md R30). -/
  pixbase   : Word
  /-- STATUS.BUSY (10_state.md R24). -/
  busy      : Bool
  /-- STATUS.FAULT (10_state.md R24). -/
  fault     : Bool
  /-- STATUS.DSTATE (10_state.md R34). -/
  dstate    : DState
  /-- STATUS.RESULT (10_state.md R24). -/
  result    : Result
  /-- PACKBUF: the bytes written since reset, by rising index (10_state.md R35). -/
  packbuf   : List Host.Cell
  /-- The sequencer step index (10_state.md R31). -/
  pc        : Pc
  /-- The latched operands, none before the first operation (10_state.md R33, R41). -/
  latched   : Option Latched
  /-- The progress of a fill (10_state.md R40). -/
  fill      : Fill
  /-- The outstanding request on the bus port (10_state.md R36, R40). -/
  port      : Option Request
  /-- The bus trace, oldest first (00_scope.md R16). -/
  trace     : List Transaction
  /-- Pixel memory, in canonical form (20_memory.md R50). -/
  pix       : List Host.Cell
  /-- The moves to come (notes/assumptions/5.md). -/
  script    : List Move
  /-- The draws of BUS still to be given, one per transaction (20_memory.md R60). -/
  answers   : List Answer
  /-- The order of the fill's reads and writes (20_memory.md R62; notes/assumptions/9.md). -/
  sched     : List Nat
  /-- How many free values have been drawn. -/
  draws     : Nat
  /-- What the host's reads gave, oldest first: the offset and the value. -/
  hostReads : List (Nat × Word)
  /-- The error the last operation ended with, none after a normal end (60_exceptions.md R221). -/
  lastError : Option OpError
  deriving DecidableEq, Repr

/-- The machine right after reset, with default parameters and nothing planned by the outside world
(10_state.md R41, 70_reset_and_hazards.md R250).
PRESUMED (notes/assumptions/2.md) and DESIGN CHOICE (notes/assumptions/3.md, 4.md, 5.md, 7.md, 9.md, 11.md, 12.md,
18.md): the fields that are no register of FBPACK. -/
def State.reset : State where
  cfg       := Config.default
  arg       := 0#32
  errcode   := 0#32
  width     := 0#16
  height    := 0#16
  orient    := 0#9
  contrast  := 0#32
  pixbase   := 0#32
  busy      := false
  fault     := false
  dstate    := .uninitialized
  result    := .ok
  packbuf   := []
  pc        := .idle
  latched   := none
  fill      := Fill.empty
  port      := none
  trace     := []
  pix       := []
  script    := []
  answers   := []
  sched     := []
  draws     := 0
  hostReads := []
  lastError := none

end Sys2Proof.Machine
end

