-- ==== Sys2Proof/Machine/Operands.lean ====
section
/-! DEFINITION. The operands: geometry, argument bytes, sample addresses, and the sequence of Command transactions of
each operation, as functions of the latched registers. -/

namespace Sys2Proof.Machine

/-- `trunc_8(n)` (00_scope.md R8). -/
def trunc8 (n : Nat) : Byte := BitVec.ofNat 8 n

/-- `v[7:0]` of a register (00_scope.md R7). -/
def lowByte (v : Word) : Byte := v.extractLsb' 0 8

/-- `W = L.WIDTH` (00_scope.md R13). -/
def Latched.w (L : Latched) : Nat := L.width.toNat

/-- `H = L.HEIGHT` (00_scope.md R13). -/
def Latched.h (L : Latched) : Nat := L.height.toNat

/-- `P = H // 8`, the number of pages (00_scope.md R13). -/
def Latched.p (L : Latched) : Nat := L.h / 8

/-- The number of samples, `W*H` (20_memory.md R62). -/
def Latched.samples (L : Latched) : Nat := L.w * L.h

/-- The number of packed bytes, `N = W*P` (42_packer.md R160). -/
def Latched.n (L : Latched) : Nat := L.w * L.p

/-- `B + SAMPLE_BYTES * index`, the address of the sample with a row-major index (20_memory.md R52). -/
def Latched.sampleAddr (L : Latched) (j : Nat) : Nat := L.pixbase.toNat + 2 * j

/-- The row-major index of pixel `(x, r)`: `r*W + x` (20_memory.md R52). -/
def Latched.index (L : Latched) (x r : Nat) : Nat := r * L.w + x

/-- The packed byte that holds the sample with a row-major index: `x*P + r//8` (42_packer.md R160). -/
def Latched.byteOfSample (L : Latched) (j : Nat) : Nat := j % L.w * L.p + j / L.w / 8

/-- `MIRROR = (L.ORIENT >= 180)` (10_state.md R28). -/
def Latched.mirror (L : Latched) : Bool := decide (180 ≤ L.orient.toNat)

/-- The operand of SET_BLANK, over all 32 bits of ARG (30_encoding.md R82). -/
def Latched.blank (L : Latched) : Bool := truthy L.arg

/-- The operand of SET_CONTRAST, `L.ARG[7:0]` (30_encoding.md R82). -/
def Latched.level (L : Latched) : Byte := lowByte L.arg

/-- `MUX_ARG` (30_encoding.md R83). -/
def Latched.muxArg (L : Latched) : Byte := trunc8 (L.h - 1)

/-- `SEG_CMD` (30_encoding.md R83). -/
def Latched.segCmd (L : Latched) : WireName := if L.mirror then .segRemapMirrored else .segRemapNormal

/-- `COM_SCAN_CMD` (30_encoding.md R83). -/
def Latched.comScanCmd (L : Latched) : WireName := if L.mirror then .comScanMirrored else .comScanNormal

/-- `COM_PINS_ARG` (30_encoding.md R83). -/
def Latched.comPinsArg (L : Latched) : WireName := if L.h = 64 ∨ L.h = 48 then .comPinsAltArg else .comPinsSeqArg

/-- The default contrast of INIT step 1 (40_sequencer.md R113). -/
def Latched.defaultContrast (L : Latched) : Word := if L.h = 64 then 0xCF#32 else 0x8F#32

/-- The bounds of the addressing window. -/
structure Bounds where
  cs : Byte
  ce : Byte
  ps : Byte
  pe : Byte
  deriving DecidableEq, Repr

/-- The window: Variant B for exactly 64×48, Variant A for every other geometry (41_window.md R143, R144). -/
def Latched.window (L : Latched) : Bounds :=
  if L.w = 64 ∧ L.h = 48 then ⟨0x20#8, 0x5F#8, 0x00#8, 0x05#8⟩
  else ⟨0x00#8, trunc8 (L.w - 1), 0x00#8, trunc8 (L.p - 1)⟩

/-- INIT's transactions `t1` to `t23`, its steps 2 to 16 (40_sequencer.md R114). -/
def initSlots (L : Latched) : List Slot :=
  [.row .displayOff,
   .row .setClockDiv, .row .clockDivArg,
   .row .setMux, .arg L.muxArg,
   .row .setDisplayOffset, .arg 0x00#8,
   .row .setStartLine,
   .row .setChargePump, .row .chargePumpOnArg,
   .row L.segCmd,
   .row L.comScanCmd,
   .row .setComPins, .row L.comPinsArg,
   .row .setMemMode, .row .memModeVerticalArg,
   .row .setPrecharge, .row .prechargeArg,
   .row .setVcomh, .row .vcomhArg,
   .row .entireDisplayResume,
   .row .normalDisplay,
   .row .displayOn]

/-- SET_WINDOW's transactions `t1` to `t6` (41_window.md R142). -/
def windowSlots (L : Latched) : List Slot :=
  [.row .setColumnRange, .arg L.window.cs, .arg L.window.ce, .row .setPageRange, .arg L.window.ps, .arg L.window.pe]

/-- SET_CONTRAST's transactions `t1`, `t2` (44_contrast_blank.md R200). -/
def contrastSlots (L : Latched) : List Slot := [.row .setContrastCmd, .arg L.level]

/-- SET_BLANK's transaction `t1` (44_contrast_blank.md R205). -/
def blankSlots (L : Latched) : List Slot := [.row (if L.blank then .displayOff else .displayOn)]

/-- The Command transactions of an operation; PACK, WRITE_FRAME and an illegal word have none (42_packer.md R161,
43_write_path.md R185, 30_encoding.md R85), and a row that is no operation has no sequence. -/
def slots (op : Instr) (L : Latched) : List Slot :=
  match op with
  | .init => initSlots L
  | .setWindow => windowSlots L
  | .setContrast => contrastSlots L
  | .setBlank => blankSlots L
  | .pack | .writeFrame | .illegal _ _ | .wireDisplayOff | .wireSetClockDiv | .wireClockDivArg | .wireSetMux
  | .wireSetDisplayOffset | .wireSetStartLine | .wireSetChargePump | .wireChargePumpOnArg | .wireSegRemapNormal
  | .wireSegRemapMirrored | .wireComScanNormal | .wireComScanMirrored | .wireSetComPins | .wireComPinsAltArg
  | .wireComPinsSeqArg | .wireSetMemMode | .wireMemModeVerticalArg | .wireSetPrecharge | .wirePrechargeArg
  | .wireSetVcomh | .wireVcomhArg | .wireEntireDisplayResume | .wireNormalDisplay | .wireDisplayOn
  | .wireSetContrastCmd | .wireSetColumnRange | .wireSetPageRange | .dataBurst => []

/-- Transaction `t_k` of a sequence, `k` from 1. -/
def slotAt (l : List Slot) (k : Nat) : Option Slot :=
  match k with
  | 0 => none
  | k + 1 => l[k]?

/-- The byte a transaction carries under a profile. -/
def slotByte (w : Wire) (slot : Slot) : Byte :=
  match slot with
  | .row n => w.get n
  | .arg b => b

end Sys2Proof.Machine
end

