-- ==== Sys2Proof/Machine/Flags.lean ====
section
/-! DEFINITION. STATUS and its fields: the code of each value, GEOM, and the word that a read returns. -/

namespace Sys2Proof.Machine

/-- The default of SUPPORTED (10_state.md R27), with MAX_COLS = 128 and MAX_PAGES = 8 (00_scope.md R6). -/
def defaultSupported (w h : Nat) : Bool :=
  decide ((w = 64 ∧ h = 48) ∨ (w % 8 = 0 ∧ 8 ≤ w ∧ w ≤ 128 ∧ h % 8 = 0 ∧ 16 ≤ h ∧ h ≤ 64))

/-- `SUPPORTED(w, h)`, a parameter (10_state.md R27). -/
def supported (c : Config) (w h : Nat) : Bool :=
  match c.geometry with
  | .default => defaultSupported w h
  | .listed gs => decide ((w, h) ∈ gs)

/-- STATUS.GEOM: 0 unsupported, 1 Variant A, 2 Variant B (10_state.md R24, R27). -/
def geom (c : Config) (w h : Nat) : BitVec 2 :=
  if supported c w h then (if w = 64 ∧ h = 48 then 2#2 else 1#2) else 0#2

/-- The code of DSTATE (10_state.md R34). -/
def dstateCode (d : DState) : BitVec 2 :=
  match d with
  | .uninitialized => 0#2
  | .initializing => 1#2
  | .on => 2#2
  | .blanked => 3#2

/-- The code of RESULT (60_exceptions.md R220). -/
def resultCode (r : Result) : BitVec 4 :=
  match r with
  | .ok => 0#4
  | .busError => 1#4
  | .configError => 2#4
  | .stateError => 3#4
  | .illegalOp => 4#4
  | .memError => 5#4

/-- The RESULT an operation ends with (60_exceptions.md R220, R224). -/
def resultOf (e : Option OpError) : Result :=
  match e with
  | none => .ok
  | some (.bus _) => .busError
  | some (.config _) => .configError
  | some (.state _) => .stateError
  | some .illegalOp => .illegalOp
  | some (.mem _) => .memError

/-- The ERRCODE an operation ends with: a BusError's code verbatim, else 0 (10_state.md R25, 60_exceptions.md R224). -/
def errcodeOf (e : Option OpError) : Word :=
  match e with
  | none => 0#32
  | some (.bus c) => c
  | some (.config _) => 0#32
  | some (.state _) => 0#32
  | some .illegalOp => 0#32
  | some (.mem _) => 0#32

/-- The word a read of STATUS returns (10_state.md R24): reserved 0, GEOM, RESULT, DSTATE, FAULT, BUSY. -/
def statusWord (s : State) : Word :=
  0#22 ++ geom s.cfg s.width.toNat s.height.toNat ++ resultCode s.result ++ dstateCode s.dstate
    ++ BitVec.ofBool s.fault ++ BitVec.ofBool s.busy

end Sys2Proof.Machine
end

