-- ==== Sys2Proof/Machine/Ops.lean ====
section
/-! DEFINITION. The shared operations: byte-addressed lists, pixel memory, PACKBUF, free values, the start and the end
of an operation (a `raise` is an end with an error), the protocol fault, the reset, and one bus transaction. -/

namespace Sys2Proof.Machine

/-! Lists of entries by rising key. -/

/-- The value at a key. -/
def Cells.lookup {α : Type} (a : Nat) : List (Nat × α) → Option α
  | [] => none
  | (k, v) :: rest => if a = k then some v else Cells.lookup a rest

/-- The list with `v` at `a`. -/
def Cells.set {α : Type} (a : Nat) (v : α) : List (Nat × α) → List (Nat × α)
  | [] => [(a, v)]
  | (k, u) :: rest =>
    if a < k then (a, v) :: (k, u) :: rest
    else if a = k then (a, v) :: rest
    else (k, u) :: Cells.set a v rest

/-- The list without an entry at `a`. -/
def Cells.erase {α : Type} (a : Nat) : List (Nat × α) → List (Nat × α)
  | [] => []
  | (k, u) :: rest => if a = k then rest else (k, u) :: Cells.erase a rest

/-- Keys strictly rising. -/
abbrev Cells.Rising {α : Type} (l : List (Nat × α)) : Prop := l.Pairwise (fun a b => a.1 < b.1)

/-! Pixel memory (20_memory.md R50). -/

/-- What a byte of pixel memory that nothing has written reads as.
DESIGN CHOICE (notes/assumptions/12.md; unsafe). -/
def Memory.blank : Byte := 0x00#8

/-- The canonical form: addresses strictly rising and below 2^32, no entry equal to the blank byte. -/
abbrev Memory.wf (m : List Host.Cell) : Prop :=
  Cells.Rising m ∧ ∀ c ∈ m, c.2 ≠ Memory.blank ∧ c.1 < 4294967296

/-- One byte of pixel memory. -/
def Memory.read (m : List Host.Cell) (a : Nat) : Byte := (Cells.lookup a m).getD Memory.blank

/-- A write of one byte, which keeps the canonical form. -/
def Memory.write (m : List Host.Cell) (a : Nat) (b : Byte) : List Host.Cell :=
  if b = Memory.blank then Cells.erase a m else Cells.set a b m

/-- `MemRead(a, 2)` (00_scope.md R10, 20_memory.md R52). Only truthiness is used, so the byte order is immaterial
(R51). -/
def Memory.read16 (m : List Host.Cell) (a : Nat) : BitVec 16 := Memory.read m (a + 1) ++ Memory.read m a

/-- How pixel memory treats the 2-byte read at `a`: PIX_ADMIT (00_scope.md R6, 20_memory.md R54). -/
def pixAnswer (regions : List PixRegion) (a : Nat) : PixAnswer :=
  match regions with
  | [] => .admitted
  | g :: rest => if g.base ≤ a ∧ a < g.base + g.size then g.kind else pixAnswer rest a

/-! PACKBUF (10_state.md R35). -/

/-- The canonical form: indexes strictly rising and below 1024. -/
abbrev Packbuf.wf (m : List Host.Cell) : Prop := Cells.Rising m ∧ ∀ c ∈ m, c.1 < 1024

/-- `PackWrite(k, b)` (00_scope.md R10); PACKBUF has 1024 bytes. -/
def packWrite (k : Nat) (b : Byte) (m : List Host.Cell) : List Host.Cell := if k < 1024 then Cells.set k b m else m

/-- Bytes `k, …, k + n - 1` as the engine reads them, `PackRead` (00_scope.md R10); each byte nothing has written is
the next free value (notes/assumptions/29.md). With them, how many free values have been drawn. -/
def packRead (m : List Host.Cell) (draws k : Nat) : Nat → List Byte × Nat
  | 0 => ([], draws)
  | n + 1 =>
    match Cells.lookup k m with
    | some b => let r := packRead m draws (k + 1) n; (b :: r.1, r.2)
    | none => let r := packRead m (draws + 1) (k + 1) n; (Config.freeByte draws :: r.1, r.2)

/-- PACKBUF as a host read sees it: while BUSY = 1 no byte is as if written, and every one is a fresh free value
(10_state.md R35). -/
def hostPackbuf (s : State) : List Host.Cell := if s.busy then [] else s.packbuf

/-! Start and end of an operation. -/

/-- The registers as a CMD write latches them (10_state.md R33). -/
def latch (cmd : Word) (s : State) : Latched :=
  ⟨cmd, s.arg, s.width, s.height, s.orient, s.contrast, s.pixbase⟩

/-- Operation start (10_state.md R32): latch, set BUSY, `pc` at the check step. Nothing has been read or written yet. -/
def startOp (cmd : Word) (s : State) : State :=
  { s with latched := some (latch cmd s), busy := true, pc := .check, fill := Fill.empty }

/-- Operation end (60_exceptions.md R224): RESULT, ERRCODE, `pc` idle, BUSY clear, in one step. The record of the error
is the model's own, and the progress of a fill is gone (notes/assumptions/18.md, 20.md). -/
def endOp (e : Option OpError) (s : State) : State :=
  { s with
    result := resultOf e
    errcode := errcodeOf e
    pc := .idle
    busy := false
    fill := Fill.empty
    lastError := e }

/-- `raise E(info)` (00_scope.md R12): the operation ends at once with the error. There is no handler to go to and no
return (60_exceptions.md R226). -/
def raise (e : OpError) (s : State) : State := endOp (some e) s

/-- `fault P` (60_exceptions.md R230): FAULT is set, and nothing else changes. -/
def faultP (s : State) : State := { s with fault := true }

/-- A host operation is asked to run: when no operation is running this is its CMD write, which starts it unless FAULT
makes the write ignored (10_state.md R21, R22, R32); when it is the running operation, `k` is its step at `pc` with
the latched operands (notes/assumptions/14.md, 16.md). -/
def opTurn (i : Instr) (cmd : Word) (s : State) (k : Pc → Latched → Host.Outcome State Fault Refusal) :
    Host.Outcome State Fault Refusal :=
  if s.busy then
    match s.latched with
    | some L => if decodeCmd L.cmd = i then k s.pc L else .fault .noStep
    | none => .fault .noStep
  else if s.fault then .next s
  else .next (startOp cmd s)

/-- Whether the operation uses a supported geometry (10_state.md R27). -/
def Latched.supported (L : Latched) (c : Config) : Bool := Machine.supported c L.w L.h

/-- The checks of PACK and WRITE_FRAME, in the order of 60_exceptions.md R228: geometry, then the alignment and the
range of PIXBASE (20_memory.md R53). -/
def bufferError (c : Config) (L : Latched) : Option OpError :=
  if L.supported c = false then some (.config .geometry)
  else if L.pixbase.toNat % 2 ≠ 0 then some (.config .pixbaseAlign)
  else if L.pixbase.toNat + 2 * L.samples > 4294967296 then some (.config .pixbaseRange)
  else none

/-- The check step's end: the first error that applies, or the step `go` (60_exceptions.md R228). -/
def checked (e : Option OpError) (go : State → State) (s : State) : State :=
  match e with
  | some e => raise e s
  | none => go s

/-! One bus transaction. -/

/-- What the last transaction of an operation does beside ending it: INIT goes On (40_sequencer.md R114), SET_BLANK
between On and Blanked (44_contrast_blank.md R205, R206). -/
def finish (op : Instr) (L : Latched) (s : State) : State :=
  if op = .init then { s with dstate := .on }
  else if op = .setBlank then
    (if s.dstate = .on ∨ s.dstate = .blanked then { s with dstate := if L.blank then .blanked else .on } else s)
  else s

/-- A transaction has returned ok: `pc` advances by one step (10_state.md R31), or the operation ends after its last
one. Where no transaction step is running nothing advances (notes/assumptions/15.md). -/
def advance (s : State) : State :=
  match s.latched with
  | none => s
  | some L =>
    match s.pc with
    | .tx k =>
      if k < (slots (decodeCmd L.cmd) L).length then { s with pc := .tx (k + 1) }
      else endOp none (finish (decodeCmd L.cmd) L s)
    | .burst => endOp none s
    | .idle => s
    | .check => s
    | .lazyContrast => s
    | .fill => s

/-- How an answer stands in the trace: of `n` bytes at most `n` are delivered (20_memory.md R60;
notes/assumptions/8.md). -/
def Answer.response (a : Answer) (n : Nat) : Response :=
  match a with
  | .ok => .ok
  | .err code delivered => .err code (min delivered n)

/-- `BusTx(phase, bytes)` and what follows it (00_scope.md R11, 10_state.md R36, 20_memory.md R60, R61).
Without an answer the request is outstanding and the engine waits, with one it stands in the trace: `ok` advances the
operation, `err(c)` raises BusError(c) (60_exceptions.md R223). -/
def transact (phase : Phase) (bytes : List Byte) (s : State) : State :=
  match s.answers with
  | [] => { s with port := some ⟨phase, bytes⟩ }
  | a :: rest =>
    let s' := { s with
      port := none
      answers := rest
      trace := s.trace ++ [⟨phase, bytes, a.response bytes.length⟩] }
    match a with
    | .ok => advance s'
    | .err code _ => raise (.bus code) s'

/-- `Emit(b)` for a named constant (00_scope.md R11, 30_encoding.md R88): one Command transaction of its byte. -/
def emit (n : WireName) (s : State) : State := transact .command [s.cfg.wire.get n] s

/-- Transaction `t_k` of an operation, `k` from 1. -/
def txTurn (l : List Slot) (k : Nat) (s : State) : Host.Outcome State Fault Refusal :=
  match slotAt l k with
  | some slot => .next (transact .command [slotByte s.cfg.wire slot] s)
  | none => .fault .noStep

/-! Reset. -/

/-- The bus trace after a reset: an outstanding transaction is abandoned, any prefix delivered
(70_reset_and_hazards.md R253). -/
def abandon (delivered : Nat) (s : State) : List Transaction :=
  match s.port with
  | some r => s.trace ++ [⟨r.phase, r.bytes, .abandoned (min delivered r.bytes.length)⟩]
  | none => s.trace

/-- FBPACK's reset (70_reset_and_hazards.md R250, R253): every piece of FBPACK's state takes its reset value.
Pixel memory stays (R254), and so do the parameters, the outside world's plan and the records
(notes/assumptions/21.md). -/
def resetDevice (delivered : Nat) (s : State) : State :=
  { State.reset with
    cfg := s.cfg
    trace := abandon delivered s
    pix := s.pix
    script := s.script
    answers := s.answers
    sched := s.sched
    draws := s.draws
    hostReads := s.hostReads }

end Sys2Proof.Machine
end

