-- ==== Sys2Proof/Machine/ContrastBlank.lean ====
section
/-! DEFINITION. Contrast and blank control: SET_CONTRAST and SET_BLANK (44_contrast_blank.md). -/

namespace Sys2Proof.Machine

/-- The check of SET_CONTRAST and SET_BLANK (44_contrast_blank.md R200, R205). -/
def notInitialized (s : State) : Option OpError :=
  if s.dstate = .uninitialized then some (.state .notInitialized) else none

/-- SET_CONTRAST (44_contrast_blank.md R200). -/
def execSetContrast (s : State) : Host.Outcome State Fault Refusal :=
  opTurn .setContrast 0x00000005#32 s fun pc L =>
    match pc with
    | .check => .next (checked (notInitialized s) (fun s => { s with pc := .tx 1 }) s)
    | .tx k => txTurn (contrastSlots L) k s
    | .idle => .fault .noStep
    | .lazyContrast => .fault .noStep
    | .fill => .fault .noStep
    | .burst => .fault .noStep

/-- SET_BLANK (44_contrast_blank.md R205). -/
def execSetBlank (s : State) : Host.Outcome State Fault Refusal :=
  opTurn .setBlank 0x00000006#32 s fun pc L =>
    match pc with
    | .check => .next (checked (notInitialized s) (fun s => { s with pc := .tx 1 }) s)
    | .tx k => txTurn (blankSlots L) k s
    | .idle => .fault .noStep
    | .lazyContrast => .fault .noStep
    | .fill => .fault .noStep
    | .burst => .fault .noStep

end Sys2Proof.Machine
end

