-- ==== Sys2Proof/Machine/Illegal.lean ====
section
/-! DEFINITION. The reserved CMD words (30_encoding.md R85, R86). -/

namespace Sys2Proof.Machine

/-- ILLEGAL: the check step raises IllegalOp and makes no other check (60_exceptions.md R227). -/
def execIllegal (rsvd : BitVec 28) (opcode : BitVec 4) (s : State) : Host.Outcome State Fault Refusal :=
  opTurn (.illegal rsvd opcode) (rsvd ++ opcode) s fun pc _ =>
    match pc with
    | .check => .next (raise .illegalOp s)
    | .idle => .fault .noStep
    | .lazyContrast => .fault .noStep
    | .tx _ => .fault .noStep
    | .fill => .fault .noStep
    | .burst => .fault .noStep

end Sys2Proof.Machine
end

