-- ==== Sys2Proof/Machine/Packer.lean ====
section
/-! DEFINITION. The Frame Packer: the pack function, the fill, and PACK (42_packer.md). -/

namespace Sys2Proof.Machine

/-! The pack function. -/

/-- The byte whose bit `i`, of weight 2^i, is `f i` (00_scope.md R7). -/
def byteOf (f : Nat → Bool) : Byte :=
  BitVec.ofBool (f 7) ++ BitVec.ofBool (f 6) ++ BitVec.ofBool (f 5) ++ BitVec.ofBool (f 4)
    ++ BitVec.ofBool (f 3) ++ BitVec.ofBool (f 2) ++ BitVec.ofBool (f 1) ++ BitVec.ofBool (f 0)

/-- Byte `k` of the packed frame with `p` pages: bit `i` is `lit(k // P, 8 * (k mod P) + i)` (42_packer.md R160). -/
def packByte (lit : Nat → Nat → Bool) (p k : Nat) : Byte := byteOf fun i => lit (k / p) (8 * (k % p) + i)

/-- `pack(lit, W, H)` with `P = H // 8` (42_packer.md R160). -/
def pack (lit : Nat → Nat → Bool) (w h : Nat) : List Byte :=
  (List.range (w * (h / 8))).map (packByte lit (h / 8))

/-- `unpack(F, W, H)(x, r) = F[x * P + r // 8][r mod 8]` (42_packer.md R164). -/
def unpack (f : List Byte) (h : Nat) (x r : Nat) : Bool :=
  match f[x * (h / 8) + r / 8]? with
  | some b => b.getLsbD (r % 8)
  | none => false

/-! The fill. -/

/-- One action of the fill: read a sample, or write a byte. -/
inductive FillAct where
  | sample (j : Nat)
  | byte (k : Nat)
  deriving DecidableEq, Repr

/-- Whether all eight samples of byte `k` have been read. -/
def byteReady (L : Latched) (f : Fill) (k : Nat) : Bool :=
  (List.range 8).all fun i => (Cells.lookup (L.index (k / L.p) (8 * (k % L.p) + i)) f.read).isSome

/-- What the fill can do next: any sample not yet read, and any byte not yet written whose samples have all been read
(42_packer.md R162, 20_memory.md R62: each exactly once, the order unspecified). -/
def fillActs (L : Latched) (f : Fill) : List FillAct :=
  ((List.range L.samples).filter fun j => (Cells.lookup j f.read).isNone).map .sample
    ++ ((List.range L.n).filter fun k => !f.written.contains k && byteReady L f k).map .byte

/-- The action the schedule picks; without a schedule the first (notes/assumptions/9.md). -/
def pickAct (acts : List FillAct) (sched : List Nat) : Option FillAct :=
  match sched with
  | [] => acts[0]?
  | n :: _ => acts[n % acts.length]?

/-- Whether the sample read as lit (42_packer.md R163). -/
def fillLit (L : Latched) (f : Fill) (x r : Nat) : Bool := (Cells.lookup (L.index x r) f.read).getD false

/-- A sample is read: the value in pixel memory, or, where the host has written it during the operation, a free value
(20_memory.md R52, R63). A write after the read redraws it (`redrawSample`). -/
def readSample (L : Latched) (j : Nat) (s : State) : State :=
  if s.fill.raced.contains j then
    { s with
      fill := { s.fill with read := s.fill.read ++ [(j, truthy (Config.freeSample s.draws))] }
      draws := s.draws + 1
      sched := s.sched.tail }
  else
    { s with
      fill := { s.fill with read := s.fill.read ++ [(j, truthy (Memory.read16 s.pix (L.sampleAddr j)))] }
      sched := s.sched.tail }

/-- A byte is packed and written (42_packer.md R160, R162). -/
def writeByte (L : Latched) (k : Nat) (s : State) : State :=
  { s with
    packbuf := packWrite k (packByte (fillLit L s.fill) L.p k) s.packbuf
    fill := { s.fill with written := s.fill.written ++ [k] }
    sched := s.sched.tail }

/-- What the fill has read with the sample `j` replaced. -/
def Fill.reread (f : Fill) (j : Nat) (lit : Bool) : Fill :=
  { f with read := f.read.map fun e => if e.1 = j then (j, lit) else e }

/-- The host has written a sample that the running operation has read already: what was read for it is a free value all
the same (20_memory.md R63, 93_implementation_defined.md U5; notes/assumptions/10.md), and so is its bit wherever it has
gone: into its PACKBUF byte if that is written, and into the burst if that is outstanding. -/
def redrawSample (L : Latched) (j : Nat) (s : State) : State :=
  let f := s.fill.reread j (truthy (Config.freeSample s.draws))
  let k := L.byteOfSample j
  let m := if f.written.contains k then packWrite k (packByte (fillLit L f) L.p k) s.packbuf else s.packbuf
  { s with
    fill := f
    draws := s.draws + 1
    packbuf := m
    port := s.port.map fun r =>
      match r.phase with
      | .command => r
      | .data => { r with bytes := (packRead m (s.draws + 1) 0 L.n).1 } }

/-- After an action: the fill goes on, or, with nothing left to do, ends as `done` says. -/
def fillNext (done : State → State) (L : Latched) (s : State) : State :=
  if (fillActs L s.fill).isEmpty then done s else s

/-- One step of the fill (42_packer.md R162). A read that is not admitted raises MemError (20_memory.md R54), and a
read that is never answered leaves the engine where it is (70_reset_and_hazards.md R266). -/
def fillTurn (done : State → State) (L : Latched) (s : State) : State :=
  match pickAct (fillActs L s.fill) s.sched with
  | some (.sample j) =>
    match pixAnswer s.cfg.pixMap (L.sampleAddr j) with
    | .admitted => fillNext done L (readSample L j s)
    | .denied => raise (.mem (L.sampleAddr j)) s
    | .silent => s
  | some (.byte k) => fillNext done L (writeByte L k s)
  | none => done s

/-- PACK (42_packer.md R161). -/
def execPack (s : State) : Host.Outcome State Fault Refusal :=
  opTurn .pack 0x00000003#32 s fun pc L =>
    match pc with
    | .check => .next (checked (bufferError s.cfg L) (fun s => { s with pc := .fill }) s)
    | .fill => .next (fillTurn (endOp none) L s)
    | .idle => .fault .noStep
    | .lazyContrast => .fault .noStep
    | .tx _ => .fault .noStep
    | .burst => .fault .noStep

end Sys2Proof.Machine
end

