-- ==== Sys2Proof/Machine/Sequencer.lean ====
section
/-! DEFINITION. The Command Sequencer: INIT (40_sequencer.md). -/

namespace Sys2Proof.Machine

/-- The checks of INIT, in order (40_sequencer.md R111). -/
def initError (s : State) (L : Latched) : Option OpError :=
  if s.dstate = .on ∨ s.dstate = .blanked then some (.state .initState)
  else if L.supported s.cfg = false then some (.config .geometry)
  else if 359 < L.orient.toNat then some (.config .orientRange)
  else none

/-- INIT entry (40_sequencer.md R112). -/
def initEntry (s : State) : State := { s with dstate := .initializing, pc := .lazyContrast }

/-- INIT step 1, the lazy default contrast, one indivisible step (40_sequencer.md R113, 20_memory.md R66): it writes
the register and the latched copy together. -/
def initContrast (L : Latched) (s : State) : State :=
  if L.contrast = 0#32 then
    { s with
      contrast := L.defaultContrast
      latched := some { L with contrast := L.defaultContrast }
      pc := .tx 1 }
  else { s with pc := .tx 1 }

/-- INIT (40_sequencer.md R110). -/
def execInit (s : State) : Host.Outcome State Fault Refusal :=
  opTurn .init 0x00000001#32 s fun pc L =>
    match pc with
    | .check => .next (checked (initError s L) initEntry s)
    | .lazyContrast => .next (initContrast L s)
    | .tx k => txTurn (initSlots L) k s
    | .idle => .fault .noStep
    | .fill => .fault .noStep
    | .burst => .fault .noStep

end Sys2Proof.Machine
end

