-- ==== Sys2Proof/Machine/Window.lean ====
section
/-! DEFINITION. The Addressing Window Manager: SET_WINDOW (41_window.md). -/

namespace Sys2Proof.Machine

/-- The check of SET_WINDOW (41_window.md R141). -/
def windowError (s : State) (L : Latched) : Option OpError :=
  if L.supported s.cfg = false then some (.config .geometry) else none

/-- SET_WINDOW (41_window.md R140). -/
def execSetWindow (s : State) : Host.Outcome State Fault Refusal :=
  opTurn .setWindow 0x00000002#32 s fun pc L =>
    match pc with
    | .check => .next (checked (windowError s L) (fun s => { s with pc := .tx 1 }) s)
    | .tx k => txTurn (windowSlots L) k s
    | .idle => .fault .noStep
    | .lazyContrast => .fault .noStep
    | .fill => .fault .noStep
    | .burst => .fault .noStep

end Sys2Proof.Machine
end

