-- ==== Sys2Proof/Machine/WireRows.lean ====
section
/-! DEFINITION. The 27 WIRE rows of the opcode table (30_encoding.md R95): each is one Command-phase transaction that
carries exactly the byte the profile gives the name (R88), sent by the engine as one step of its operation. -/

namespace Sys2Proof.Machine

/-- WIRE.DISPLAY_OFF (§4.1 step 2; §4.5). -/
def execWireDisplayOff (s : State) : Host.Outcome State Fault Refusal := .next (emit .displayOff s)

/-- WIRE.SET_CLOCK_DIV (§4.1 step 3). -/
def execWireSetClockDiv (s : State) : Host.Outcome State Fault Refusal := .next (emit .setClockDiv s)

/-- WIRE.CLOCK_DIV_ARG (§4.1 step 3). -/
def execWireClockDivArg (s : State) : Host.Outcome State Fault Refusal := .next (emit .clockDivArg s)

/-- WIRE.SET_MUX (§4.1 step 4). -/
def execWireSetMux (s : State) : Host.Outcome State Fault Refusal := .next (emit .setMux s)

/-- WIRE.SET_DISPLAY_OFFSET (§4.1 step 5). -/
def execWireSetDisplayOffset (s : State) : Host.Outcome State Fault Refusal := .next (emit .setDisplayOffset s)

/-- WIRE.SET_START_LINE (§4.1 step 6). -/
def execWireSetStartLine (s : State) : Host.Outcome State Fault Refusal := .next (emit .setStartLine s)

/-- WIRE.SET_CHARGE_PUMP (§4.1 step 7). -/
def execWireSetChargePump (s : State) : Host.Outcome State Fault Refusal := .next (emit .setChargePump s)

/-- WIRE.CHARGE_PUMP_ON_ARG (§4.1 step 7). -/
def execWireChargePumpOnArg (s : State) : Host.Outcome State Fault Refusal := .next (emit .chargePumpOnArg s)

/-- WIRE.SEG_REMAP_NORMAL (§4.1 step 8). -/
def execWireSegRemapNormal (s : State) : Host.Outcome State Fault Refusal := .next (emit .segRemapNormal s)

/-- WIRE.SEG_REMAP_MIRRORED (§4.1 step 8). -/
def execWireSegRemapMirrored (s : State) : Host.Outcome State Fault Refusal := .next (emit .segRemapMirrored s)

/-- WIRE.COM_SCAN_NORMAL (§4.1 step 9). -/
def execWireComScanNormal (s : State) : Host.Outcome State Fault Refusal := .next (emit .comScanNormal s)

/-- WIRE.COM_SCAN_MIRRORED (§4.1 step 9). -/
def execWireComScanMirrored (s : State) : Host.Outcome State Fault Refusal := .next (emit .comScanMirrored s)

/-- WIRE.SET_COM_PINS (§4.1 step 10). -/
def execWireSetComPins (s : State) : Host.Outcome State Fault Refusal := .next (emit .setComPins s)

/-- WIRE.COM_PINS_ALT_ARG (§4.1 step 10). -/
def execWireComPinsAltArg (s : State) : Host.Outcome State Fault Refusal := .next (emit .comPinsAltArg s)

/-- WIRE.COM_PINS_SEQ_ARG (§4.1 step 10). -/
def execWireComPinsSeqArg (s : State) : Host.Outcome State Fault Refusal := .next (emit .comPinsSeqArg s)

/-- WIRE.SET_MEM_MODE (§4.1 step 11). -/
def execWireSetMemMode (s : State) : Host.Outcome State Fault Refusal := .next (emit .setMemMode s)

/-- WIRE.MEM_MODE_VERTICAL_ARG (§4.1 step 11). -/
def execWireMemModeVerticalArg (s : State) : Host.Outcome State Fault Refusal := .next (emit .memModeVerticalArg s)

/-- WIRE.SET_PRECHARGE (§4.1 step 12). -/
def execWireSetPrecharge (s : State) : Host.Outcome State Fault Refusal := .next (emit .setPrecharge s)

/-- WIRE.PRECHARGE_ARG (§4.1 step 12). -/
def execWirePrechargeArg (s : State) : Host.Outcome State Fault Refusal := .next (emit .prechargeArg s)

/-- WIRE.SET_VCOMH (§4.1 step 13). -/
def execWireSetVcomh (s : State) : Host.Outcome State Fault Refusal := .next (emit .setVcomh s)

/-- WIRE.VCOMH_ARG (§4.1 step 13). -/
def execWireVcomhArg (s : State) : Host.Outcome State Fault Refusal := .next (emit .vcomhArg s)

/-- WIRE.ENTIRE_DISPLAY_RESUME (§4.1 step 14). -/
def execWireEntireDisplayResume (s : State) : Host.Outcome State Fault Refusal := .next (emit .entireDisplayResume s)

/-- WIRE.NORMAL_DISPLAY (§4.1 step 15). -/
def execWireNormalDisplay (s : State) : Host.Outcome State Fault Refusal := .next (emit .normalDisplay s)

/-- WIRE.DISPLAY_ON (§4.1 step 16; §4.5). -/
def execWireDisplayOn (s : State) : Host.Outcome State Fault Refusal := .next (emit .displayOn s)

/-- WIRE.SET_CONTRAST_CMD (§4.5). -/
def execWireSetContrastCmd (s : State) : Host.Outcome State Fault Refusal := .next (emit .setContrastCmd s)

/-- WIRE.SET_COLUMN_RANGE (§4.2). -/
def execWireSetColumnRange (s : State) : Host.Outcome State Fault Refusal := .next (emit .setColumnRange s)

/-- WIRE.SET_PAGE_RANGE (§4.2). -/
def execWireSetPageRange (s : State) : Host.Outcome State Fault Refusal := .next (emit .setPageRange s)

end Sys2Proof.Machine
end

