-- ==== Sys2Proof/Machine/WritePath.lean ====
section
/-! DEFINITION. The write path: WRITE_FRAME, and its Data transaction, the row DATA_BURST (43_write_path.md). -/

namespace Sys2Proof.Machine

/-- The send phase: one Data transaction of `PACKBUF[0 .. N)` in ascending order (43_write_path.md R181, R182,
30_encoding.md R90). -/
def sendBurst (L : Latched) (s : State) : State :=
  let r := packRead s.packbuf s.draws 0 L.n
  transact .data r.1 { s with draws := r.2 }

/-- WRITE_FRAME (43_write_path.md R180). -/
def execWriteFrame (s : State) : Host.Outcome State Fault Refusal :=
  opTurn .writeFrame 0x00000004#32 s fun pc L =>
    match pc with
    | .check => .next (checked (bufferError s.cfg L) (fun s => { s with pc := .fill }) s)
    | .fill => .next (fillTurn (fun s => { s with pc := .burst }) L s)
    | .burst => .next (sendBurst L s)
    | .idle => .fault .noStep
    | .lazyContrast => .fault .noStep
    | .tx _ => .fault .noStep

/-- DATA_BURST (30_encoding.md R90). Its length is that of the latched geometry, so without latched operands there is
no burst (notes/assumptions/16.md). -/
def execDataBurst (s : State) : Host.Outcome State Fault Refusal :=
  match s.latched with
  | some L => .next (sendBurst L s)
  | none => .fault .noStep

end Sys2Proof.Machine
end

