-- ==== Sys2Proof/Machine/Dispatch.lean ====
section
/-! DEFINITION. One arm for every instruction: the meaning the engine executes. -/

namespace Sys2Proof.Machine

def exec (i : Instr) (s : State) : Host.Outcome State Fault Refusal :=
  match i with
  | .init => Sys2Proof.Machine.execInit s
  | .setWindow => Sys2Proof.Machine.execSetWindow s
  | .pack => Sys2Proof.Machine.execPack s
  | .writeFrame => Sys2Proof.Machine.execWriteFrame s
  | .setContrast => Sys2Proof.Machine.execSetContrast s
  | .setBlank => Sys2Proof.Machine.execSetBlank s
  | .illegal rsvd opcode => Sys2Proof.Machine.execIllegal rsvd opcode s
  | .wireDisplayOff => Sys2Proof.Machine.execWireDisplayOff s
  | .wireSetClockDiv => Sys2Proof.Machine.execWireSetClockDiv s
  | .wireClockDivArg => Sys2Proof.Machine.execWireClockDivArg s
  | .wireSetMux => Sys2Proof.Machine.execWireSetMux s
  | .wireSetDisplayOffset => Sys2Proof.Machine.execWireSetDisplayOffset s
  | .wireSetStartLine => Sys2Proof.Machine.execWireSetStartLine s
  | .wireSetChargePump => Sys2Proof.Machine.execWireSetChargePump s
  | .wireChargePumpOnArg => Sys2Proof.Machine.execWireChargePumpOnArg s
  | .wireSegRemapNormal => Sys2Proof.Machine.execWireSegRemapNormal s
  | .wireSegRemapMirrored => Sys2Proof.Machine.execWireSegRemapMirrored s
  | .wireComScanNormal => Sys2Proof.Machine.execWireComScanNormal s
  | .wireComScanMirrored => Sys2Proof.Machine.execWireComScanMirrored s
  | .wireSetComPins => Sys2Proof.Machine.execWireSetComPins s
  | .wireComPinsAltArg => Sys2Proof.Machine.execWireComPinsAltArg s
  | .wireComPinsSeqArg => Sys2Proof.Machine.execWireComPinsSeqArg s
  | .wireSetMemMode => Sys2Proof.Machine.execWireSetMemMode s
  | .wireMemModeVerticalArg => Sys2Proof.Machine.execWireMemModeVerticalArg s
  | .wireSetPrecharge => Sys2Proof.Machine.execWireSetPrecharge s
  | .wirePrechargeArg => Sys2Proof.Machine.execWirePrechargeArg s
  | .wireSetVcomh => Sys2Proof.Machine.execWireSetVcomh s
  | .wireVcomhArg => Sys2Proof.Machine.execWireVcomhArg s
  | .wireEntireDisplayResume => Sys2Proof.Machine.execWireEntireDisplayResume s
  | .wireNormalDisplay => Sys2Proof.Machine.execWireNormalDisplay s
  | .wireDisplayOn => Sys2Proof.Machine.execWireDisplayOn s
  | .wireSetContrastCmd => Sys2Proof.Machine.execWireSetContrastCmd s
  | .wireSetColumnRange => Sys2Proof.Machine.execWireSetColumnRange s
  | .wireSetPageRange => Sys2Proof.Machine.execWireSetPageRange s
  | .dataBurst => Sys2Proof.Machine.execDataBurst s

end Sys2Proof.Machine
end

