-- ==== Sys2Proof/Machine/Engine.lean ====
section
/-! DEFINITION. The engine's turn: which instruction it executes next, and where an instruction stands so that it is
that one. -/

namespace Sys2Proof.Machine

/-- The instruction the engine executes next.
At a transaction that carries a named constant it is that WIRE row, at the burst it is DATA_BURST, and at every other
step (the check step, which decodes the latched CMD word by 60_exceptions.md R227; INIT step 1; a computed argument
byte; the fill) the operation itself (notes/assumptions/13.md). -/
def fetch (s : State) : Option Instr :=
  match s.latched with
  | none => none
  | some L =>
    match s.pc with
    | .tx k =>
      match slotAt (slots (decodeCmd L.cmd) L) k with
      | some (.row n) => some (.ofWire n)
      | some (.arg _) => some (decodeCmd L.cmd)
      | none => some (decodeCmd L.cmd)
    | .burst => some .dataBurst
    | .idle => some (decodeCmd L.cmd)
    | .check => some (decodeCmd L.cmd)
    | .lazyContrast => some (decodeCmd L.cmd)
    | .fill => some (decodeCmd L.cmd)

/-- The engine's turn: while BUSY = 1 it executes its next instruction, and otherwise it waits for the host
(10_state.md R31, 70_reset_and_hazards.md R251). -/
def engineTurn (s : State) : Host.Outcome State Fault Refusal :=
  if s.busy then
    match fetch s with
    | some i => exec i s
    | none => .fault .noStep
  else .next s

/-! Placing an instruction where the next step fetches it (for `withFetchWord`; notes/assumptions/5.md). -/

/-- A transaction that carries a constant: the CMD word of an operation that sends it, its index `k`, and a height and
an orientation under which it is sent (40_sequencer.md R114, 41_window.md R142, 44_contrast_blank.md R200). -/
def wireSite (n : WireName) : Word × Nat × BitVec 16 × BitVec 9 :=
  match n with
  | .displayOff => (1#32, 1, 64#16, 0#9)
  | .setClockDiv => (1#32, 2, 64#16, 0#9)
  | .clockDivArg => (1#32, 3, 64#16, 0#9)
  | .setMux => (1#32, 4, 64#16, 0#9)
  | .setDisplayOffset => (1#32, 6, 64#16, 0#9)
  | .setStartLine => (1#32, 8, 64#16, 0#9)
  | .setChargePump => (1#32, 9, 64#16, 0#9)
  | .chargePumpOnArg => (1#32, 10, 64#16, 0#9)
  | .segRemapNormal => (1#32, 11, 64#16, 0#9)
  | .segRemapMirrored => (1#32, 11, 64#16, 180#9)
  | .comScanNormal => (1#32, 12, 64#16, 0#9)
  | .comScanMirrored => (1#32, 12, 64#16, 180#9)
  | .setComPins => (1#32, 13, 64#16, 0#9)
  | .comPinsAltArg => (1#32, 14, 64#16, 0#9)
  | .comPinsSeqArg => (1#32, 14, 32#16, 0#9)
  | .setMemMode => (1#32, 15, 64#16, 0#9)
  | .memModeVerticalArg => (1#32, 16, 64#16, 0#9)
  | .setPrecharge => (1#32, 17, 64#16, 0#9)
  | .prechargeArg => (1#32, 18, 64#16, 0#9)
  | .setVcomh => (1#32, 19, 64#16, 0#9)
  | .vcomhArg => (1#32, 20, 64#16, 0#9)
  | .entireDisplayResume => (1#32, 21, 64#16, 0#9)
  | .normalDisplay => (1#32, 22, 64#16, 0#9)
  | .displayOn => (1#32, 23, 64#16, 0#9)
  | .setContrastCmd => (5#32, 1, 64#16, 0#9)
  | .setColumnRange => (2#32, 1, 64#16, 0#9)
  | .setPageRange => (2#32, 4, 64#16, 0#9)

/-- The engine at a transaction that carries the constant `n`, and its turn next. -/
def placeWire (n : WireName) (s : State) : State :=
  { s with
    script := .engine :: s.script
    busy := true
    pc := .tx (wireSite n).2.1
    latched := some { latch (wireSite n).1 s with height := (wireSite n).2.2.1, orient := (wireSite n).2.2.2 } }

/-- The engine at the burst of a WRITE_FRAME of the smallest frame, 8×16, and its turn next. -/
def placeBurst (s : State) : State :=
  { s with
    script := .engine :: s.script
    busy := true
    pc := .burst
    latched := some { latch 4#32 s with width := 8#16, height := 16#16 } }

/-- The host's CMD write of `cmd` next, at an idle engine that takes it. -/
def placeCmd (cmd : Word) (s : State) : State :=
  { s with script := .wr 32 s.cfg.regBase cmd :: s.script, busy := false, fault := false }

end Sys2Proof.Machine
end

