-- ==== Sys2Proof/Machine/HostPort.lean ====
section
/-! DEFINITION. The host's accesses: register reads and writes through the window, writes to pixel memory, and the
host-side assembly of 30_encoding.md R91 and R92. -/

namespace Sys2Proof.Machine

/-- What stands at an offset of the register window (10_state.md R20): a register, or the PACKBUF word whose first byte
is byte `k`. -/
inductive Reg where
  | cmd
  | arg
  | status
  | errcode
  | width
  | height
  | orient
  | contrast
  | pixbase
  | packbuf (k : Nat)
  deriving DecidableEq, Repr

/-- The register an access reaches; none for an access of another width, at a misaligned or reserved offset, or at
0x800 or beyond, each of which is a protocol violation (10_state.md R21, 60_exceptions.md R231 items 1 and 2). -/
def regAt (width off : Nat) : Option Reg :=
  if width ≠ 32 ∨ off % 4 ≠ 0 then none
  else if off = 0x000 then some .cmd
  else if off = 0x004 then some .arg
  else if off = 0x008 then some .status
  else if off = 0x00C then some .errcode
  else if off = 0x010 then some .width
  else if off = 0x014 then some .height
  else if off = 0x018 then some .orient
  else if off = 0x01C then some .contrast
  else if off = 0x020 then some .pixbase
  else if 0x400 ≤ off ∧ off < 0x800 then some (.packbuf (off - 0x400))
  else none

/-- The PACKBUF word whose first byte is byte `k`, little-endian (10_state.md R35), and how many free values have been
drawn after it. -/
def packWord (k : Nat) (s : State) : Word × Nat :=
  let r := packRead (hostPackbuf s) s.draws k 4
  (wordOfBytes (r.1[0]?.getD 0#8) (r.1[1]?.getD 0#8) (r.1[2]?.getD 0#8) (r.1[3]?.getD 0#8), r.2)

/-- What a read of a register returns, and how many free values have been drawn after it: CMD reads 0 (10_state.md
R22), reserved bits read 0 (R21). -/
def readReg (r : Reg) (s : State) : Word × Nat :=
  match r with
  | .cmd => (0#32, s.draws)
  | .arg => (s.arg, s.draws)
  | .status => (statusWord s, s.draws)
  | .errcode => (s.errcode, s.draws)
  | .width => (s.width.setWidth 32, s.draws)
  | .height => (s.height.setWidth 32, s.draws)
  | .orient => (s.orient.setWidth 32, s.draws)
  | .contrast => (s.contrast, s.draws)
  | .pixbase => (s.pixbase, s.draws)
  | .packbuf k => packWord k s

/-- A host read at an offset of the window; it has no side effect on FBPACK (20_memory.md R57) unless it is a protocol
violation. -/
def hostRead (width off : Nat) (s : State) : State :=
  match regAt width off with
  | none => faultP s
  | some r => { s with hostReads := s.hostReads ++ [(off, (readReg r s).1)], draws := (readReg r s).2 }

/-- Whether a write to a register is a protocol violation: while BUSY = 1 every one (10_state.md R39); a read-only
register; a reserved bit; WIDTH, HEIGHT or ORIENT while DSTATE ≠ Uninitialized (R21, R39, 60_exceptions.md R231 items
3 to 6). -/
def writeViolates (r : Reg) (v : Word) (s : State) : Bool :=
  s.busy ||
  match r with
  | .cmd => false
  | .arg => false
  | .status => true
  | .errcode => true
  | .width => truthy (v.extractLsb' 16 16) || decide (s.dstate ≠ .uninitialized)
  | .height => truthy (v.extractLsb' 16 16) || decide (s.dstate ≠ .uninitialized)
  | .orient => truthy (v.extractLsb' 9 23) || decide (s.dstate ≠ .uninitialized)
  | .contrast => false
  | .pixbase => false
  | .packbuf _ => true

/-- A register write that is no violation: CMD starts an operation (10_state.md R22), and every other write only stores
its value (20_memory.md R57). -/
def storeReg (r : Reg) (v : Word) (s : State) : Host.Outcome State Fault Refusal :=
  match r with
  | .cmd => exec (decodeCmd v) s
  | .arg => .next { s with arg := v }
  | .status => .next s
  | .errcode => .next s
  | .width => .next { s with width := v.extractLsb' 0 16 }
  | .height => .next { s with height := v.extractLsb' 0 16 }
  | .orient => .next { s with orient := v.extractLsb' 0 9 }
  | .contrast => .next { s with contrast := v }
  | .pixbase => .next { s with pixbase := v }
  | .packbuf _ => .next s

/-- A host write at an offset of the window: ignored while FAULT = 1 (10_state.md R21, 60_exceptions.md R230), `fault P`
where it is a violation, and otherwise the write. -/
def hostWrite (width off : Nat) (v : Word) (s : State) : Host.Outcome State Fault Refusal :=
  if s.fault then .next s
  else
    match regAt width off with
    | none => .next (faultP s)
    | some r => if writeViolates r v s then .next (faultP s) else storeReg r v s

/-- An access at an address below REG_BASE is not one to FBPACK (20_memory.md R50, R58; notes/assumptions/24.md). -/
def windowOffset (c : Config) (addr : Nat) : Option Nat := if c.regBase ≤ addr then some (addr - c.regBase) else none

/-- A host read at an address. -/
def hostReadAt (width addr : Nat) (s : State) : State :=
  match windowOffset s.cfg addr with
  | some off => hostRead width off s
  | none => s

/-- A host write at an address. -/
def hostWriteAt (width addr : Nat) (v : Word) (s : State) : Host.Outcome State Fault Refusal :=
  match windowOffset s.cfg addr with
  | some off => hostWrite width off v s
  | none => .next s

/-- The host temporary `t`: the value read last (30_encoding.md R91; notes/assumptions/19.md). -/
def temp (s : State) : Word :=
  match s.hostReads.getLast? with
  | some r => r.2
  | none => 0#32

/-- The sample a host write to pixel memory races with, and the operands of the operation that reads it: one of the
PixelBuffer, while PACK or WRITE_FRAME is running (20_memory.md R63). -/
def racedSample (a : Nat) (s : State) : Option (Latched × Nat) :=
  match s.latched with
  | none => none
  | some L =>
    if s.busy = true ∧ (decodeCmd L.cmd = .pack ∨ decodeCmd L.cmd = .writeFrame)
        ∧ L.pixbase.toNat ≤ a ∧ a < L.pixbase.toNat + 2 * L.samples then
      some (L, (a - L.pixbase.toNat) / 2)
    else none

/-- A race on sample `j`: its value is a free value, whether it is still to be read or has been read already
(20_memory.md R63; notes/assumptions/10.md). -/
def raceSample (L : Latched) (j : Nat) (s : State) : State :=
  match Cells.lookup j s.fill.read with
  | none => { s with fill := { s.fill with raced := s.fill.raced ++ [j] } }
  | some _ => redrawSample L j s

/-- The host writes one byte of pixel memory by its own means (20_memory.md R50; notes/assumptions/22.md). -/
def hostPixWrite (a : Word) (b : Byte) (s : State) : State :=
  match racedSample a.toNat s with
  | some (L, j) => raceSample L j { s with pix := Memory.write s.pix a.toNat b }
  | none => { s with pix := Memory.write s.pix a.toNat b }

/-! Host assembly (30_encoding.md R91, R92), as lists of moves; `base` is REG_BASE. -/

/-- `wr NAME, imm32`, by NAME's offset. -/
def asmWr (base off : Nat) (v : Word) : List Move := [.wr 32 (base + off) v]

/-- `rd NAME -> t`, by NAME's offset. -/
def asmRd (base off : Nat) : List Move := [.rd 32 (base + off)]

/-- `op MNEMONIC`: a write of the operation's CMD word; a row that is no operation has none. -/
def asmOp (base : Nat) (i : Instr) : List Move :=
  match encodeCmd i with
  | some v => asmWr base 0x000 v
  | none => []

/-- `wait`. -/
def asmWait : List Move := [.wait]

/-- `init`. -/
def asmInit (base : Nat) : List Move := asmOp base .init ++ asmWait

/-- `setwin`. -/
def asmSetwin (base : Nat) : List Move := asmOp base .setWindow ++ asmWait

/-- `pack`. -/
def asmPack (base : Nat) : List Move := asmOp base .pack ++ asmWait

/-- `wframe`. -/
def asmWframe (base : Nat) : List Move := asmOp base .writeFrame ++ asmWait

/-- `contrast v`. -/
def asmContrast (base : Nat) (v : Word) : List Move := asmWr base 0x004 v ++ asmOp base .setContrast ++ asmWait

/-- `contrast_reg`: the value just read is written to ARG. -/
def asmContrastReg (base : Nat) : List Move :=
  asmRd base 0x01C ++ [.wrTemp 32 (base + 0x004)] ++ asmOp base .setContrast ++ asmWait

/-- `blank v`. -/
def asmBlank (base : Nat) (v : Word) : List Move := asmWr base 0x004 v ++ asmOp base .setBlank ++ asmWait

/-- `refresh`. -/
def asmRefresh (base : Nat) : List Move := asmSetwin base ++ asmWframe base

/-- `config w, h, o, c, b`. -/
def asmConfig (base : Nat) (w h o c b : Word) : List Move :=
  asmWr base 0x010 w ++ asmWr base 0x014 h ++ asmWr base 0x018 o ++ asmWr base 0x01C c ++ asmWr base 0x020 b

end Sys2Proof.Machine
end

