-- ==== Sys2Proof/Machine/Step.lean ====
section
/-! DEFINITION. One step of the whole: one move of one agent. -/

namespace Sys2Proof.Machine

/-- One step: the next move of the script, and, where the script is at its end, the engine's turn
(notes/assumptions/5.md, 6.md). A `wait` stays until BUSY reads 0 and lets the engine step (30_encoding.md R91). -/
def step (s : State) : Host.Outcome State Fault Refusal :=
  match s.script with
  | [] => engineTurn s
  | .engine :: rest => engineTurn { s with script := rest }
  | .wait :: rest =>
    if s.busy then engineTurn s
    else .next (hostReadAt 32 (s.cfg.regBase + 0x008) { s with script := rest })
  | .rd width addr :: rest => .next (hostReadAt width addr { s with script := rest })
  | .wr width addr v :: rest => hostWriteAt width addr v { s with script := rest }
  | .wrTemp width addr :: rest => hostWriteAt width addr (temp s) { s with script := rest }
  | .pixWrite a b :: rest => .next (hostPixWrite a b { s with script := rest })
  | .answer a :: rest => .next { s with script := rest, answers := s.answers ++ [a] }
  | .reset delivered :: rest => .next (resetDevice delivered { s with script := rest })

/-- `s` with the instruction whose bits are `w` where the next step fetches it (notes/assumptions/5.md): a CMD word is
the host's next write to CMD, a WIRE row is the transaction the engine is at, and DATA_BURST is the burst it is at.
Bits that are no instruction change nothing. -/
def State.withFetchWord (s : State) (nbits w : Nat) : State :=
  match decodeTableWordWith s.cfg.wire nbits w with
  | none => s
  | some i =>
    match i.wireName, encodeCmd i with
    | some n, _ => placeWire n s
    | none, some cmd => placeCmd cmd s
    | none, none => placeBurst s

/-- `k` steps, stopping at the first fault or refusal. -/
def run : Nat → State → Host.Outcome State Fault Refusal
  | 0, s => .next s
  | k + 1, s =>
    match step s with
    | .next t => run k t
    | .fault r => .fault r
    | .refused r => .refused r

end Sys2Proof.Machine
end

