-- ==== Sys2Proof/Safety.lean ====
section
/-! DEFINITION. The terms claims are stated in: what it is for an operation to be at a step, the invariants, and when a
final state is good. -/

namespace Sys2Proof.Machine

/-- A good final state: "A model treats a state with FAULT = 1 as faulted: never a good final state"
(60_exceptions.md R230). -/
def Good (s : State) : Prop := s.fault = false

/-- Operation `i` is running with the latched operands `L`, and its next step is `pc`. -/
def Running (s : State) (i : Instr) (L : Latched) (pc : Pc) : Prop :=
  s.busy = true ∧ s.latched = some L ∧ decodeCmd L.cmd = i ∧ s.pc = pc

/-- Whether `pc` is a step of the operation `op` (10_state.md R31). -/
def isStepOf (op : Instr) (L : Latched) (pc : Pc) : Prop :=
  match pc with
  | .idle => False
  | .check => True
  | .lazyContrast => op = .init
  | .tx k => 1 ≤ k ∧ k ≤ (slots op L).length
  | .fill => op = .pack ∨ op = .writeFrame
  | .burst => op = .writeFrame

/-- `s` after an operation has ended with the given RESULT, ERRCODE and error (60_exceptions.md R224).
The record of the error and the clearing of a fill's progress are the model's (notes/assumptions/18.md, 20.md). -/
def ended (r : Result) (code : Word) (e : Option OpError) (s : State) : State :=
  { s with result := r, errcode := code, lastError := e, pc := .idle, busy := false, fill := Fill.empty }

/-- `s` after a transaction has been answered, with `rest` the answers still to come (20_memory.md R60). -/
def sent (phase : Phase) (bytes : List Byte) (r : Response) (rest : List Answer) (s : State) : State :=
  { s with port := none, answers := rest, trace := s.trace ++ [⟨phase, bytes, r⟩] }

/-- The bytes of INIT's transactions `t1` to `t23`, as 40_sequencer.md R114 lists them. -/
def initBytes (w : Wire) (L : Latched) : List Byte :=
  [w.displayOff, w.setClockDiv, w.clockDivArg, w.setMux, BitVec.ofNat 8 (L.height.toNat - 1), w.setDisplayOffset, 0x00#8,
   w.setStartLine, w.setChargePump, w.chargePumpOnArg,
   if 180 ≤ L.orient.toNat then w.segRemapMirrored else w.segRemapNormal,
   if 180 ≤ L.orient.toNat then w.comScanMirrored else w.comScanNormal,
   w.setComPins, if L.height.toNat = 64 ∨ L.height.toNat = 48 then w.comPinsAltArg else w.comPinsSeqArg,
   w.setMemMode, w.memModeVerticalArg, w.setPrecharge, w.prechargeArg, w.setVcomh, w.vcomhArg,
   w.entireDisplayResume, w.normalDisplay, w.displayOn]

/-- The bytes of SET_WINDOW's transactions `t1` to `t6`, as 41_window.md R142 to R144 list them. -/
def windowBytes (w : Wire) (width height : Nat) : List Byte :=
  if width = 64 ∧ height = 48 then [w.setColumnRange, 0x20#8, 0x5F#8, w.setPageRange, 0x00#8, 0x05#8]
  else [w.setColumnRange, 0x00#8, BitVec.ofNat 8 (width - 1), w.setPageRange, 0x00#8, BitVec.ofNat 8 (height / 8 - 1)]

/-- The trace entries of Command transactions that each carry one byte and returned ok. -/
def okCommands (bytes : List Byte) : List Transaction := bytes.map fun b => ⟨.command, [b], .ok⟩

/-- Control: BUSY = 1 exactly while an operation is at one of its steps, with its operands latched; while BUSY = 0 the
step index is idle and no fill is under way; a request is outstanding only at a transaction step or at the burst
(10_state.md R31, R36, R40). -/
def ControlInv (s : State) : Prop :=
  (s.busy = true → ∃ L, s.latched = some L ∧ isStepOf (decodeCmd L.cmd) L s.pc) ∧
  (s.busy = false → s.pc = .idle ∧ s.fill = Fill.empty) ∧
  (∀ r, s.port = some r → (∃ k, s.pc = .tx k) ∨ s.pc = .burst)

/-- The outstanding request is the one of the engine's step: the Command transaction of the slot at `pc`, or the burst
(10_state.md R36). -/
def PortInv (s : State) : Prop :=
  ∀ r, s.port = some r → ∃ L, s.latched = some L ∧ s.busy = true ∧
    ((∃ k slot, s.pc = .tx k ∧ slotAt (slots (decodeCmd L.cmd) L) k = some slot ∧
        r = ⟨.command, [slotByte s.cfg.wire slot]⟩) ∨
      (s.pc = .burst ∧ r.phase = .data ∧ r.bytes.length = L.n))

/-- Pixel memory and PACKBUF are in their canonical forms. -/
def MemoryInv (s : State) : Prop := Memory.wf s.pix ∧ Packbuf.wf s.packbuf

/-- While an operation runs, the latched operands are the registers: "Latching therefore changes no result"
(10_state.md R33). -/
def LatchInv (s : State) : Prop := s.busy = true → ∃ cmd, s.latched = some (latch cmd s)

/-- RESULT and ERRCODE are those of the error the last operation ended with (60_exceptions.md R220, R224). -/
def ResultInv (s : State) : Prop := s.result = resultOf s.lastError ∧ s.errcode = errcodeOf s.lastError

/-- An INIT past its check step has left DSTATE at Initializing (40_sequencer.md R112). -/
def DStateInv (s : State) : Prop :=
  ∀ L, s.busy = true → s.latched = some L → decodeCmd L.cmd = .init → s.pc ≠ .check → s.dstate = .initializing

/-- How many bytes of a transaction of `n` bytes were delivered (20_memory.md R60). -/
def delivered (n : Nat) (r : Response) : Nat :=
  match r with
  | .ok => n
  | .err _ d => d
  | .abandoned d => d

/-- A transaction FBPACK may have issued: one Command byte, or a Data burst of 1 to 1024 bytes, and no more delivered
than was sent (10_state.md R36, 20_memory.md R60, 30_encoding.md R88, R90). -/
def lawfulTransaction (t : Transaction) : Prop :=
  delivered t.bytes.length t.response ≤ t.bytes.length ∧
  match t.phase with
  | .command => t.bytes.length = 1
  | .data => 1 ≤ t.bytes.length ∧ t.bytes.length ≤ 1024

/-- Every transaction of the trace is lawful. -/
def TraceInv (s : State) : Prop := ∀ t ∈ s.trace, lawfulTransaction t

/-- The samples not yet read and the bytes not yet written: what is left of a fill (70_reset_and_hazards.md R266). -/
def fillLeft (L : Latched) (f : Fill) : Nat :=
  ((List.range L.samples).filter fun j => (Cells.lookup j f.read).isNone).length
    + ((List.range L.n).filter fun k => !f.written.contains k).length

/-- A fill under way: every sample has been read at most once and is one of the buffer's, every byte written is one of
the frame's with all its samples read, and PACKBUF holds that byte (42_packer.md R162). -/
def FillInv (L : Latched) (s : State) : Prop :=
  (s.fill.read.map Prod.fst).Nodup ∧ (∀ e ∈ s.fill.read, e.1 < L.samples) ∧
  s.fill.written.Nodup ∧
  ∀ k ∈ s.fill.written, k < L.n ∧ byteReady L s.fill k = true ∧
    Cells.lookup k s.packbuf = some (packByte (fillLit L s.fill) L.p k)

/-- PACK and WRITE_FRAME: at the check step nothing has been read or written, from the fill on the checks have passed and
the fill is in order, and at the burst every byte of the frame has been written (42_packer.md R162, 43_write_path.md
R181, 20_memory.md R62). -/
def FrameInv (s : State) : Prop :=
  s.cfg.geometry.wellFormed = true ∧
  ∀ L, s.busy = true → s.latched = some L → (decodeCmd L.cmd = .pack ∨ decodeCmd L.cmd = .writeFrame) →
    (s.pc = .check → s.fill.read = [] ∧ s.fill.written = []) ∧
    (s.pc = .fill ∨ s.pc = .burst → bufferError s.cfg L = none ∧ FillInv L s) ∧
    (s.pc = .burst → ∀ k, k < L.n → k ∈ s.fill.written)

/-- One action of the fill takes `s` to `u`: a sample not yet read is read, as pixel memory's value unless it was raced,
or a byte not yet written, with its samples all read, is packed and written (42_packer.md R162). -/
def FillAction (L : Latched) (s u : State) : Prop :=
  (∃ j b d, j < L.samples ∧ Cells.lookup j s.fill.read = none ∧
    u = { s with fill := { s.fill with read := s.fill.read ++ [(j, b)] }, draws := d, sched := s.sched.tail } ∧
    (j ∉ s.fill.raced → b = truthy (Memory.read16 s.pix (L.sampleAddr j)) ∧ d = s.draws)) ∨
  (∃ k, k < L.n ∧ k ∉ s.fill.written ∧ byteReady L s.fill k = true ∧
    u = { s with
      packbuf := packWrite k (packByte (fillLit L s.fill) L.p k) s.packbuf
      fill := { s.fill with written := s.fill.written ++ [k] }
      sched := s.sched.tail })

/-- The lit map of the PixelBuffer in pixel memory (20_memory.md R52). -/
def litMap (L : Latched) (m : List Host.Cell) (x r : Nat) : Bool :=
  truthy (Memory.read16 m (L.sampleAddr (L.index x r)))

/-- Pixel memory admits and answers every read of the buffer (20_memory.md R54, 70_reset_and_hazards.md R266). -/
def AllAdmitted (c : Config) (L : Latched) : Prop := ∀ j, j < L.samples → pixAnswer c.pixMap (L.sampleAddr j) = .admitted

end Sys2Proof.Machine
end

