-- ==== Sys2Proof/Certificates/Slice0/Obligations.lean ====
section
/-! DEFINITION. The statements for the provers. Each docstring names the rules of spec/ it formalises; where a clause
rests on a choice of the model, the log entry.
In all of them `ended` also records the error and clears a fill's progress, which is the model's (notes/assumptions/18.md,
20.md), and `min d n` is the delivered count of an answer cut to the bytes sent (notes/assumptions/8.md). -/

open Sys2Proof Sys2Proof.Machine

/-! Encoding. -/

/-- The words of 30_encoding.md R84 and R85 and some bytes of the table of R95 decode to their rows.
The bytes are those of the default profile (PRESUMED, notes/assumptions/2.md); 0x40 is the first row of two with that
value (notes/assumptions/17.md). -/
def Obligations.TableWordsDecodeToTheirRows : Prop :=
  decodeTableWord 32 0x00000001 = some .init ∧ decodeTableWord 32 0x00000002 = some .setWindow ∧
  decodeTableWord 32 0x00000003 = some .pack ∧ decodeTableWord 32 0x00000004 = some .writeFrame ∧
  decodeTableWord 32 0x00000005 = some .setContrast ∧ decodeTableWord 32 0x00000006 = some .setBlank ∧
  decodeTableWord 32 0x00000007 = some (.illegal 0#28 7#4) ∧ decodeTableWord 32 0x80000003 = some (.illegal 0x8000000#28 3#4) ∧
  decodeTableWord 8 0xAE = some .wireDisplayOff ∧ decodeTableWord 8 0xC8 = some .wireComScanMirrored ∧
  decodeTableWord 8 0x40 = some .wireSetStartLine ∧ decodeTableWord 8 0x21 = some .wireSetColumnRange ∧
  decodeTableWord 8 0x00 = none ∧ decodeTableWord 0 0 = some .dataBurst

/-- 30_encoding.md R93: each of the six words decodes to its operation and no other word does, and every other word, and
only such a word, is illegal with its own fields. -/
def Obligations.CmdWordsDecodeAsTheMapSays : Prop :=
  ∀ w : Word,
    (decodeCmd w = .init ↔ w = 0x00000001#32) ∧ (decodeCmd w = .setWindow ↔ w = 0x00000002#32) ∧
    (decodeCmd w = .pack ↔ w = 0x00000003#32) ∧ (decodeCmd w = .writeFrame ↔ w = 0x00000004#32) ∧
    (decodeCmd w = .setContrast ↔ w = 0x00000005#32) ∧ (decodeCmd w = .setBlank ↔ w = 0x00000006#32) ∧
    (∀ r o, decodeCmd w = .illegal r o ↔
      w.extractLsb' 4 28 = r ∧ w.extractLsb' 0 4 = o ∧ (r ≠ 0#28 ∨ o = 0#4 ∨ 7 ≤ o.toNat))

/-- Decode and encode agree for every well-formed instruction, under every profile.
A WIRE row decodes back where no row before it in the table shares its value (30_encoding.md R96, R89;
notes/assumptions/17.md); a data burst carries a frame of 1 to 1024 bytes. -/
def Obligations.EncodedInstructionsDecodeBack : Prop :=
  ∀ (w : Wire) (frame : List Byte) (i : Instr), i.wellFormed = true →
    (∀ n, i.wireName = some n → ∀ m ∈ wireNames.takeWhile (fun m => decide (m ≠ n)), w.get m ≠ w.get n) →
    (i = .dataBurst → 1 ≤ frame.length ∧ frame.length ≤ 1024) →
    decode w i.format (encode w frame i) = .ok i

/-- Every CMD word is the word of the well-formed instruction it decodes to: decoding loses no bit. -/
def Obligations.EveryCmdWordIsTheWordOfItsInstruction : Prop :=
  ∀ w : Word, (decodeCmd w).wellFormed = true ∧ encodeCmd (decodeCmd w) = some w

/-- 30_encoding.md R89: the bytes of any operation, parsed from its start, give back the transactions they came from,
command bytes and argument bytes told apart, under every profile in which no two command bytes share a value and the two
COM-pins arguments differ. -/
def Obligations.OperationBytesParseBack : Prop :=
  ∀ (w : Wire) (op : Instr) (L : Latched),
    (∀ m n, isArgument m = false → isArgument n = false → w.get m = w.get n → m = n) →
    w.comPinsAltArg ≠ w.comPinsSeqArg →
    parseWire w ((slots op L).map (slotByte w)) = .ok (slots op L)

/-! Steps. -/

/-- A step runs the decoded instruction.
A CMD write to an idle block without FAULT executes the instruction its word decodes to; while BUSY = 1 the engine's turn
(at the script's end, at an `engine` move, and while the host waits) executes the instruction fetched, which at the check
step is what the latched CMD word decodes to (60_exceptions.md R227; notes/assumptions/5.md, 6.md, 13.md, 14.md). -/
def Obligations.StepRunsTheDecodedInstruction : Prop :=
  ∀ (s : State) (i : Instr) (rest : List Move),
    (∀ w, s.script = .wr 32 s.cfg.regBase w :: rest → s.busy = false → s.fault = false → decodeCmd w = i →
      step s = exec i { s with script := rest }) ∧
    (s.busy = true → fetch s = some i →
      (s.script = [] → step s = exec i s) ∧
      (s.script = .engine :: rest → step s = exec i { s with script := rest }) ∧
      (s.script = .wait :: rest → step s = exec i s)) ∧
    (∀ L op, Running s op L .check → fetch s = some (decodeCmd L.cmd))

/-- At a transaction that carries a named constant, the operation's own step is the execution of that WIRE row, and at
the burst it is DATA_BURST: fetching the row (notes/assumptions/13.md) changes nothing. -/
def Obligations.OperationStepIsTheRowItSends : Prop :=
  ∀ (s : State) (op : Instr) (L : Latched),
    (∀ k n, Running s op L (.tx k) → slotAt (slots op L) k = some (.row n) → exec op s = exec (.ofWire n) s) ∧
    (Running s .writeFrame L .burst → exec .writeFrame s = exec .dataBurst s)

/-- 10_state.md R32, R33: a CMD write to an idle block without FAULT latches the word and the registers, sets BUSY, and
puts the step index at the check step, whatever the word; nothing else changes.
No sample is read and no byte written yet (R40). -/
def Obligations.CmdWriteLatchesAndStarts : Prop :=
  ∀ (s : State) (w : Word), s.busy = false → s.fault = false →
    hostWrite 32 0x000 w s = .next { s with
      latched := some ⟨w, s.arg, s.width, s.height, s.orient, s.contrast, s.pixbase⟩
      busy := true
      pc := .check
      fill := ⟨[], [], []⟩ } ∧
    hostWrite 32 0x000 w s = exec (decodeCmd w) s

/-! INIT. -/

/-- 40_sequencer.md R111, R112: the checks of INIT in their order, each with the error it raises and nothing else
changed, and the entry that sets DSTATE before step 1. -/
def Obligations.InitChecksInOrder : Prop :=
  ∀ (s : State) (L : Latched), Running s .init L .check →
    ((s.dstate = .on ∨ s.dstate = .blanked) →
      exec .init s = .next (ended .stateError 0#32 (some (.state .initState)) s)) ∧
    ((s.dstate = .uninitialized ∨ s.dstate = .initializing) →
      (supported s.cfg L.width.toNat L.height.toNat = false →
        exec .init s = .next (ended .configError 0#32 (some (.config .geometry)) s)) ∧
      (supported s.cfg L.width.toNat L.height.toNat = true → 359 < L.orient.toNat →
        exec .init s = .next (ended .configError 0#32 (some (.config .orientRange)) s)) ∧
      (supported s.cfg L.width.toNat L.height.toNat = true → L.orient.toNat ≤ 359 →
        exec .init s = .next { s with dstate := .initializing, pc := .lazyContrast }))

/-- 40_sequencer.md R113, 20_memory.md R66: INIT step 1, in one step and without a transaction, writes the default to
CONTRAST and its latched copy if CONTRAST is 0, and otherwise leaves it. -/
def Obligations.InitStoresTheDefaultContrastOnlyIfUnset : Prop :=
  ∀ (s : State) (L : Latched), Running s .init L .lazyContrast →
    (L.contrast ≠ 0#32 → exec .init s = .next { s with pc := .tx 1 }) ∧
    (L.contrast = 0#32 → L.height = 64#16 → exec .init s = .next { s with
      contrast := 0x000000CF#32, latched := some { L with contrast := 0x000000CF#32 }, pc := .tx 1 }) ∧
    (L.contrast = 0#32 → L.height ≠ 64#16 → exec .init s = .next { s with
      contrast := 0x0000008F#32, latched := some { L with contrast := 0x0000008F#32 }, pc := .tx 1 })

/-- 40_sequencer.md R114: the transactions of steps 2 to 16, `t1` to `t23`, in this order; each that returns ok moves to
the next, and the last sets DSTATE to On and ends the operation with RESULT = OK. -/
def Obligations.InitSendsItsTwentyThreeBytes : Prop :=
  ∀ (s : State) (L : Latched) (k : Nat) (b : Byte) (rest : List Answer),
    Running s .init L (.tx (k + 1)) → s.answers = .ok :: rest → (initBytes s.cfg.wire L)[k]? = some b →
    exec .init s = .next
      (if k = 22 then ended .ok 0#32 none { sent .command [b] .ok rest s with dstate := .on }
       else { sent .command [b] .ok rest s with pc := .tx (k + 2) })

/-- 40_sequencer.md R114, R116: INIT as a whole, from the CMD write: with every check passing and 23 answers ok it takes
26 steps, issues exactly the 23 bytes, stores the default contrast if it was unset, and ends On with RESULT = OK.
The step count is the model's (notes/assumptions/13.md). -/
def Obligations.InitRunsToOn : Prop :=
  ∀ (s : State) (rest : List Answer),
    s.script = [.wr 32 s.cfg.regBase 1#32] → s.busy = false → s.fault = false → s.port = none →
    (s.dstate = .uninitialized ∨ s.dstate = .initializing) →
    supported s.cfg s.width.toNat s.height.toNat = true → s.orient.toNat ≤ 359 →
    s.answers = List.replicate 23 .ok ++ rest →
    ∃ t, run 26 s = .next t ∧
      t.trace = s.trace ++ okCommands (initBytes s.cfg.wire (latch 1#32 s)) ∧
      t.contrast = (if s.contrast = 0#32 then (if s.height = 64#16 then 0xCF#32 else 0x8F#32) else s.contrast) ∧
      t.dstate = .on ∧ t.result = .ok ∧ t.errcode = 0#32 ∧ t.busy = false ∧ t.pc = .idle ∧ t.answers = rest ∧
      t.packbuf = s.packbuf ∧ t.pix = s.pix ∧ t.arg = s.arg ∧ t.width = s.width ∧ t.height = s.height ∧
      t.orient = s.orient ∧ t.pixbase = s.pixbase ∧ t.fault = false ∧ t.port = none

/-- 40_sequencer.md R115: INIT as a whole with `err(c)` at transaction `t_k`: the transactions `t_1` to `t_k` are issued
and no other, DSTATE is Initializing, CONTRAST keeps what step 1 wrote, RESULT is BUS_ERROR and ERRCODE is `c`.
The step count is the model's (notes/assumptions/13.md). -/
def Obligations.InitFailsAtTheFailedTransaction : Prop :=
  ∀ (s : State) (rest : List Answer) (k d : Nat) (c : Word) (b : Byte),
    s.script = [.wr 32 s.cfg.regBase 1#32] → s.busy = false → s.fault = false → s.port = none →
    (s.dstate = .uninitialized ∨ s.dstate = .initializing) →
    supported s.cfg s.width.toNat s.height.toNat = true → s.orient.toNat ≤ 359 →
    (initBytes s.cfg.wire (latch 1#32 s))[k]? = some b →
    s.answers = List.replicate k .ok ++ .err c d :: rest →
    ∃ t, run (k + 4) s = .next t ∧
      t.trace = s.trace ++ okCommands ((initBytes s.cfg.wire (latch 1#32 s)).take k)
        ++ [⟨.command, [b], .err c (min d 1)⟩] ∧
      t.contrast = (if s.contrast = 0#32 then (if s.height = 64#16 then 0xCF#32 else 0x8F#32) else s.contrast) ∧
      t.dstate = .initializing ∧ t.result = .busError ∧ t.errcode = c ∧ t.busy = false ∧ t.pc = .idle ∧
      t.answers = rest ∧ t.packbuf = s.packbuf ∧ t.port = none

/-! SET_WINDOW, SET_CONTRAST, SET_BLANK. -/

/-- 41_window.md R141 to R144: the check in any DSTATE, then the six transactions of the variant, the last of which ends
the operation with RESULT = OK. -/
def Obligations.WindowSendsItsSixBytes : Prop :=
  ∀ (s : State) (L : Latched),
    (Running s .setWindow L .check →
      (supported s.cfg L.width.toNat L.height.toNat = false →
        exec .setWindow s = .next (ended .configError 0#32 (some (.config .geometry)) s)) ∧
      (supported s.cfg L.width.toNat L.height.toNat = true → exec .setWindow s = .next { s with pc := .tx 1 })) ∧
    (∀ (k : Nat) (b : Byte) (rest : List Answer), Running s .setWindow L (.tx (k + 1)) → s.answers = .ok :: rest →
      (windowBytes s.cfg.wire L.width.toNat L.height.toNat)[k]? = some b →
      exec .setWindow s = .next
        (if k = 5 then ended .ok 0#32 none (sent .command [b] .ok rest s)
         else { sent .command [b] .ok rest s with pc := .tx (k + 2) }))

/-- 41_window.md R142, R146: SET_WINDOW as a whole, from the CMD write, issues six bytes that depend on the geometry and
the profile alone, and changes no register but RESULT and ERRCODE.
The step count is the model's (notes/assumptions/13.md). -/
def Obligations.WindowRunIsAFunctionOfTheGeometry : Prop :=
  ∀ (s : State) (rest : List Answer),
    s.script = [.wr 32 s.cfg.regBase 2#32] → s.busy = false → s.fault = false → s.port = none →
    supported s.cfg s.width.toNat s.height.toNat = true → s.answers = List.replicate 6 .ok ++ rest →
    run 8 s = .next { s with
      script := [], answers := rest, latched := some (latch 2#32 s), pc := .idle, fill := Fill.empty
      trace := s.trace ++ okCommands (windowBytes s.cfg.wire s.width.toNat s.height.toNat)
      result := .ok, errcode := 0#32, lastError := none }

/-- 44_contrast_blank.md R200, R201: SET_CONTRAST raises StateError while Uninitialized, and in every other DSTATE sends
the contrast command and `L.ARG[7:0]`; CONTRAST and DSTATE are not written; a failed transaction ends it. -/
def Obligations.ContrastSendsTheLevel : Prop :=
  ∀ (s : State) (L : Latched),
    (Running s .setContrast L .check →
      (s.dstate = .uninitialized →
        exec .setContrast s = .next (ended .stateError 0#32 (some (.state .notInitialized)) s)) ∧
      (s.dstate ≠ .uninitialized → exec .setContrast s = .next { s with pc := .tx 1 })) ∧
    (∀ (rest : List Answer), s.answers = .ok :: rest →
      (Running s .setContrast L (.tx 1) → exec .setContrast s =
        .next { sent .command [s.cfg.wire.setContrastCmd] .ok rest s with pc := .tx 2 }) ∧
      (Running s .setContrast L (.tx 2) → exec .setContrast s =
        .next (ended .ok 0#32 none (sent .command [L.arg.extractLsb' 0 8] .ok rest s)))) ∧
    (∀ (c : Word) (d : Nat) (rest : List Answer), s.answers = .err c d :: rest →
      (Running s .setContrast L (.tx 1) → exec .setContrast s = .next
        (ended .busError c (some (.bus c)) (sent .command [s.cfg.wire.setContrastCmd] (.err c (min d 1)) rest s))) ∧
      (Running s .setContrast L (.tx 2) → exec .setContrast s = .next
        (ended .busError c (some (.bus c)) (sent .command [L.arg.extractLsb' 0 8] (.err c (min d 1)) rest s))))

/-- 44_contrast_blank.md R205 to R207: SET_BLANK raises StateError while Uninitialized; otherwise it sends DISPLAY_OFF if
ARG is nonzero and DISPLAY_ON if it is 0, and DSTATE moves between On and Blanked only after that returned ok; from
Initializing, and after a failure, DSTATE stays. -/
def Obligations.BlankSendsAndTracksTheDisplay : Prop :=
  ∀ (s : State) (L : Latched),
    (Running s .setBlank L .check →
      (s.dstate = .uninitialized →
        exec .setBlank s = .next (ended .stateError 0#32 (some (.state .notInitialized)) s)) ∧
      (s.dstate ≠ .uninitialized → exec .setBlank s = .next { s with pc := .tx 1 })) ∧
    (Running s .setBlank L (.tx 1) →
      (∀ (rest : List Answer), s.answers = .ok :: rest →
        (L.arg ≠ 0#32 → exec .setBlank s = .next (ended .ok 0#32 none
          { sent .command [s.cfg.wire.displayOff] .ok rest s with
            dstate := if s.dstate = .on ∨ s.dstate = .blanked then .blanked else s.dstate })) ∧
        (L.arg = 0#32 → exec .setBlank s = .next (ended .ok 0#32 none
          { sent .command [s.cfg.wire.displayOn] .ok rest s with
            dstate := if s.dstate = .on ∨ s.dstate = .blanked then .on else s.dstate }))) ∧
      (∀ (c : Word) (d : Nat) (rest : List Answer), s.answers = .err c d :: rest →
        exec .setBlank s = .next (ended .busError c (some (.bus c))
          (sent .command [if L.arg = 0#32 then s.cfg.wire.displayOn else s.cfg.wire.displayOff]
            (.err c (min d 1)) rest s))))

/-! PACK and WRITE_FRAME. -/

/-- 20_memory.md R53, 60_exceptions.md R228, 42_packer.md R161, 43_write_path.md R181: the checks of PACK and WRITE_FRAME
in any DSTATE, in their order: geometry, alignment, range; a failed check reads nothing and writes no PACKBUF byte. -/
def Obligations.BufferChecksInOrder : Prop :=
  ∀ (s : State) (op : Instr) (L : Latched), (op = .pack ∨ op = .writeFrame) → Running s op L .check →
    (supported s.cfg L.width.toNat L.height.toNat = false →
      exec op s = .next (ended .configError 0#32 (some (.config .geometry)) s)) ∧
    (supported s.cfg L.width.toNat L.height.toNat = true →
      (L.pixbase.toNat % 2 ≠ 0 → exec op s = .next (ended .configError 0#32 (some (.config .pixbaseAlign)) s)) ∧
      (L.pixbase.toNat % 2 = 0 →
        (2 ^ 32 < L.pixbase.toNat + 2 * (L.width.toNat * L.height.toNat) →
          exec op s = .next (ended .configError 0#32 (some (.config .pixbaseRange)) s)) ∧
        (L.pixbase.toNat + 2 * (L.width.toNat * L.height.toNat) ≤ 2 ^ 32 →
          exec op s = .next { s with pc := .fill })))

/-- 20_memory.md R53, R55: past the checks every sample is read at an even address and within the address space. -/
def Obligations.SampleAddressesAreLegal : Prop :=
  ∀ (c : Config) (L : Latched) (x r : Nat), bufferError c L = none → x < L.width.toNat → r < L.height.toNat →
    L.sampleAddr (L.index x r) = L.pixbase.toNat + 2 * (r * L.width.toNat + x) ∧
    L.sampleAddr (L.index x r) % 2 = 0 ∧ L.sampleAddr (L.index x r) + 1 < 2 ^ 32

/-- 42_packer.md R162, 20_memory.md R62: with every read admitted, each step of the fill reads one sample or writes one
byte, whatever the schedule, and when nothing is left PACK ends with RESULT = OK and WRITE_FRAME goes to its burst. -/
def Obligations.FillTakesOneActionAStep : Prop :=
  ∀ (s : State) (L : Latched), AllAdmitted s.cfg L → fillActs L s.fill ≠ [] →
    (Running s .pack L .fill → ∃ u, FillAction L s u ∧
      exec .pack s = .next (if fillActs L u.fill = [] then ended .ok 0#32 none u else u)) ∧
    (Running s .writeFrame L .fill → ∃ u, FillAction L s u ∧
      exec .writeFrame s = .next (if fillActs L u.fill = [] then { u with pc := .burst } else u))

/-- 70_reset_and_hazards.md R266: each action of a fill leaves one less to do, so a fill whose reads are answered takes
W*H + N steps. -/
def Obligations.FillActionsAreBounded : Prop :=
  ∀ L : Latched,
    fillLeft L Fill.empty = L.width.toNat * L.height.toNat + L.width.toNat * (L.height.toNat / 8) ∧
    ∀ s u : State, FillAction L s u → fillLeft L u.fill + 1 = fillLeft L s.fill

/-- 20_memory.md R54, 43_write_path.md R184: a read that is not admitted ends the operation with MEM_ERROR and ERRCODE 0;
the PACKBUF bytes are as they were, and nothing is sent.
A read that is never answered leaves everything as it is (93_implementation_defined.md U8). -/
def Obligations.UnadmittedReadRaisesMemError : Prop :=
  ∀ (s : State) (op : Instr) (L : Latched) (j : Nat), (op = .pack ∨ op = .writeFrame) → Running s op L .fill →
    pickAct (fillActs L s.fill) s.sched = some (.sample j) →
    (pixAnswer s.cfg.pixMap (L.sampleAddr j) = .denied →
      exec op s = .next (ended .memError 0#32 (some (.mem (L.sampleAddr j))) s)) ∧
    (pixAnswer s.cfg.pixMap (L.sampleAddr j) = .silent → exec op s = .next s)

/-- 20_memory.md R63, 93_implementation_defined.md U5: a sample of the buffer that the host writes while PACK or
WRITE_FRAME is running is a free value, whatever pixel memory holds (notes/assumptions/10.md).
Not yet read, it is marked, and its read gives the free value; read already, what was read for it becomes the free value,
in its PACKBUF byte if that is written and in the burst if that is outstanding. Every other sample and byte is as it was.
The statement holds for every free value. -/
def Obligations.RacedSampleReadsAsAFreeValue : Prop :=
  ∀ (s : State) (op : Instr) (L : Latched) (pc : Pc), (op = .pack ∨ op = .writeFrame) → Running s op L pc →
    (∀ (a : Word) (b : Byte) (j : Nat), j < L.samples → (a.toNat = L.sampleAddr j ∨ a.toNat = L.sampleAddr j + 1) →
      (Cells.lookup j s.fill.read = none → hostPixWrite a b s = { s with
        pix := Memory.write s.pix a.toNat b, fill := { s.fill with raced := s.fill.raced ++ [j] } }) ∧
      ((Cells.lookup j s.fill.read).isSome = true → ∃ f m p, hostPixWrite a b s = { s with
          pix := Memory.write s.pix a.toNat b, fill := f, draws := s.draws + 1, packbuf := m, port := p } ∧
        Cells.lookup j f.read = some (truthy (Config.freeSample s.draws)) ∧
        (∀ i, i ≠ j → Cells.lookup i f.read = Cells.lookup i s.fill.read) ∧
        f.written = s.fill.written ∧ f.raced = s.fill.raced ∧
        (L.byteOfSample j ∈ s.fill.written → L.byteOfSample j < 1024 →
          Cells.lookup (L.byteOfSample j) m = some (packByte (fillLit L f) L.p (L.byteOfSample j))) ∧
        (∀ k, k ≠ L.byteOfSample j ∨ k ∉ s.fill.written → Cells.lookup k m = Cells.lookup k s.packbuf) ∧
        (s.port = none → p = none) ∧
        (∀ bytes, s.port = some ⟨.data, bytes⟩ → (∀ k, k < L.n → (Cells.lookup k m).isSome = true) →
          ∃ bytes', p = some ⟨.data, bytes'⟩ ∧ bytes'.length = L.n ∧
            ∀ k, k < L.n → bytes'[k]? = Cells.lookup k m))) ∧
    (∀ (j : Nat) (u : State), pc = .fill → pickAct (fillActs L s.fill) s.sched = some (.sample j) → j ∈ s.fill.raced →
      pixAnswer s.cfg.pixMap (L.sampleAddr j) = .admitted →
      u = { s with
        fill := { s.fill with read := s.fill.read ++ [(j, truthy (Config.freeSample s.draws))] }
        draws := s.draws + 1
        sched := s.sched.tail } →
      exec op s = .next
        (if fillActs L u.fill ≠ [] then u else if op = .pack then ended .ok 0#32 none u else { u with pc := .burst }))

/-- 43_write_path.md R181, R182, 30_encoding.md R90: the burst is one Data transaction of N bytes, byte `k` of it
PACKBUF[k]; after ok the operation ends with RESULT = OK. -/
def Obligations.BurstSendsPackbufInOrder : Prop :=
  ∀ (s : State) (L : Latched) (rest : List Answer), Running s .writeFrame L .burst →
    (∀ k, k < L.width.toNat * (L.height.toNat / 8) → (Cells.lookup k s.packbuf).isSome = true) →
    s.answers = .ok :: rest →
    ∃ bytes, bytes.length = L.width.toNat * (L.height.toNat / 8) ∧
      (∀ k, k < bytes.length → bytes[k]? = Cells.lookup k s.packbuf) ∧
      exec .dataBurst s = .next (ended .ok 0#32 none (sent .data bytes .ok rest s)) ∧
      exec .writeFrame s = exec .dataBurst s

/-- 43_write_path.md R183: when the Data transaction returns `err(c)`, RESULT is BUS_ERROR and ERRCODE `c`; PACKBUF and
DSTATE are as they were; at most the N bytes were delivered. -/
def Obligations.BurstFailureKeepsTheFrame : Prop :=
  ∀ (s : State) (L : Latched) (c : Word) (d : Nat) (rest : List Answer), Running s .writeFrame L .burst →
    (∀ k, k < L.n → (Cells.lookup k s.packbuf).isSome = true) → s.answers = .err c d :: rest →
    ∃ bytes, bytes.length = L.n ∧ (∀ k, k < bytes.length → bytes[k]? = Cells.lookup k s.packbuf) ∧
      exec .writeFrame s =
        .next (ended .busError c (some (.bus c)) (sent .data bytes (.err c (min d L.n)) rest s))

/-- 42_packer.md R160 to R162, 10_state.md R35: PACK as a whole, from the CMD write and for every schedule: PACKBUF [0, N)
is exactly pack(lit, W, H) of pixel memory, bytes from N on are unchanged, RESULT is OK, DSTATE is unchanged, and nothing
is sent.
The step count is the model's (notes/assumptions/13.md). -/
def Obligations.PackFillsPackbufWithThePackedFrame : Prop :=
  ∀ (s : State) (L : Latched),
    s.script = [.wr 32 s.cfg.regBase 3#32] → s.busy = false → s.fault = false → s.cfg.geometry.wellFormed = true →
    L = latch 3#32 s → bufferError s.cfg L = none → AllAdmitted s.cfg L →
    ∃ t, run (L.samples + L.n + 2) s = .next t ∧
      (∀ k, k < L.n → Cells.lookup k t.packbuf = (pack (litMap L s.pix) L.w L.h)[k]?) ∧
      (∀ k, L.n ≤ k → Cells.lookup k t.packbuf = Cells.lookup k s.packbuf) ∧
      t.result = .ok ∧ t.errcode = 0#32 ∧ t.busy = false ∧ t.pc = .idle ∧ t.dstate = s.dstate ∧
      t.trace = s.trace ∧ t.pix = s.pix ∧ t.contrast = s.contrast ∧ t.fault = false

/-- 43_write_path.md R181, R182, 10_state.md R35: WRITE_FRAME as a whole, from the CMD write and for every schedule:
exactly one transaction, in the Data phase, whose bytes are pack(lit, W, H) of pixel memory; PACKBUF [0, N) holds them and
its bytes from N on are unchanged.
The step count is the model's (notes/assumptions/13.md). -/
def Obligations.WriteFrameSendsThePackedFrame : Prop :=
  ∀ (s : State) (L : Latched) (rest : List Answer),
    s.script = [.wr 32 s.cfg.regBase 4#32] → s.busy = false → s.fault = false → s.cfg.geometry.wellFormed = true →
    L = latch 4#32 s → bufferError s.cfg L = none → AllAdmitted s.cfg L → s.answers = .ok :: rest →
    ∃ t, run (L.samples + L.n + 3) s = .next t ∧
      t.trace = s.trace ++ [⟨.data, pack (litMap L s.pix) L.w L.h, .ok⟩] ∧
      (∀ k, k < L.n → Cells.lookup k t.packbuf = (pack (litMap L s.pix) L.w L.h)[k]?) ∧
      (∀ k, L.n ≤ k → Cells.lookup k t.packbuf = Cells.lookup k s.packbuf) ∧
      t.result = .ok ∧ t.errcode = 0#32 ∧ t.busy = false ∧ t.pc = .idle ∧ t.dstate = s.dstate ∧ t.pix = s.pix ∧
      t.contrast = s.contrast ∧ t.fault = false ∧ t.answers = rest

/-- 42_packer.md R160: the packed frame is what the loop nest of the rule builds, column outermost, then page, then bit;
it has N bytes, and bit `i` of byte `k` is lit(k // P, 8 * (k mod P) + i). -/
def Obligations.PackIsTheLoopNest : Prop :=
  ∀ (lit : Nat → Nat → Bool) (w h : Nat),
    pack lit w h = (List.range w).flatMap (fun x => (List.range (h / 8)).map fun p => byteOf fun i => lit x (8 * p + i)) ∧
    (pack lit w h).length = w * (h / 8) ∧
    ∀ k i, k < w * (h / 8) → i < 8 →
      ((pack lit w h)[k]?.getD 0#8).getLsbD i = lit (k / (h / 8)) (8 * (k % (h / 8)) + i)

/-- 42_packer.md R164: unpacking a packed frame gives the lit map back, and packing an unpacked list of N bytes gives the
list back, so `pack` is a bijection. This is the spec's own inference from R160, and not its source's. -/
def Obligations.UnpackInvertsPack : Prop :=
  ∀ (w h : Nat), h % 8 = 0 →
    (∀ (lit : Nat → Nat → Bool) (x r : Nat), x < w → r < h → unpack (pack lit w h) h x r = lit x r) ∧
    (∀ f : List Byte, f.length = w * (h / 8) → pack (unpack f h) w h = f)

/-! The WIRE rows and the transport. -/

/-- 30_encoding.md R88, R95, 00_scope.md R11: each of the 27 WIRE rows (`exec (.ofWire n)`: DISPLAY_OFF, SET_CLOCK_DIV,
CLOCK_DIV_ARG, SET_MUX, SET_DISPLAY_OFFSET, SET_START_LINE, SET_CHARGE_PUMP, CHARGE_PUMP_ON_ARG, SEG_REMAP_NORMAL,
SEG_REMAP_MIRRORED, COM_SCAN_NORMAL, COM_SCAN_MIRRORED, SET_COM_PINS, COM_PINS_ALT_ARG, COM_PINS_SEQ_ARG, SET_MEM_MODE,
MEM_MODE_VERTICAL_ARG, SET_PRECHARGE, PRECHARGE_ARG, SET_VCOMH, VCOMH_ARG, ENTIRE_DISPLAY_RESUME, NORMAL_DISPLAY,
DISPLAY_ON, SET_CONTRAST_CMD, SET_COLUMN_RANGE, SET_PAGE_RANGE) is one Command transaction of its one byte; after ok the
operation goes to its next transaction, or, after its last, ends. -/
def Obligations.WireRowsSendTheirByte : Prop :=
  ∀ (n : WireName) (s : State) (op : Instr) (L : Latched) (k : Nat) (rest : List Answer),
    Running s op L (.tx k) → s.answers = .ok :: rest →
    (k < (slots op L).length →
      exec (.ofWire n) s = .next { sent .command [s.cfg.wire.get n] .ok rest s with pc := .tx (k + 1) }) ∧
    ((slots op L).length ≤ k → exec (.ofWire n) s = .next (ended .ok 0#32 none
      { sent .command [s.cfg.wire.get n] .ok rest s with
        dstate :=
          if op = .init then .on
          else if op = .setBlank ∧ (s.dstate = .on ∨ s.dstate = .blanked) then (if L.arg = 0#32 then .on else .blanked)
          else s.dstate }))

/-- The bytes of the default profile, row by row (30_encoding.md R95; PRESUMED, notes/assumptions/2.md), and which of
them follow a command (R89). -/
def Obligations.DefaultProfileBytes : Prop :=
  wireNames.map (fun n => (Wire.default.get n).toNat) =
    [0xAE, 0xD5, 0x80, 0xA8, 0xD3, 0x40, 0x8D, 0x14, 0xA0, 0xA1, 0xC0, 0xC8, 0xDA, 0x12, 0x02, 0x20, 0x01, 0xD9, 0xF1,
     0xDB, 0x40, 0xA4, 0xA6, 0xAF, 0x81, 0x21, 0x22] ∧
  wireNames.map argCount = [0, 1, 0, 1, 1, 0, 1, 0, 0, 0, 0, 0, 1, 0, 0, 1, 0, 1, 0, 1, 0, 0, 0, 0, 1, 2, 2] ∧
  Wire.default.wellFormed = true

/-- 60_exceptions.md R223, 41_window.md R145, 20_memory.md R60: the transaction that returns `err(c)` raises BusError(c),
whichever operation and transaction it is: it stands in the trace with at most its one byte delivered, RESULT is
BUS_ERROR, ERRCODE is `c`, the operation has ended, and nothing else changes.
A WIRE row at that transaction does the same (notes/assumptions/13.md); the delivered count is the answer's, cut to the
one byte (notes/assumptions/8.md). -/
def Obligations.BusErrorEndsTheOperation : Prop :=
  ∀ (s : State) (op : Instr) (L : Latched) (k : Nat) (slot : Slot) (c : Word) (d : Nat) (rest : List Answer),
    Running s op L (.tx k) → slotAt (slots op L) k = some slot → s.answers = .err c d :: rest →
    exec op s = .next (ended .busError c (some (.bus c))
      (sent .command [slotByte s.cfg.wire slot] (.err c (min d 1)) rest s)) ∧
    ∀ n, slot = .row n → exec (.ofWire n) s = exec op s

/-- 20_memory.md R61, 93_implementation_defined.md U8: a transaction that is never answered, a Command transaction of any
operation or the Data transaction of WRITE_FRAME's burst, leaves the block with BUSY = 1 at that transaction for ever, with
the request outstanding and nothing more in the trace.
At the burst the N bytes of the frame have been written, as in every run (notes/assumptions/29.md). -/
def Obligations.UnansweredTransactionHangs : Prop :=
  ∀ (s : State) (L : Latched) (m : Nat), s.answers = [] → s.script = [] →
    (∀ (op : Instr) (k : Nat) (slot : Slot), Running s op L (.tx k) → slotAt (slots op L) k = some slot →
      run (m + 1) s = .next { s with port := some ⟨.command, [slotByte s.cfg.wire slot]⟩ }) ∧
    (Running s .writeFrame L .burst → (∀ k, k < L.n → (Cells.lookup k s.packbuf).isSome = true) →
      ∃ bytes, bytes.length = L.n ∧ (∀ k, k < bytes.length → bytes[k]? = Cells.lookup k s.packbuf) ∧
        run (m + 1) s = .next { s with port := some ⟨.data, bytes⟩ })

/-! Illegal words. -/

/-- 30_encoding.md R85, R86, 60_exceptions.md R227: the check step of an illegal word raises IllegalOp; as a whole, from
the CMD write, nothing has changed but RESULT, ERRCODE and the latched copies: no transaction, no FAULT.
The second clause counts two steps of the model (notes/assumptions/13.md), and the latched copy and the record of the
error that stay are the model's (notes/assumptions/20.md, 18.md). -/
def Obligations.IllegalWordsEndWithIllegalOp : Prop :=
  (∀ (s : State) (rsvd : BitVec 28) (opcode : BitVec 4) (L : Latched), Running s (.illegal rsvd opcode) L .check →
    exec (.illegal rsvd opcode) s = .next (ended .illegalOp 0#32 (some .illegalOp) s)) ∧
  (∀ (s : State) (w : Word), (w.extractLsb' 4 28 ≠ 0#28 ∨ w.extractLsb' 0 4 = 0#4 ∨ 7 ≤ (w.extractLsb' 0 4).toNat) →
    s.script = [.wr 32 s.cfg.regBase w] → s.busy = false → s.fault = false → ControlInv s →
    run 2 s = .next { s with
      script := [], latched := some (latch w s), result := .illegalOp, errcode := 0#32, lastError := some .illegalOp })

/-! Registers. -/

/-- 60_exceptions.md R231, 10_state.md R21, R39: the accesses that are protocol violations are exactly these; each sets
FAULT and has no other effect, and no other access sets FAULT. -/
def Obligations.ProtocolViolationsAreExactlyThese : Prop :=
  ∀ (s : State) (width off : Nat) (v : Word),
    (let outside := width ≠ 32 ∨ off % 4 ≠ 0 ∨ (0x024 ≤ off ∧ off < 0x400) ∨ 0x800 ≤ off
     (outside → hostRead width off s = { s with fault := true }) ∧
     (¬outside → (hostRead width off s).fault = s.fault)) ∧
    (let violation :=
      width ≠ 32 ∨ off % 4 ≠ 0 ∨ (0x024 ≤ off ∧ off < 0x400) ∨ 0x800 ≤ off ∨
      off = 0x008 ∨ off = 0x00C ∨ (0x400 ≤ off ∧ off < 0x800) ∨ s.busy = true ∨
      ((off = 0x010 ∨ off = 0x014) ∧ 2 ^ 16 ≤ v.toNat) ∨ (off = 0x018 ∧ 2 ^ 9 ≤ v.toNat) ∨
      ((off = 0x010 ∨ off = 0x014 ∨ off = 0x018) ∧ s.dstate ≠ .uninitialized)
     s.fault = false →
     (violation → hostWrite width off v s = .next { s with fault := true }) ∧
     (¬violation → ∃ t, hostWrite width off v s = .next t ∧ t.fault = false))

/-- 10_state.md R23, R26, R28, R29, R30: a write that is no violation stores its value and changes nothing else. -/
def Obligations.RegisterWritesStoreTheirValue : Prop :=
  ∀ (s : State) (v : Word), s.fault = false → s.busy = false →
    hostWrite 32 0x004 v s = .next { s with arg := v } ∧
    hostWrite 32 0x01C v s = .next { s with contrast := v } ∧
    hostWrite 32 0x020 v s = .next { s with pixbase := v } ∧
    (s.dstate = .uninitialized →
      (v.toNat < 2 ^ 16 → hostWrite 32 0x010 v s = .next { s with width := BitVec.ofNat 16 v.toNat } ∧
        hostWrite 32 0x014 v s = .next { s with height := BitVec.ofNat 16 v.toNat }) ∧
      (v.toNat < 2 ^ 9 → hostWrite 32 0x018 v s = .next { s with orient := BitVec.ofNat 9 v.toNat }))

/-- 10_state.md R20 to R30: what a read of each register returns, recorded as the host's, with nothing else changed, also
while FAULT = 1 and BUSY = 1; reserved bits read 0 and CMD reads 0. -/
def Obligations.RegisterReadsReturnTheirValue : Prop :=
  ∀ s : State,
    hostRead 32 0x000 s = { s with hostReads := s.hostReads ++ [(0x000, 0#32)] } ∧
    hostRead 32 0x004 s = { s with hostReads := s.hostReads ++ [(0x004, s.arg)] } ∧
    hostRead 32 0x008 s = { s with hostReads := s.hostReads ++ [(0x008, statusWord s)] } ∧
    hostRead 32 0x00C s = { s with hostReads := s.hostReads ++ [(0x00C, s.errcode)] } ∧
    hostRead 32 0x010 s = { s with hostReads := s.hostReads ++ [(0x010, BitVec.ofNat 32 s.width.toNat)] } ∧
    hostRead 32 0x014 s = { s with hostReads := s.hostReads ++ [(0x014, BitVec.ofNat 32 s.height.toNat)] } ∧
    hostRead 32 0x018 s = { s with hostReads := s.hostReads ++ [(0x018, BitVec.ofNat 32 s.orient.toNat)] } ∧
    hostRead 32 0x01C s = { s with hostReads := s.hostReads ++ [(0x01C, s.contrast)] } ∧
    hostRead 32 0x020 s = { s with hostReads := s.hostReads ++ [(0x020, s.pixbase)] }

/-- 10_state.md R24: the fields of STATUS, each at its bits and with its code, and bits 31 to 10 read 0. -/
def Obligations.StatusWordHoldsItsFields : Prop :=
  ∀ s : State,
    (statusWord s).toNat =
      (if s.busy then 1 else 0) + 2 * (if s.fault then 1 else 0)
      + 4 * (match s.dstate with | .uninitialized => 0 | .initializing => 1 | .on => 2 | .blanked => 3)
      + 16 * (match s.result with
        | .ok => 0 | .busError => 1 | .configError => 2 | .stateError => 3 | .illegalOp => 4 | .memError => 5)
      + 256 * (if supported s.cfg s.width.toNat s.height.toNat then
          (if s.width = 64#16 ∧ s.height = 48#16 then 2 else 1) else 0)

/-- 10_state.md R27: the default of SUPPORTED; under it GEOM is 2 for exactly 64×48, 1 for every other supported geometry
and 0 for an unsupported one. -/
def Obligations.DefaultGeometriesAndVariants : Prop :=
  ∀ (c : Config) (w h : Nat), c.geometry = .default →
    (supported c w h = true ↔ (w = 64 ∧ h = 48) ∨ ((∃ a, w = 8 * a ∧ 1 ≤ a ∧ a ≤ 16) ∧ ∃ p, h = 8 * p ∧ 2 ≤ p ∧ p ≤ 8)) ∧
    (geom c w h = 2#2 ↔ w = 64 ∧ h = 48) ∧
    (geom c w h = 0#2 ↔ supported c w h = false) ∧ geom c w h ≠ 3#2

/-- 10_state.md R35: a PACKBUF word whose four bytes have been written reads as those bytes, little-endian, when no
operation is running. -/
def Obligations.PackbufWordsReadLittleEndian : Prop :=
  ∀ (s : State) (k : Nat) (b0 b1 b2 b3 : Byte), s.busy = false → k < 256 →
    Cells.lookup (4 * k) s.packbuf = some b0 → Cells.lookup (4 * k + 1) s.packbuf = some b1 →
    Cells.lookup (4 * k + 2) s.packbuf = some b2 → Cells.lookup (4 * k + 3) s.packbuf = some b3 →
    ∃ v : Word, hostRead 32 (0x400 + 4 * k) s = { s with hostReads := s.hostReads ++ [(0x400 + 4 * k, v)] } ∧
      v.toNat = b0.toNat + 2 ^ 8 * b1.toNat + 2 ^ 16 * b2.toNat + 2 ^ 24 * b3.toNat

/-- 10_state.md R35: while BUSY = 1 a read of the window tells nothing about PACKBUF: whatever PACKBUF holds, the read
returns the same. -/
def Obligations.BusyReadsRevealNothingOfPackbuf : Prop :=
  ∀ (s : State) (m : List Host.Cell) (width addr : Nat), s.busy = true →
    hostReadAt width addr { s with packbuf := m } = { hostReadAt width addr s with packbuf := m }

/-! Reset. -/

/-- 10_state.md R41: the state after reset. -/
def Obligations.ResetValues : Prop :=
  State.reset.arg = 0#32 ∧ State.reset.busy = false ∧ State.reset.fault = false ∧
  State.reset.dstate = .uninitialized ∧ State.reset.result = .ok ∧
  geom State.reset.cfg State.reset.width.toNat State.reset.height.toNat = 0#2 ∧
  State.reset.errcode = 0#32 ∧ State.reset.width = 0#16 ∧ State.reset.height = 0#16 ∧ State.reset.orient = 0#9 ∧
  State.reset.contrast = 0#32 ∧ State.reset.pixbase = 0#32 ∧
  (∀ k, Cells.lookup k State.reset.packbuf = none) ∧ State.reset.pc = .idle ∧ State.reset.latched = none ∧
  State.reset.port = none

/-- 70_reset_and_hazards.md R250, R253, R254: a reset, at any moment, puts every register and the engine at their reset
values; pixel memory and the parameters stay; a transaction that was outstanding is abandoned with at most its bytes
delivered, and otherwise nothing is added to the trace.
That the rest of the outside world's plan and the model's records stay, the record of the last error apart, and how the
abandoned transaction stands in the trace, is the model's choice (notes/assumptions/21.md, 8.md). -/
def Obligations.ResetClearsTheBlockAndNothingElse : Prop :=
  ∀ (s : State) (d : Nat) (rest : List Move), s.script = .reset d :: rest →
    ∃ t, step s = .next t ∧
      t.arg = 0#32 ∧ t.errcode = 0#32 ∧ t.width = 0#16 ∧ t.height = 0#16 ∧ t.orient = 0#9 ∧ t.contrast = 0#32 ∧
      t.pixbase = 0#32 ∧ t.busy = false ∧ t.fault = false ∧ t.dstate = .uninitialized ∧ t.result = .ok ∧
      (∀ k, Cells.lookup k t.packbuf = none) ∧ t.pc = .idle ∧ t.latched = none ∧ t.port = none ∧
      t.fill = Fill.empty ∧ t.lastError = none ∧
      t.pix = s.pix ∧ t.cfg = s.cfg ∧ t.script = rest ∧ t.answers = s.answers ∧ t.sched = s.sched ∧
      t.draws = s.draws ∧ t.hostReads = s.hostReads ∧
      (s.port = none → t.trace = s.trace) ∧
      (∀ r, s.port = some r →
        t.trace = s.trace ++ [⟨r.phase, r.bytes, .abandoned (min d r.bytes.length)⟩])

/-! Rules about every step. -/

/-- 10_state.md R34, 40_sequencer.md R112: DSTATE changes only by these events: a reset; INIT passing every check; the last transaction of INIT;
SET_BLANK's transaction from On or Blanked.
It is stated of the states that meet the control and display invariants, which every step keeps. -/
def Obligations.DisplayStateChangesOnlyByItsEvents : Prop :=
  ∀ s t : State, ControlInv s → DStateInv s → step s = .next t →
    t.dstate = s.dstate ∨
    ((∃ d rest, s.script = .reset d :: rest) ∧ t.dstate = .uninitialized) ∨
    (∃ L, Running s .init L .check ∧ (s.dstate = .uninitialized ∨ s.dstate = .initializing) ∧
      supported s.cfg L.width.toNat L.height.toNat = true ∧ L.orient.toNat ≤ 359 ∧ t.dstate = .initializing) ∨
    (∃ L, Running s .init L (.tx 23) ∧ s.dstate = .initializing ∧ s.answers.head? = some .ok ∧ t.dstate = .on) ∨
    (∃ L, Running s .setBlank L (.tx 1) ∧ (s.dstate = .on ∨ s.dstate = .blanked) ∧ s.answers.head? = some .ok ∧
      t.dstate = if L.arg = 0#32 then .on else .blanked)

/-- The display invariant, that an INIT past its check step has DSTATE at Initializing (40_sequencer.md R112), is kept by
every step. -/
def Obligations.DisplayInvariantIsKept : Prop :=
  ∀ s t : State, DStateInv s → step s = .next t → DStateInv t

/-- 10_state.md R29, 20_memory.md R66: CONTRAST changes only by a reset, by a host write to it while BUSY = 0 and
FAULT = 0, and by INIT step 1 when it is 0. -/
def Obligations.ContrastHasTwoWritersAndReset : Prop :=
  ∀ s t : State, step s = .next t → t.contrast ≠ s.contrast →
    (∃ d rest, s.script = .reset d :: rest) ∨
    (s.busy = false ∧ s.fault = false ∧
      (s.script.head? = some (.wr 32 (s.cfg.regBase + 0x01C) t.contrast) ∨
        (s.script.head? = some (.wrTemp 32 (s.cfg.regBase + 0x01C)) ∧ t.contrast = temp s))) ∨
    (∃ L, Running s .init L .lazyContrast ∧ L.contrast = 0#32 ∧
      t.contrast = if L.height = 64#16 then 0xCF#32 else 0x8F#32)

/-- 60_exceptions.md R230: once FAULT is set it stays until a reset, and every host write, a CMD write among them, is
ignored. -/
def Obligations.FaultIsStickyAndSilencesWrites : Prop :=
  ∀ s : State, s.fault = true →
    (∀ t, step s = .next t → (∀ d rest, s.script ≠ .reset d :: rest) → t.fault = true) ∧
    (∀ width addr v, hostWriteAt width addr v s = .next s)

/-- 10_state.md R37, 00_scope.md R10: FBPACK never writes pixel memory: a step that changes a byte of it is a host write
to that byte, whatever else the step does. -/
def Obligations.PixelMemoryIsWrittenByTheHostOnly : Prop :=
  ∀ (s t : State) (a : Nat), step s = .next t → Memory.read t.pix a ≠ Memory.read s.pix a →
    ∃ (x : Word) (b : Byte) (rest : List Move), s.script = .pixWrite x b :: rest ∧ x.toNat = a

/-- 20_memory.md R62, 42_packer.md R161, 10_state.md R36: a step adds at most one transaction to the trace and takes none
away, and it adds one only when a running operation is at a transaction step or at its burst and an answer is there, or
when a reset abandons the outstanding one. -/
def Obligations.TraceGrowsByOneTransaction : Prop :=
  ∀ s t : State, ControlInv s → step s = .next t →
    t.trace = s.trace ∨
    ((∃ k, s.pc = .tx k) ∧ s.busy = true ∧ s.answers ≠ [] ∧ ∃ b r, t.trace = s.trace ++ [⟨.command, [b], r⟩]) ∨
    (s.pc = .burst ∧ s.busy = true ∧ s.answers ≠ [] ∧ ∃ bytes r, t.trace = s.trace ++ [⟨.data, bytes, r⟩]) ∨
    ((∃ d rest, s.script = .reset d :: rest) ∧ ∃ q n, s.port = some q ∧
      t.trace = s.trace ++ [⟨q.phase, q.bytes, .abandoned n⟩])

/-! Invariants that every step keeps. -/

/-- Every state that meets the control invariant has a step, neither a fault nor a refusal, and the state after it meets
the invariant: BUSY = 1 exactly while an operation is at one of its own steps (10_state.md R31, R32, 60_exceptions.md
R224). -/
def Obligations.ControlIsKeptAndNothingStops : Prop :=
  ∀ s : State, ControlInv s → ∃ t, step s = .next t ∧ ControlInv t

/-- Every step keeps pixel memory and PACKBUF in their canonical forms (20_memory.md R50, 10_state.md R35). -/
def Obligations.MemoryFormsAreKept : Prop :=
  ∀ s t : State, MemoryInv s → step s = .next t → MemoryInv t

/-- 10_state.md R33: while an operation runs the latched operands are the registers, so that latching changes no result:
every step keeps this. -/
def Obligations.LatchedOperandsAreTheRegisters : Prop :=
  ∀ s t : State, LatchInv s → step s = .next t → LatchInv t

/-- 10_state.md R25, 60_exceptions.md R220, R224: RESULT and ERRCODE are those of the error the last operation ended with,
so ERRCODE is 0 unless RESULT is BUS_ERROR: every step keeps this.
The record of the error is the model's own (notes/assumptions/18.md). -/
def Obligations.ResultAndErrcodeAgree : Prop :=
  ∀ s t : State, ResultInv s → step s = .next t →
    ResultInv t ∧ (t.result ≠ .busError → t.errcode = 0#32)

/-- 42_packer.md R162, 43_write_path.md R181, 20_memory.md R62: every step keeps the frame invariant: each sample is read
at most once, each byte written holds the packed bits of the samples read, and all N are written before the burst. -/
def Obligations.FrameInvariantIsKept : Prop :=
  ∀ s t : State, FrameInv s → step s = .next t → FrameInv t

/-- 10_state.md R36, 30_encoding.md R88, R90, 20_memory.md R60: every transaction FBPACK issues is one Command byte or a
Data burst of 1 to 1024 bytes, with no more delivered than was sent, and the outstanding request is the one of the
engine's step: every step keeps this, together with the invariants it rests on. -/
def Obligations.TraceStaysLawful : Prop :=
  ∀ s t : State, ControlInv s → FrameInv s → PortInv s → TraceInv s → step s = .next t → PortInv t ∧ TraceInv t

/-- The state after reset meets every invariant. -/
def Obligations.ResetMeetsTheInvariants : Prop :=
  ControlInv State.reset ∧ MemoryInv State.reset ∧ LatchInv State.reset ∧ ResultInv State.reset ∧
  DStateInv State.reset ∧ FrameInv State.reset ∧ PortInv State.reset ∧ TraceInv State.reset ∧ Good State.reset

/-! The vertical-addressing coupling, and the parameters. -/

/-- 40_sequencer.md R119, 70_reset_and_hazards.md R264: INIT, at `t15` and `t16`, and nothing else programs the
controller's addressing mode, and under every profile of this hardware it programs the one value that the packer's byte
order goes with.
That this value is the default profile's 0x01 is PRESUMED (notes/assumptions/31.md). -/
def Obligations.InitAloneSetsTheAddressingMode : Prop :=
  ∀ (s : State) (op : Instr) (L : Latched) (k : Nat) (rest : List Answer), Running s op L (.tx k) →
    (slotAt (slots op L) k = some (.row .setMemMode) ↔ op = .init ∧ k = 15) ∧
    (slotAt (slots op L) k = some (.row .memModeVerticalArg) ↔ op = .init ∧ k = 16) ∧
    (op = .init → k = 16 → s.cfg.wellFormed = true → s.answers = .ok :: rest →
      exec .init s = .next { sent .command [0x01#8] .ok rest s with pc := .tx 17 })

/-- 00_scope.md R6, 40_sequencer.md R119: the parameters are fixed: no step changes them, so a profile and a set of
geometries that this hardware may have stay such (notes/assumptions/1.md). -/
def Obligations.ParametersNeverChange : Prop :=
  ∀ s t : State, step s = .next t → t.cfg = s.cfg
end

