-- ==== Sys2Proof/Laws/Memory.lean ====
section
/-! SUPPORT. The laws of the byte-addressed lists, of pixel memory and of PACKBUF: a read after a write to the same place
gives the value written, a write leaves every other place alone, and every operation keeps the canonical form. -/

namespace Sys2Proof.Machine

variable {α : Type}

/-! Lists by rising key. -/

theorem Cells.lookup_none_of_below {a : Nat} {l : List (Nat × α)} (h : ∀ c ∈ l, a < c.1) :
    Cells.lookup a l = none := by
  induction l with
  | nil => rfl
  | cons c rest ih =>
    have hc := h c (by simp)
    have : a ≠ c.1 := by omega
    simp [Cells.lookup, this, ih fun d hd => h d (by simp [hd])]

@[simp] theorem Cells.lookup_set_self (a : Nat) (v : α) (l : List (Nat × α)) :
    Cells.lookup a (Cells.set a v l) = some v := by
  induction l with
  | nil => simp [Cells.set, Cells.lookup]
  | cons c rest ih =>
    simp only [Cells.set]
    split
    · simp [Cells.lookup]
    · split
      · simp [Cells.lookup]
      · simp [Cells.lookup, *]

theorem Cells.lookup_set_ne {a b : Nat} (v : α) (l : List (Nat × α)) (h : b ≠ a) :
    Cells.lookup b (Cells.set a v l) = Cells.lookup b l := by
  induction l with
  | nil => simp [Cells.set, Cells.lookup, h]
  | cons c rest ih =>
    simp only [Cells.set]
    split
    · simp [Cells.lookup, h]
    · split
      · simp_all [Cells.lookup]
      · simp [Cells.lookup, ih]

theorem Cells.mem_set {a : Nat} {v : α} {c : Nat × α} {l : List (Nat × α)} (h : c ∈ Cells.set a v l) :
    c = (a, v) ∨ c ∈ l := by
  induction l with
  | nil => simpa [Cells.set] using h
  | cons d rest ih =>
    simp only [Cells.set] at h
    split at h
    · simpa using h
    · split at h
      · rcases List.mem_cons.1 h with h | h
        · exact .inl h
        · exact .inr (by simp [h])
      · rcases List.mem_cons.1 h with h | h
        · exact .inr (by simp [h])
        · rcases ih h with h | h
          · exact .inl h
          · exact .inr (by simp [h])

theorem Cells.rising_set {a : Nat} {v : α} {l : List (Nat × α)} (h : Cells.Rising l) :
    Cells.Rising (Cells.set a v l) := by
  induction l with
  | nil => simp [Cells.set]
  | cons d rest ih =>
    have hd := List.pairwise_cons.1 h
    simp only [Cells.set]
    split
    · rename_i hlt
      refine List.pairwise_cons.2 ⟨fun c hc => ?_, h⟩
      rcases List.mem_cons.1 hc with rfl | hc
      · exact hlt
      · exact Nat.lt_trans hlt (hd.1 c hc)
    · split
      · rename_i heq
        exact List.pairwise_cons.2 ⟨fun c hc => by have := hd.1 c hc; simp only; omega, hd.2⟩
      · refine List.pairwise_cons.2 ⟨fun c hc => ?_, ih hd.2⟩
        rcases Cells.mem_set hc with rfl | hc
        · simp only; omega
        · exact hd.1 c hc

theorem Cells.mem_of_mem_erase {a : Nat} {c : Nat × α} {l : List (Nat × α)} (h : c ∈ Cells.erase a l) : c ∈ l := by
  induction l with
  | nil => simp [Cells.erase] at h
  | cons d rest ih =>
    simp only [Cells.erase] at h
    split at h
    · simp [h]
    · rcases List.mem_cons.1 h with h | h
      · simp [h]
      · simp [ih h]

theorem Cells.rising_erase {a : Nat} {l : List (Nat × α)} (h : Cells.Rising l) : Cells.Rising (Cells.erase a l) := by
  induction l with
  | nil => simp [Cells.erase]
  | cons d rest ih =>
    have hd := List.pairwise_cons.1 h
    simp only [Cells.erase]
    split
    · exact hd.2
    · exact List.pairwise_cons.2 ⟨fun c hc => hd.1 c (Cells.mem_of_mem_erase hc), ih hd.2⟩

theorem Cells.lookup_erase_self {a : Nat} {l : List (Nat × α)} (h : Cells.Rising l) :
    Cells.lookup a (Cells.erase a l) = none := by
  induction l with
  | nil => rfl
  | cons d rest ih =>
    have hd := List.pairwise_cons.1 h
    simp only [Cells.erase]
    split
    · rename_i heq
      exact Cells.lookup_none_of_below fun c hc => by have := hd.1 c hc; omega
    · rename_i hne
      simp [Cells.lookup, hne, ih hd.2]

theorem Cells.lookup_erase_ne {a b : Nat} {l : List (Nat × α)} (h : b ≠ a) :
    Cells.lookup b (Cells.erase a l) = Cells.lookup b l := by
  induction l with
  | nil => rfl
  | cons d rest ih =>
    simp only [Cells.erase]
    split
    · rename_i heq
      simp [Cells.lookup, show b ≠ d.1 by omega]
    · simp [Cells.lookup, ih]

/-- A list that grows at its end keeps the values it had. -/
theorem Cells.lookup_append (a : Nat) (l r : List (Nat × α)) :
    Cells.lookup a (l ++ r) = (Cells.lookup a l).or (Cells.lookup a r) := by
  induction l with
  | nil => simp [Cells.lookup]
  | cons c rest ih =>
    simp only [List.cons_append, Cells.lookup]
    split <;> simp [ih]

theorem Cells.lookup_isSome_iff (a : Nat) (l : List (Nat × α)) :
    (Cells.lookup a l).isSome = true ↔ a ∈ l.map Prod.fst := by
  induction l with
  | nil => simp [Cells.lookup]
  | cons c rest ih =>
    simp only [Cells.lookup, List.map_cons, List.mem_cons]
    split
    · simp_all
    · simp_all

/-! Pixel memory. -/

theorem Memory.read_write_self {m : List Host.Cell} (h : Memory.wf m) (a : Nat) (b : Byte) :
    Memory.read (Memory.write m a b) a = b := by
  simp only [Memory.read, Memory.write]
  split
  · simp [Cells.lookup_erase_self h.1, *]
  · simp

theorem Memory.read_write_other {m : List Host.Cell} {a a' : Nat} (b : Byte) (h : a' ≠ a) :
    Memory.read (Memory.write m a b) a' = Memory.read m a' := by
  simp only [Memory.read, Memory.write]
  split
  · rw [Cells.lookup_erase_ne h]
  · rw [Cells.lookup_set_ne _ _ h]

theorem Memory.write_keeps_wf {m : List Host.Cell} (h : Memory.wf m) {a : Nat} (ha : a < 4294967296) (b : Byte) :
    Memory.wf (Memory.write m a b) := by
  simp only [Memory.write]
  split
  · exact ⟨Cells.rising_erase h.1, fun c hc => h.2 c (Cells.mem_of_mem_erase hc)⟩
  · refine ⟨Cells.rising_set h.1, fun c hc => ?_⟩
    rcases Cells.mem_set hc with rfl | hc
    · exact ⟨by assumption, ha⟩
    · exact h.2 c hc

/-! PACKBUF. -/

theorem packWrite_lookup_self {k : Nat} (hk : k < 1024) (b : Byte) (m : List Host.Cell) :
    Cells.lookup k (packWrite k b m) = some b := by simp [packWrite, hk]

theorem packWrite_lookup_other {k j : Nat} (h : j ≠ k) (b : Byte) (m : List Host.Cell) :
    Cells.lookup j (packWrite k b m) = Cells.lookup j m := by
  simp only [packWrite]
  split
  · exact Cells.lookup_set_ne _ _ h
  · rfl

theorem packWrite_keeps_wf {m : List Host.Cell} (h : Packbuf.wf m) (k : Nat) (b : Byte) :
    Packbuf.wf (packWrite k b m) := by
  simp only [packWrite]
  split
  · refine ⟨Cells.rising_set h.1, fun c hc => ?_⟩
    rcases Cells.mem_set hc with rfl | hc
    · assumption
    · exact h.2 c hc
  · exact h

@[simp] theorem packRead_length (m : List Host.Cell) (d k n : Nat) : (packRead m d k n).1.length = n := by
  induction n generalizing d k with
  | zero => rfl
  | succ n ih =>
    simp only [packRead]
    split <;> simp [ih]

/-- A written byte reads as what was written, and no free value is drawn where all are written. -/
theorem packRead_written {m : List Host.Cell} {k n : Nat} (h : ∀ i, i < n → (Cells.lookup (k + i) m).isSome = true)
    (d : Nat) :
    (packRead m d k n).2 = d ∧ ∀ i, i < n → (packRead m d k n).1[i]? = Cells.lookup (k + i) m := by
  induction n generalizing k with
  | zero => simp [packRead]
  | succ n ih =>
    have h0 := h 0 (by omega)
    have hs : ∀ i, i < n → (Cells.lookup (k + 1 + i) m).isSome = true := fun i hi => by
      have := h (i + 1) (by omega)
      rwa [show k + (i + 1) = k + 1 + i by omega] at this
    obtain ⟨hd, hb⟩ := ih hs
    simp only [packRead]
    split
    · rename_i b hb0
      refine ⟨hd, fun i hi => ?_⟩
      cases i with
      | zero => simpa using hb0.symm
      | succ i => simpa [show k + (i + 1) = k + 1 + i by omega] using hb i (by omega)
    · rename_i hb0
      simp [hb0] at h0

end Sys2Proof.Machine
end

