-- ==== Sys2Proof/Laws/State.lean ====
section
/-! SUPPORT. What each named update of State leaves in each field, so that no proof unfolds a record update. -/

namespace Sys2Proof.Machine

/-! `endOp`. -/

@[simp] theorem endOp_cfg (e : Option OpError) (s : State) : (endOp e s).cfg = s.cfg := rfl
@[simp] theorem endOp_arg (e : Option OpError) (s : State) : (endOp e s).arg = s.arg := rfl
@[simp] theorem endOp_errcode (e : Option OpError) (s : State) : (endOp e s).errcode = errcodeOf e := rfl
@[simp] theorem endOp_width (e : Option OpError) (s : State) : (endOp e s).width = s.width := rfl
@[simp] theorem endOp_height (e : Option OpError) (s : State) : (endOp e s).height = s.height := rfl
@[simp] theorem endOp_orient (e : Option OpError) (s : State) : (endOp e s).orient = s.orient := rfl
@[simp] theorem endOp_contrast (e : Option OpError) (s : State) : (endOp e s).contrast = s.contrast := rfl
@[simp] theorem endOp_pixbase (e : Option OpError) (s : State) : (endOp e s).pixbase = s.pixbase := rfl
@[simp] theorem endOp_busy (e : Option OpError) (s : State) : (endOp e s).busy = false := rfl
@[simp] theorem endOp_fault (e : Option OpError) (s : State) : (endOp e s).fault = s.fault := rfl
@[simp] theorem endOp_dstate (e : Option OpError) (s : State) : (endOp e s).dstate = s.dstate := rfl
@[simp] theorem endOp_result (e : Option OpError) (s : State) : (endOp e s).result = resultOf e := rfl
@[simp] theorem endOp_packbuf (e : Option OpError) (s : State) : (endOp e s).packbuf = s.packbuf := rfl
@[simp] theorem endOp_pc (e : Option OpError) (s : State) : (endOp e s).pc = .idle := rfl
@[simp] theorem endOp_latched (e : Option OpError) (s : State) : (endOp e s).latched = s.latched := rfl
@[simp] theorem endOp_fill (e : Option OpError) (s : State) : (endOp e s).fill = Fill.empty := rfl
@[simp] theorem endOp_port (e : Option OpError) (s : State) : (endOp e s).port = s.port := rfl
@[simp] theorem endOp_trace (e : Option OpError) (s : State) : (endOp e s).trace = s.trace := rfl
@[simp] theorem endOp_pix (e : Option OpError) (s : State) : (endOp e s).pix = s.pix := rfl
@[simp] theorem endOp_script (e : Option OpError) (s : State) : (endOp e s).script = s.script := rfl
@[simp] theorem endOp_answers (e : Option OpError) (s : State) : (endOp e s).answers = s.answers := rfl
@[simp] theorem endOp_sched (e : Option OpError) (s : State) : (endOp e s).sched = s.sched := rfl
@[simp] theorem endOp_draws (e : Option OpError) (s : State) : (endOp e s).draws = s.draws := rfl
@[simp] theorem endOp_hostReads (e : Option OpError) (s : State) : (endOp e s).hostReads = s.hostReads := rfl
@[simp] theorem endOp_lastError (e : Option OpError) (s : State) : (endOp e s).lastError = e := rfl

/-! `raise`. -/

@[simp] theorem raise_cfg (e : OpError) (s : State) : (raise e s).cfg = s.cfg := rfl
@[simp] theorem raise_arg (e : OpError) (s : State) : (raise e s).arg = s.arg := rfl
@[simp] theorem raise_errcode (e : OpError) (s : State) : (raise e s).errcode = errcodeOf (some e) := rfl
@[simp] theorem raise_width (e : OpError) (s : State) : (raise e s).width = s.width := rfl
@[simp] theorem raise_height (e : OpError) (s : State) : (raise e s).height = s.height := rfl
@[simp] theorem raise_orient (e : OpError) (s : State) : (raise e s).orient = s.orient := rfl
@[simp] theorem raise_contrast (e : OpError) (s : State) : (raise e s).contrast = s.contrast := rfl
@[simp] theorem raise_pixbase (e : OpError) (s : State) : (raise e s).pixbase = s.pixbase := rfl
@[simp] theorem raise_busy (e : OpError) (s : State) : (raise e s).busy = false := rfl
@[simp] theorem raise_fault (e : OpError) (s : State) : (raise e s).fault = s.fault := rfl
@[simp] theorem raise_dstate (e : OpError) (s : State) : (raise e s).dstate = s.dstate := rfl
@[simp] theorem raise_result (e : OpError) (s : State) : (raise e s).result = resultOf (some e) := rfl
@[simp] theorem raise_packbuf (e : OpError) (s : State) : (raise e s).packbuf = s.packbuf := rfl
@[simp] theorem raise_pc (e : OpError) (s : State) : (raise e s).pc = .idle := rfl
@[simp] theorem raise_latched (e : OpError) (s : State) : (raise e s).latched = s.latched := rfl
@[simp] theorem raise_fill (e : OpError) (s : State) : (raise e s).fill = Fill.empty := rfl
@[simp] theorem raise_port (e : OpError) (s : State) : (raise e s).port = s.port := rfl
@[simp] theorem raise_trace (e : OpError) (s : State) : (raise e s).trace = s.trace := rfl
@[simp] theorem raise_pix (e : OpError) (s : State) : (raise e s).pix = s.pix := rfl
@[simp] theorem raise_script (e : OpError) (s : State) : (raise e s).script = s.script := rfl
@[simp] theorem raise_answers (e : OpError) (s : State) : (raise e s).answers = s.answers := rfl
@[simp] theorem raise_sched (e : OpError) (s : State) : (raise e s).sched = s.sched := rfl
@[simp] theorem raise_draws (e : OpError) (s : State) : (raise e s).draws = s.draws := rfl
@[simp] theorem raise_hostReads (e : OpError) (s : State) : (raise e s).hostReads = s.hostReads := rfl
@[simp] theorem raise_lastError (e : OpError) (s : State) : (raise e s).lastError = some e := rfl

/-! `startOp`. -/

@[simp] theorem startOp_cfg (cmd : Word) (s : State) : (startOp cmd s).cfg = s.cfg := rfl
@[simp] theorem startOp_arg (cmd : Word) (s : State) : (startOp cmd s).arg = s.arg := rfl
@[simp] theorem startOp_errcode (cmd : Word) (s : State) : (startOp cmd s).errcode = s.errcode := rfl
@[simp] theorem startOp_width (cmd : Word) (s : State) : (startOp cmd s).width = s.width := rfl
@[simp] theorem startOp_height (cmd : Word) (s : State) : (startOp cmd s).height = s.height := rfl
@[simp] theorem startOp_orient (cmd : Word) (s : State) : (startOp cmd s).orient = s.orient := rfl
@[simp] theorem startOp_contrast (cmd : Word) (s : State) : (startOp cmd s).contrast = s.contrast := rfl
@[simp] theorem startOp_pixbase (cmd : Word) (s : State) : (startOp cmd s).pixbase = s.pixbase := rfl
@[simp] theorem startOp_busy (cmd : Word) (s : State) : (startOp cmd s).busy = true := rfl
@[simp] theorem startOp_fault (cmd : Word) (s : State) : (startOp cmd s).fault = s.fault := rfl
@[simp] theorem startOp_dstate (cmd : Word) (s : State) : (startOp cmd s).dstate = s.dstate := rfl
@[simp] theorem startOp_result (cmd : Word) (s : State) : (startOp cmd s).result = s.result := rfl
@[simp] theorem startOp_packbuf (cmd : Word) (s : State) : (startOp cmd s).packbuf = s.packbuf := rfl
@[simp] theorem startOp_pc (cmd : Word) (s : State) : (startOp cmd s).pc = .check := rfl
@[simp] theorem startOp_latched (cmd : Word) (s : State) : (startOp cmd s).latched = some (latch cmd s) := rfl
@[simp] theorem startOp_fill (cmd : Word) (s : State) : (startOp cmd s).fill = Fill.empty := rfl
@[simp] theorem startOp_port (cmd : Word) (s : State) : (startOp cmd s).port = s.port := rfl
@[simp] theorem startOp_trace (cmd : Word) (s : State) : (startOp cmd s).trace = s.trace := rfl
@[simp] theorem startOp_pix (cmd : Word) (s : State) : (startOp cmd s).pix = s.pix := rfl
@[simp] theorem startOp_script (cmd : Word) (s : State) : (startOp cmd s).script = s.script := rfl
@[simp] theorem startOp_answers (cmd : Word) (s : State) : (startOp cmd s).answers = s.answers := rfl
@[simp] theorem startOp_sched (cmd : Word) (s : State) : (startOp cmd s).sched = s.sched := rfl
@[simp] theorem startOp_draws (cmd : Word) (s : State) : (startOp cmd s).draws = s.draws := rfl
@[simp] theorem startOp_hostReads (cmd : Word) (s : State) : (startOp cmd s).hostReads = s.hostReads := rfl
@[simp] theorem startOp_lastError (cmd : Word) (s : State) : (startOp cmd s).lastError = s.lastError := rfl

/-! `faultP`. -/

@[simp] theorem faultP_cfg (s : State) : (faultP s).cfg = s.cfg := rfl
@[simp] theorem faultP_arg (s : State) : (faultP s).arg = s.arg := rfl
@[simp] theorem faultP_errcode (s : State) : (faultP s).errcode = s.errcode := rfl
@[simp] theorem faultP_width (s : State) : (faultP s).width = s.width := rfl
@[simp] theorem faultP_height (s : State) : (faultP s).height = s.height := rfl
@[simp] theorem faultP_orient (s : State) : (faultP s).orient = s.orient := rfl
@[simp] theorem faultP_contrast (s : State) : (faultP s).contrast = s.contrast := rfl
@[simp] theorem faultP_pixbase (s : State) : (faultP s).pixbase = s.pixbase := rfl
@[simp] theorem faultP_busy (s : State) : (faultP s).busy = s.busy := rfl
@[simp] theorem faultP_fault (s : State) : (faultP s).fault = true := rfl
@[simp] theorem faultP_dstate (s : State) : (faultP s).dstate = s.dstate := rfl
@[simp] theorem faultP_result (s : State) : (faultP s).result = s.result := rfl
@[simp] theorem faultP_packbuf (s : State) : (faultP s).packbuf = s.packbuf := rfl
@[simp] theorem faultP_pc (s : State) : (faultP s).pc = s.pc := rfl
@[simp] theorem faultP_latched (s : State) : (faultP s).latched = s.latched := rfl
@[simp] theorem faultP_fill (s : State) : (faultP s).fill = s.fill := rfl
@[simp] theorem faultP_port (s : State) : (faultP s).port = s.port := rfl
@[simp] theorem faultP_trace (s : State) : (faultP s).trace = s.trace := rfl
@[simp] theorem faultP_pix (s : State) : (faultP s).pix = s.pix := rfl
@[simp] theorem faultP_script (s : State) : (faultP s).script = s.script := rfl
@[simp] theorem faultP_answers (s : State) : (faultP s).answers = s.answers := rfl
@[simp] theorem faultP_sched (s : State) : (faultP s).sched = s.sched := rfl
@[simp] theorem faultP_draws (s : State) : (faultP s).draws = s.draws := rfl
@[simp] theorem faultP_hostReads (s : State) : (faultP s).hostReads = s.hostReads := rfl
@[simp] theorem faultP_lastError (s : State) : (faultP s).lastError = s.lastError := rfl

/-! `initEntry`. -/

@[simp] theorem initEntry_cfg (s : State) : (initEntry s).cfg = s.cfg := rfl
@[simp] theorem initEntry_arg (s : State) : (initEntry s).arg = s.arg := rfl
@[simp] theorem initEntry_errcode (s : State) : (initEntry s).errcode = s.errcode := rfl
@[simp] theorem initEntry_width (s : State) : (initEntry s).width = s.width := rfl
@[simp] theorem initEntry_height (s : State) : (initEntry s).height = s.height := rfl
@[simp] theorem initEntry_orient (s : State) : (initEntry s).orient = s.orient := rfl
@[simp] theorem initEntry_contrast (s : State) : (initEntry s).contrast = s.contrast := rfl
@[simp] theorem initEntry_pixbase (s : State) : (initEntry s).pixbase = s.pixbase := rfl
@[simp] theorem initEntry_busy (s : State) : (initEntry s).busy = s.busy := rfl
@[simp] theorem initEntry_fault (s : State) : (initEntry s).fault = s.fault := rfl
@[simp] theorem initEntry_dstate (s : State) : (initEntry s).dstate = .initializing := rfl
@[simp] theorem initEntry_result (s : State) : (initEntry s).result = s.result := rfl
@[simp] theorem initEntry_packbuf (s : State) : (initEntry s).packbuf = s.packbuf := rfl
@[simp] theorem initEntry_pc (s : State) : (initEntry s).pc = .lazyContrast := rfl
@[simp] theorem initEntry_latched (s : State) : (initEntry s).latched = s.latched := rfl
@[simp] theorem initEntry_fill (s : State) : (initEntry s).fill = s.fill := rfl
@[simp] theorem initEntry_port (s : State) : (initEntry s).port = s.port := rfl
@[simp] theorem initEntry_trace (s : State) : (initEntry s).trace = s.trace := rfl
@[simp] theorem initEntry_pix (s : State) : (initEntry s).pix = s.pix := rfl
@[simp] theorem initEntry_script (s : State) : (initEntry s).script = s.script := rfl
@[simp] theorem initEntry_answers (s : State) : (initEntry s).answers = s.answers := rfl
@[simp] theorem initEntry_sched (s : State) : (initEntry s).sched = s.sched := rfl
@[simp] theorem initEntry_draws (s : State) : (initEntry s).draws = s.draws := rfl
@[simp] theorem initEntry_hostReads (s : State) : (initEntry s).hostReads = s.hostReads := rfl
@[simp] theorem initEntry_lastError (s : State) : (initEntry s).lastError = s.lastError := rfl

/-! `writeByte`. -/

@[simp] theorem writeByte_cfg (L : Latched) (k : Nat) (s : State) : (writeByte L k s).cfg = s.cfg := rfl
@[simp] theorem writeByte_arg (L : Latched) (k : Nat) (s : State) : (writeByte L k s).arg = s.arg := rfl
@[simp] theorem writeByte_errcode (L : Latched) (k : Nat) (s : State) : (writeByte L k s).errcode = s.errcode := rfl
@[simp] theorem writeByte_width (L : Latched) (k : Nat) (s : State) : (writeByte L k s).width = s.width := rfl
@[simp] theorem writeByte_height (L : Latched) (k : Nat) (s : State) : (writeByte L k s).height = s.height := rfl
@[simp] theorem writeByte_orient (L : Latched) (k : Nat) (s : State) : (writeByte L k s).orient = s.orient := rfl
@[simp] theorem writeByte_contrast (L : Latched) (k : Nat) (s : State) : (writeByte L k s).contrast = s.contrast := rfl
@[simp] theorem writeByte_pixbase (L : Latched) (k : Nat) (s : State) : (writeByte L k s).pixbase = s.pixbase := rfl
@[simp] theorem writeByte_busy (L : Latched) (k : Nat) (s : State) : (writeByte L k s).busy = s.busy := rfl
@[simp] theorem writeByte_fault (L : Latched) (k : Nat) (s : State) : (writeByte L k s).fault = s.fault := rfl
@[simp] theorem writeByte_dstate (L : Latched) (k : Nat) (s : State) : (writeByte L k s).dstate = s.dstate := rfl
@[simp] theorem writeByte_result (L : Latched) (k : Nat) (s : State) : (writeByte L k s).result = s.result := rfl
@[simp] theorem writeByte_packbuf (L : Latched) (k : Nat) (s : State) : (writeByte L k s).packbuf = packWrite k (packByte (fillLit L s.fill) L.p k) s.packbuf := rfl
@[simp] theorem writeByte_pc (L : Latched) (k : Nat) (s : State) : (writeByte L k s).pc = s.pc := rfl
@[simp] theorem writeByte_latched (L : Latched) (k : Nat) (s : State) : (writeByte L k s).latched = s.latched := rfl
@[simp] theorem writeByte_fill (L : Latched) (k : Nat) (s : State) : (writeByte L k s).fill = { s.fill with written := s.fill.written ++ [k] } := rfl
@[simp] theorem writeByte_port (L : Latched) (k : Nat) (s : State) : (writeByte L k s).port = s.port := rfl
@[simp] theorem writeByte_trace (L : Latched) (k : Nat) (s : State) : (writeByte L k s).trace = s.trace := rfl
@[simp] theorem writeByte_pix (L : Latched) (k : Nat) (s : State) : (writeByte L k s).pix = s.pix := rfl
@[simp] theorem writeByte_script (L : Latched) (k : Nat) (s : State) : (writeByte L k s).script = s.script := rfl
@[simp] theorem writeByte_answers (L : Latched) (k : Nat) (s : State) : (writeByte L k s).answers = s.answers := rfl
@[simp] theorem writeByte_sched (L : Latched) (k : Nat) (s : State) : (writeByte L k s).sched = s.sched.tail := rfl
@[simp] theorem writeByte_draws (L : Latched) (k : Nat) (s : State) : (writeByte L k s).draws = s.draws := rfl
@[simp] theorem writeByte_hostReads (L : Latched) (k : Nat) (s : State) : (writeByte L k s).hostReads = s.hostReads := rfl
@[simp] theorem writeByte_lastError (L : Latched) (k : Nat) (s : State) : (writeByte L k s).lastError = s.lastError := rfl

/-! `resetDevice`. -/

@[simp] theorem resetDevice_cfg (d : Nat) (s : State) : (resetDevice d s).cfg = s.cfg := rfl
@[simp] theorem resetDevice_arg (d : Nat) (s : State) : (resetDevice d s).arg = State.reset.arg := rfl
@[simp] theorem resetDevice_errcode (d : Nat) (s : State) : (resetDevice d s).errcode = State.reset.errcode := rfl
@[simp] theorem resetDevice_width (d : Nat) (s : State) : (resetDevice d s).width = State.reset.width := rfl
@[simp] theorem resetDevice_height (d : Nat) (s : State) : (resetDevice d s).height = State.reset.height := rfl
@[simp] theorem resetDevice_orient (d : Nat) (s : State) : (resetDevice d s).orient = State.reset.orient := rfl
@[simp] theorem resetDevice_contrast (d : Nat) (s : State) : (resetDevice d s).contrast = State.reset.contrast := rfl
@[simp] theorem resetDevice_pixbase (d : Nat) (s : State) : (resetDevice d s).pixbase = State.reset.pixbase := rfl
@[simp] theorem resetDevice_busy (d : Nat) (s : State) : (resetDevice d s).busy = State.reset.busy := rfl
@[simp] theorem resetDevice_fault (d : Nat) (s : State) : (resetDevice d s).fault = State.reset.fault := rfl
@[simp] theorem resetDevice_dstate (d : Nat) (s : State) : (resetDevice d s).dstate = State.reset.dstate := rfl
@[simp] theorem resetDevice_result (d : Nat) (s : State) : (resetDevice d s).result = State.reset.result := rfl
@[simp] theorem resetDevice_packbuf (d : Nat) (s : State) : (resetDevice d s).packbuf = State.reset.packbuf := rfl
@[simp] theorem resetDevice_pc (d : Nat) (s : State) : (resetDevice d s).pc = State.reset.pc := rfl
@[simp] theorem resetDevice_latched (d : Nat) (s : State) : (resetDevice d s).latched = State.reset.latched := rfl
@[simp] theorem resetDevice_fill (d : Nat) (s : State) : (resetDevice d s).fill = State.reset.fill := rfl
@[simp] theorem resetDevice_port (d : Nat) (s : State) : (resetDevice d s).port = State.reset.port := rfl
@[simp] theorem resetDevice_trace (d : Nat) (s : State) : (resetDevice d s).trace = abandon d s := rfl
@[simp] theorem resetDevice_pix (d : Nat) (s : State) : (resetDevice d s).pix = s.pix := rfl
@[simp] theorem resetDevice_script (d : Nat) (s : State) : (resetDevice d s).script = s.script := rfl
@[simp] theorem resetDevice_answers (d : Nat) (s : State) : (resetDevice d s).answers = s.answers := rfl
@[simp] theorem resetDevice_sched (d : Nat) (s : State) : (resetDevice d s).sched = s.sched := rfl
@[simp] theorem resetDevice_draws (d : Nat) (s : State) : (resetDevice d s).draws = s.draws := rfl
@[simp] theorem resetDevice_hostReads (d : Nat) (s : State) : (resetDevice d s).hostReads = s.hostReads := rfl
@[simp] theorem resetDevice_lastError (d : Nat) (s : State) : (resetDevice d s).lastError = State.reset.lastError := rfl

end Sys2Proof.Machine
end

