-- ==== Sys2Proof/Laws/Ops.lean ====
section
/-! SUPPORT. What each shared operation can do, said once: the start of an operation, the check step, a transaction and
what follows it, the pack function, and one step of the fill. -/

namespace Sys2Proof.Machine

/-! Start and check. -/

/-- What `opTurn` can answer with a next state: the CMD write is ignored, it starts the operation, or the operation is
running and takes the step `k` says. -/
theorem opTurn_cases {i : Instr} {cmd : Word} {s t : State}
    {k : Pc → Latched → Host.Outcome State Fault Refusal} (h : opTurn i cmd s k = .next t) :
    (s.busy = false ∧ s.fault = true ∧ t = s) ∨
    (s.busy = false ∧ s.fault = false ∧ t = startOp cmd s) ∨
    (∃ L, Running s i L s.pc ∧ k s.pc L = .next t) := by
  unfold opTurn at h
  split at h
  · rename_i hb
    split at h
    · rename_i L hL
      split at h
      · rename_i hi
        exact .inr (.inr ⟨L, ⟨hb, hL, hi, rfl⟩, h⟩)
      · cases h
    · cases h
  · rename_i hb
    split at h
    · rename_i hf
      cases h
      exact .inl ⟨by simpa using hb, hf, rfl⟩
    · rename_i hf
      cases h
      exact .inr (.inl ⟨by simpa using hb, by simpa using hf, rfl⟩)

/-- A running operation takes its step at `pc`. -/
theorem opTurn_running {i : Instr} {cmd : Word} {s : State} {L : Latched} {pc : Pc}
    (k : Pc → Latched → Host.Outcome State Fault Refusal) (h : Running s i L pc) : opTurn i cmd s k = k pc L := by
  obtain ⟨hb, hL, hi, hp⟩ := h
  simp [opTurn, hb, hL, hi, hp]

/-- With no operation running and no fault, the operation starts. -/
theorem opTurn_idle {i : Instr} {cmd : Word} {s : State} (k : Pc → Latched → Host.Outcome State Fault Refusal)
    (hb : s.busy = false) (hf : s.fault = false) : opTurn i cmd s k = .next (startOp cmd s) := by
  simp [opTurn, hb, hf]

theorem checked_cases (e : Option OpError) (go : State → State) (s : State) :
    (∃ x, e = some x ∧ checked e go s = raise x s) ∨ (e = none ∧ checked e go s = go s) := by
  cases e with
  | none => exact .inr ⟨rfl, rfl⟩
  | some x => exact .inl ⟨x, rfl, rfl⟩

/-! A transaction. -/

/-- `advance` moves to the next transaction, ends the operation, or finds no transaction step running. -/
theorem advance_cases (s : State) :
    advance s = s ∨
    (∃ L k, s.latched = some L ∧ s.pc = .tx k ∧ k < (slots (decodeCmd L.cmd) L).length ∧
      advance s = { s with pc := .tx (k + 1) }) ∨
    (∃ L k, s.latched = some L ∧ s.pc = .tx k ∧ (slots (decodeCmd L.cmd) L).length ≤ k ∧
      advance s = endOp none (finish (decodeCmd L.cmd) L s)) ∨
    (s.pc = .burst ∧ advance s = endOp none s) := by
  unfold advance
  split
  · exact .inl rfl
  · rename_i L hL
    split
    · rename_i k hk
      split
      · exact .inr (.inl ⟨L, k, hL, hk, by assumption, rfl⟩)
      · exact .inr (.inr (.inl ⟨L, k, hL, hk, by omega, rfl⟩))
    · exact .inr (.inr (.inr ⟨by assumption, rfl⟩))
    all_goals exact .inl rfl

/-- `finish` writes DSTATE only. -/
theorem finish_eq (op : Instr) (L : Latched) (s : State) :
    finish op L s = { s with dstate := (finish op L s).dstate } := by
  unfold finish
  split
  · rfl
  · split
    · split <;> rfl
    · rfl

/-- A transaction waits for its answer, or it stands in the trace and the operation advances or ends with BusError. -/
theorem transact_cases (phase : Phase) (bytes : List Byte) (s : State) :
    (s.answers = [] ∧ transact phase bytes s = { s with port := some ⟨phase, bytes⟩ }) ∨
    (∃ rest, s.answers = .ok :: rest ∧ transact phase bytes s =
      advance { s with port := none, answers := rest, trace := s.trace ++ [⟨phase, bytes, .ok⟩] }) ∨
    (∃ code d rest, s.answers = .err code d :: rest ∧ transact phase bytes s =
      raise (.bus code) { s with
        port := none, answers := rest, trace := s.trace ++ [⟨phase, bytes, .err code (min d bytes.length)⟩] }) := by
  unfold transact
  split
  · rename_i h
    exact .inl ⟨h, rfl⟩
  · rename_i a rest h
    cases a with
    | ok => exact .inr (.inl ⟨rest, h, rfl⟩)
    | err code d => exact .inr (.inr ⟨code, d, rest, h, rfl⟩)

theorem txTurn_cases {l : List Slot} {k : Nat} {s t : State} (h : txTurn l k s = .next t) :
    ∃ slot, slotAt l k = some slot ∧ t = transact .command [slotByte s.cfg.wire slot] s := by
  unfold txTurn at h
  split at h
  · rename_i slot hs
    cases h
    exact ⟨slot, hs, rfl⟩
  · cases h

/-- A step of a sequence names a slot exactly from 1 to its length. -/
theorem slotAt_isSome {l : List Slot} {k : Nat} : (∃ slot, slotAt l k = some slot) ↔ 1 ≤ k ∧ k ≤ l.length := by
  cases k with
  | zero => simp [slotAt]
  | succ k =>
    simp only [slotAt, ← Option.isSome_iff_exists, isSome_getElem?]
    omega

/-! The pack function. -/

/-- Bit `i` of a packed byte is the bit it was made of. -/
theorem byteOf_getLsbD (f : Nat → Bool) {i : Nat} (hi : i < 8) : (byteOf f).getLsbD i = f i := by
  have hi' : i = 0 ∨ i = 1 ∨ i = 2 ∨ i = 3 ∨ i = 4 ∨ i = 5 ∨ i = 6 ∨ i = 7 := by omega
  have bits : ∀ b0 b1 b2 b3 b4 b5 b6 b7 : Bool, ∀ i : Fin 8,
      (BitVec.ofBool b7 ++ BitVec.ofBool b6 ++ BitVec.ofBool b5 ++ BitVec.ofBool b4 ++ BitVec.ofBool b3
        ++ BitVec.ofBool b2 ++ BitVec.ofBool b1 ++ BitVec.ofBool b0 : Byte).getLsbD i =
        (match i with | 0 => b0 | 1 => b1 | 2 => b2 | 3 => b3 | 4 => b4 | 5 => b5 | 6 => b6 | 7 => b7) := by decide
  have k := bits (f 0) (f 1) (f 2) (f 3) (f 4) (f 5) (f 6) (f 7) ⟨i, hi⟩
  rcases hi' with rfl | rfl | rfl | rfl | rfl | rfl | rfl | rfl <;> exact k

@[simp] theorem pack_length (lit : Nat → Nat → Bool) (w h : Nat) : (pack lit w h).length = w * (h / 8) := by simp [pack]

theorem pack_getElem? (lit : Nat → Nat → Bool) (w h : Nat) {k : Nat} (hk : k < w * (h / 8)) :
    (pack lit w h)[k]? = some (packByte lit (h / 8) k) := by simp [pack, hk]

/-! The fill. -/

theorem mem_fillActs_sample {L : Latched} {f : Fill} {j : Nat} :
    FillAct.sample j ∈ fillActs L f ↔ j < L.samples ∧ Cells.lookup j f.read = none := by
  simp [fillActs]

theorem mem_fillActs_byte {L : Latched} {f : Fill} {k : Nat} :
    FillAct.byte k ∈ fillActs L f ↔ k < L.n ∧ k ∉ f.written ∧ byteReady L f k = true := by
  simp [fillActs]

/-- The schedule picks one of the actions there are, and finds none only where there is none. -/
theorem pickAct_mem {acts : List FillAct} {sched : List Nat} {a : FillAct} (h : pickAct acts sched = some a) :
    a ∈ acts := by
  cases sched with
  | nil => exact List.mem_of_getElem? h
  | cons n rest => exact List.mem_of_getElem? h

theorem pickAct_none {acts : List FillAct} {sched : List Nat} : pickAct acts sched = none ↔ acts = [] := by
  cases sched with
  | nil => cases acts <;> simp [pickAct]
  | cons n rest =>
    cases acts with
    | nil => simp [pickAct]
    | cons a acts =>
      have hlt : n % (a :: acts).length < (a :: acts).length := Nat.mod_lt _ (Nat.succ_pos _)
      refine ⟨fun h => ?_, fun h => by cases h⟩
      rw [show pickAct (a :: acts) (n :: rest) = (a :: acts)[n % (a :: acts).length]? from rfl,
        List.getElem?_eq_getElem hlt] at h
      cases h

theorem fillNext_cases (done : State → State) (L : Latched) (s : State) :
    (fillActs L s.fill = [] ∧ fillNext done L s = done s) ∨ (fillActs L s.fill ≠ [] ∧ fillNext done L s = s) := by
  unfold fillNext
  split
  · rename_i h
    exact .inl ⟨List.isEmpty_iff.1 h, rfl⟩
  · rename_i h
    exact .inr ⟨fun hn => h (List.isEmpty_iff.2 hn), rfl⟩

/-- What one step of the fill can do. -/
theorem fillTurn_cases (done : State → State) (L : Latched) (s : State) :
    (fillActs L s.fill = [] ∧ fillTurn done L s = done s) ∨
    (∃ j, pickAct (fillActs L s.fill) s.sched = some (.sample j) ∧
      ((pixAnswer s.cfg.pixMap (L.sampleAddr j) = .silent ∧ fillTurn done L s = s) ∨
       (pixAnswer s.cfg.pixMap (L.sampleAddr j) = .denied ∧ fillTurn done L s = raise (.mem (L.sampleAddr j)) s) ∨
       (pixAnswer s.cfg.pixMap (L.sampleAddr j) = .admitted ∧
         fillTurn done L s = fillNext done L (readSample L j s)))) ∨
    (∃ k, pickAct (fillActs L s.fill) s.sched = some (.byte k) ∧
      fillTurn done L s = fillNext done L (writeByte L k s)) := by
  unfold fillTurn
  split
  · rename_i j hj
    refine .inr (.inl ⟨j, hj, ?_⟩)
    split
    · exact .inr (.inr ⟨by assumption, rfl⟩)
    · exact .inr (.inl ⟨by assumption, rfl⟩)
    · exact .inl ⟨by assumption, rfl⟩
  · rename_i k hk
    exact .inr (.inr ⟨k, hk, rfl⟩)
  · rename_i hn
    exact .inl ⟨pickAct_none.1 hn, rfl⟩

/-- Reading a sample appends it to the record, with some lit value, takes one schedule entry, and at most draws a free
value: the value is pixel memory's unless the sample was raced. -/
theorem readSample_eq (L : Latched) (j : Nat) (s : State) :
    ∃ b d, readSample L j s = { s with
      fill := { s.fill with read := s.fill.read ++ [(j, b)] }, draws := d, sched := s.sched.tail } ∧
      (j ∉ s.fill.raced → b = truthy (Memory.read16 s.pix (L.sampleAddr j)) ∧ d = s.draws) := by
  unfold readSample
  split
  · rename_i h
    exact ⟨_, _, rfl, fun hn => absurd (by simpa using h) hn⟩
  · exact ⟨_, s.draws, rfl, fun _ => ⟨rfl, rfl⟩⟩

/-- The burst is one Data transaction of N bytes. -/
theorem sendBurst_eq (L : Latched) (s : State) :
    ∃ bytes d, bytes.length = L.n ∧ sendBurst L s = transact .data bytes { s with draws := d } :=
  ⟨_, _, packRead_length _ _ _ _, rfl⟩

end Sys2Proof.Machine
end

