-- ==== Sys2Proof/Laws/Exec.lean ====
section
/-! SUPPORT. What an instruction, the engine, a host access and a step can do, said once each: invariants are proved
from these and not by unfolding `exec` or `step`. -/

namespace Sys2Proof.Machine

/-- The wire rows all emit their own constant. -/
theorem exec_ofWire (n : WireName) (s : State) : exec (.ofWire n) s = .next (emit n s) := by cases n <;> rfl

/-- Everything the engine can do in a step of a running operation, beside what a transaction does. -/
inductive OpStep (i : Instr) (L : Latched) (s : State) : State → Prop where
  | error (e : OpError) : s.pc = .check → OpStep i L s (raise e s)
  | initEntry : i = .init → s.pc = .check → initError s L = none → OpStep i L s (Machine.initEntry s)
  | window : i = .setWindow → s.pc = .check → windowError s L = none → OpStep i L s { s with pc := .tx 1 }
  | contrast : i = .setContrast → s.pc = .check → notInitialized s = none → OpStep i L s { s with pc := .tx 1 }
  | blank : i = .setBlank → s.pc = .check → notInitialized s = none → OpStep i L s { s with pc := .tx 1 }
  | buffer : i = .pack ∨ i = .writeFrame → s.pc = .check → bufferError s.cfg L = none →
      OpStep i L s { s with pc := .fill }
  | lazyContrast : i = .init → s.pc = .lazyContrast → OpStep i L s (initContrast L s)
  | tx (k : Nat) (slot : Slot) : s.pc = .tx k → slotAt (slots i L) k = some slot →
      OpStep i L s (transact .command [slotByte s.cfg.wire slot] s)
  | packFill : i = .pack → s.pc = .fill → OpStep i L s (fillTurn (endOp none) L s)
  | frameFill : i = .writeFrame → s.pc = .fill → OpStep i L s (fillTurn (fun s => { s with pc := .burst }) L s)
  | burst : i = .writeFrame → s.pc = .burst → OpStep i L s (sendBurst L s)

/-- Everything `exec` can answer with a next state. -/
theorem exec_cases {i : Instr} {s t : State} (h : exec i s = .next t) :
    (s.busy = false ∧ s.fault = true ∧ t = s) ∨
    (∃ cmd, s.busy = false ∧ s.fault = false ∧ encodeCmd i = some cmd ∧ t = startOp cmd s) ∨
    (∃ L, Running s i L s.pc ∧ OpStep i L s t) ∨
    (∃ n, i = .ofWire n ∧ t = emit n s) ∨
    (∃ L, i = .dataBurst ∧ s.latched = some L ∧ t = sendBurst L s) := by
  have op : ∀ {cmd : Word} {k}, encodeCmd i = some cmd → opTurn i cmd s k = .next t →
      (∀ L, Running s i L s.pc → k s.pc L = .next t → OpStep i L s t) →
      (s.busy = false ∧ s.fault = true ∧ t = s) ∨
      (∃ cmd, s.busy = false ∧ s.fault = false ∧ encodeCmd i = some cmd ∧ t = startOp cmd s) ∨
      (∃ L, Running s i L s.pc ∧ OpStep i L s t) ∨
      (∃ n, i = .ofWire n ∧ t = emit n s) ∨
      (∃ L, i = .dataBurst ∧ s.latched = some L ∧ t = sendBurst L s) := by
    intro cmd k he ho hk
    rcases opTurn_cases ho with h | ⟨hb, hf, rfl⟩ | ⟨L, hr, hn⟩
    · exact .inl h
    · exact .inr (.inl ⟨cmd, hb, hf, he, rfl⟩)
    · exact .inr (.inr (.inl ⟨L, hr, hk L hr hn⟩))
  cases i with
  | init =>
    replace h : execInit s = .next t := h
    unfold execInit at h
    refine op rfl h fun L hr hn => ?_
    cases hp : s.pc <;> simp only [hp] at hn <;> try cases hn
    · rcases checked_cases (initError s L) Machine.initEntry s with ⟨e, -, he⟩ | ⟨h0, he⟩ <;> rw [he]
      · exact .error e hp
      · exact .initEntry rfl hp h0
    · exact .lazyContrast rfl hp
    · obtain ⟨slot, hs, rfl⟩ := txTurn_cases hn
      exact .tx _ slot hp hs
  | setWindow =>
    replace h : execSetWindow s = .next t := h
    unfold execSetWindow at h
    refine op rfl h fun L hr hn => ?_
    cases hp : s.pc <;> simp only [hp] at hn <;> try cases hn
    · rcases checked_cases (windowError s L) (fun s => { s with pc := .tx 1 }) s with ⟨e, -, he⟩ | ⟨h0, he⟩ <;> rw [he]
      · exact .error e hp
      · exact .window rfl hp h0
    · obtain ⟨slot, hs, rfl⟩ := txTurn_cases hn
      exact .tx _ slot hp hs
  | pack =>
    replace h : execPack s = .next t := h
    unfold execPack at h
    refine op rfl h fun L hr hn => ?_
    cases hp : s.pc <;> simp only [hp] at hn <;> try cases hn
    · rcases checked_cases (bufferError s.cfg L) (fun s => { s with pc := .fill }) s with ⟨e, -, he⟩ | ⟨h0, he⟩ <;> rw [he]
      · exact .error e hp
      · exact .buffer (.inl rfl) hp h0
    · exact .packFill rfl hp
  | writeFrame =>
    replace h : execWriteFrame s = .next t := h
    unfold execWriteFrame at h
    refine op rfl h fun L hr hn => ?_
    cases hp : s.pc <;> simp only [hp] at hn <;> try cases hn
    · rcases checked_cases (bufferError s.cfg L) (fun s => { s with pc := .fill }) s with ⟨e, -, he⟩ | ⟨h0, he⟩ <;> rw [he]
      · exact .error e hp
      · exact .buffer (.inr rfl) hp h0
    · exact .frameFill rfl hp
    · exact .burst rfl hp
  | setContrast =>
    replace h : execSetContrast s = .next t := h
    unfold execSetContrast at h
    refine op rfl h fun L hr hn => ?_
    cases hp : s.pc <;> simp only [hp] at hn <;> try cases hn
    · rcases checked_cases (notInitialized s) (fun s => { s with pc := .tx 1 }) s with ⟨e, -, he⟩ | ⟨h0, he⟩ <;> rw [he]
      · exact .error e hp
      · exact .contrast rfl hp h0
    · obtain ⟨slot, hs, rfl⟩ := txTurn_cases hn
      exact .tx _ slot hp hs
  | setBlank =>
    replace h : execSetBlank s = .next t := h
    unfold execSetBlank at h
    refine op rfl h fun L hr hn => ?_
    cases hp : s.pc <;> simp only [hp] at hn <;> try cases hn
    · rcases checked_cases (notInitialized s) (fun s => { s with pc := .tx 1 }) s with ⟨e, -, he⟩ | ⟨h0, he⟩ <;> rw [he]
      · exact .error e hp
      · exact .blank rfl hp h0
    · obtain ⟨slot, hs, rfl⟩ := txTurn_cases hn
      exact .tx _ slot hp hs
  | illegal rsvd opcode =>
    replace h : execIllegal rsvd opcode s = .next t := h
    unfold execIllegal at h
    refine op rfl h fun L hr hn => ?_
    cases hp : s.pc <;> simp only [hp] at hn <;> try cases hn
    exact .error _ hp
  | dataBurst =>
    simp only [exec, execDataBurst] at h
    split at h
    · rename_i L hL
      cases h
      exact .inr (.inr (.inr (.inr ⟨L, rfl, hL, rfl⟩)))
    · cases h
  | _ =>
    cases h
    exact .inr (.inr (.inr (.inl ⟨_, Eq.symm (by rfl : Instr.ofWire _ = _), rfl⟩)))

/-- A host operation is running at `pc`: its step. -/
theorem engineTurn_cases {s t : State} (h : engineTurn s = .next t) :
    (s.busy = false ∧ t = s) ∨ (s.busy = true ∧ ∃ i, fetch s = some i ∧ exec i s = .next t) := by
  unfold engineTurn at h
  split at h
  · rename_i hb
    split at h
    · rename_i i hi
      exact .inr ⟨hb, i, hi, h⟩
    · cases h
  · rename_i hb
    cases h
    exact .inl ⟨by simpa using hb, rfl⟩

/-- What a host write can do: nothing while FAULT = 1, the protocol fault, the CMD write, or a register write. -/
theorem hostWrite_cases {width off : Nat} {v : Word} {s t : State} (h : hostWrite width off v s = .next t) :
    (s.fault = true ∧ t = s) ∨ (s.fault = false ∧ t = faultP s) ∨
    (s.fault = false ∧ s.busy = false ∧ regAt width off = some .cmd ∧ exec (decodeCmd v) s = .next t) ∨
    (s.fault = false ∧ s.busy = false ∧ ∃ r, regAt width off = some r ∧ r ≠ .cmd ∧ writeViolates r v s = false ∧
      storeReg r v s = .next t) := by
  unfold hostWrite at h
  split at h
  · cases h
    exact .inl ⟨by assumption, rfl⟩
  · rename_i hf
    have hf : s.fault = false := by simpa using hf
    split at h
    · cases h
      exact .inr (.inl ⟨hf, rfl⟩)
    · rename_i r hr
      split at h
      · cases h
        exact .inr (.inl ⟨hf, rfl⟩)
      · rename_i hv
        have hv : writeViolates r v s = false := by simpa using hv
        have hb : s.busy = false := by
          cases hb : s.busy
          · rfl
          · simp [writeViolates, hb] at hv
        by_cases hc : r = .cmd
        · subst hc
          exact .inr (.inr (.inl ⟨hf, hb, hr, h⟩))
        · exact .inr (.inr (.inr ⟨hf, hb, r, hr, hc, hv, h⟩))

/-- A host read changes at most FAULT, the record of reads and the count of free values. -/
theorem hostReadAt_eq (width addr : Nat) (s : State) :
    ∃ f r d, hostReadAt width addr s = { s with fault := f, hostReads := r, draws := d } ∧
      (s.fault = true → f = true) := by
  unfold hostReadAt
  split
  · unfold hostRead
    split
    · exact ⟨true, s.hostReads, s.draws, rfl, fun _ => rfl⟩
    · exact ⟨s.fault, _, _, rfl, id⟩
  · exact ⟨s.fault, s.hostReads, s.draws, rfl, id⟩

/-- What a race on a sample does: it marks the sample, or redraws it. -/
theorem raceSample_cases (L : Latched) (j : Nat) (s : State) :
    (Cells.lookup j s.fill.read = none ∧
      raceSample L j s = { s with fill := { s.fill with raced := s.fill.raced ++ [j] } }) ∨
    ((Cells.lookup j s.fill.read).isSome = true ∧ raceSample L j s = redrawSample L j s) := by
  unfold raceSample
  cases h : Cells.lookup j s.fill.read
  · exact .inl ⟨rfl, rfl⟩
  · exact .inr ⟨rfl, rfl⟩

/-- When a host write to pixel memory races, and with which sample. -/
theorem racedSample_some {a : Nat} {s : State} {L : Latched} {j : Nat} (h : racedSample a s = some (L, j)) :
    s.busy = true ∧ s.latched = some L ∧ (decodeCmd L.cmd = .pack ∨ decodeCmd L.cmd = .writeFrame) ∧
    j < L.samples ∧ (a = L.sampleAddr j ∨ a = L.sampleAddr j + 1) := by
  unfold racedSample at h
  split at h
  · cases h
  · rename_i L' hL
    split at h
    · rename_i hc
      obtain ⟨hb, ho, h1, h2⟩ := hc
      cases h
      unfold Latched.sampleAddr
      exact ⟨hb, hL, ho, by omega, by omega⟩
    · cases h

/-- Everything a host write to pixel memory can do: it writes the byte, and where it races it also marks or redraws the
sample. -/
theorem hostPixWrite_cases (a : Word) (b : Byte) (s : State) :
    hostPixWrite a b s = { s with pix := Memory.write s.pix a.toNat b } ∨
    ∃ L j, s.busy = true ∧ s.latched = some L ∧ (decodeCmd L.cmd = .pack ∨ decodeCmd L.cmd = .writeFrame) ∧
      j < L.samples ∧ hostPixWrite a b s = raceSample L j { s with pix := Memory.write s.pix a.toNat b } := by
  unfold hostPixWrite
  split
  · rename_i L j hj
    obtain ⟨hb, hL, ho, hlt, -⟩ := racedSample_some hj
    exact .inr ⟨L, j, hb, hL, ho, hlt, rfl⟩
  · exact .inl rfl

/-- The frame of a host write to pixel memory: while no operation runs it changes pixel memory alone, and otherwise at
most the progress of the fill, the count of free values, PACKBUF and the bytes of an outstanding burst as well. -/
theorem hostPixWrite_eq (a : Word) (b : Byte) (s : State) :
    ∃ f d m p, hostPixWrite a b s =
      { s with pix := Memory.write s.pix a.toNat b, fill := f, draws := d, packbuf := m, port := p } ∧
      (s.busy = false → f = s.fill ∧ d = s.draws ∧ m = s.packbuf ∧ p = s.port) ∧ (p.isSome = s.port.isSome) ∧
      (Packbuf.wf s.packbuf → Packbuf.wf m) := by
  rcases hostPixWrite_cases a b s with h | ⟨L, j, hb, -, -, -, h⟩
  · exact ⟨_, _, _, _, h, fun _ => ⟨rfl, rfl, rfl, rfl⟩, rfl, id⟩
  · rcases raceSample_cases L j { s with pix := Memory.write s.pix a.toNat b } with ⟨-, hr⟩ | ⟨-, hr⟩
    · exact ⟨_, _, _, _, h.trans hr, fun h0 => (by rw [hb] at h0; cases h0), rfl, id⟩
    · refine ⟨_, _, _, _, h.trans hr, fun h0 => (by rw [hb] at h0; cases h0), Option.isSome_map, fun hw => ?_⟩
      split
      · exact packWrite_keeps_wf hw _ _
      · exact hw

/-- Everything a step can do: the engine's turn, a host read, a host write, a write to pixel memory, an answer of the
transport, or a reset. `u` is the state with the script as the step leaves it. -/
theorem step_cases {s t : State} (h : step s = .next t) :
    ∃ rest, let u := { s with script := rest }
    (engineTurn u = .next t) ∨
    (∃ width addr, t = hostReadAt width addr u) ∨
    (∃ width addr v, hostWriteAt width addr v u = .next t ∧
      (s.script = .wr width addr v :: rest ∨ (s.script = .wrTemp width addr :: rest ∧ v = temp s))) ∨
    (∃ a b, s.script = .pixWrite a b :: rest ∧ t = hostPixWrite a b u) ∨
    (∃ a, s.script = .answer a :: rest ∧ t = { u with answers := s.answers ++ [a] }) ∨
    (∃ d, s.script = .reset d :: rest ∧ t = resetDevice d u) := by
  unfold step at h
  split at h
  · exact ⟨s.script, .inl h⟩
  · exact ⟨_, .inl h⟩
  · split at h
    · exact ⟨s.script, .inl h⟩
    · cases h
      exact ⟨_, .inr (.inl ⟨_, _, rfl⟩)⟩
  · cases h
    exact ⟨_, .inr (.inl ⟨_, _, rfl⟩)⟩
  · exact ⟨_, .inr (.inr (.inl ⟨_, _, _, h, .inl (by assumption)⟩))⟩
  · exact ⟨_, .inr (.inr (.inl ⟨_, _, _, h, .inr ⟨by assumption, rfl⟩⟩))⟩
  · cases h
    exact ⟨_, .inr (.inr (.inr (.inl ⟨_, _, by assumption, rfl⟩)))⟩
  · cases h
    exact ⟨_, .inr (.inr (.inr (.inr (.inl ⟨_, by assumption, rfl⟩))))⟩
  · cases h
    exact ⟨_, .inr (.inr (.inr (.inr (.inr ⟨_, by assumption, rfl⟩))))⟩

end Sys2Proof.Machine
end

