-- ==== Sys2Proof/Laws/Words.lean ====
section
/-! SUPPORT. The bit fields of a CMD word: joined they are the word, and each comes back out of the join. -/

namespace Sys2Proof

theorem append_toNat (r : BitVec 28) (o : BitVec 4) : (r ++ o).toNat = r.toNat * 16 + o.toNat := by
  rw [BitVec.toNat_append, ← Nat.shiftLeft_add_eq_or_of_lt o.isLt, Nat.shiftLeft_eq]

theorem cmdRsvd_toNat (w : Word) : (cmdRsvd w).toNat = w.toNat / 16 := by
  have := w.isLt
  simp only [cmdRsvd, BitVec.extractLsb'_toNat, Nat.shiftRight_eq_div_pow]
  omega

theorem cmdOpcode_toNat (w : Word) : (cmdOpcode w).toNat = w.toNat % 16 := by
  simp [cmdOpcode, BitVec.extractLsb'_toNat]

@[simp] theorem fields_append (w : Word) : cmdRsvd w ++ cmdOpcode w = w := by
  apply BitVec.eq_of_toNat_eq
  have h := append_toNat (cmdRsvd w) (cmdOpcode w)
  rw [cmdRsvd_toNat, cmdOpcode_toNat] at h
  have : (cmdRsvd w ++ cmdOpcode w).toNat = w.toNat := by omega
  exact this

@[simp] theorem cmdRsvd_append (r : BitVec 28) (o : BitVec 4) : cmdRsvd (r ++ o) = r := by
  apply BitVec.eq_of_toNat_eq
  have h := append_toNat r o
  have := o.isLt
  rw [cmdRsvd_toNat]
  have h' : BitVec.toNat (w := 32) (r ++ o) = r.toNat * 16 + o.toNat := h
  omega

@[simp] theorem cmdOpcode_append (r : BitVec 28) (o : BitVec 4) : cmdOpcode (r ++ o) = o := by
  apply BitVec.eq_of_toNat_eq
  have h := append_toNat r o
  have := o.isLt
  rw [cmdOpcode_toNat]
  have h' : BitVec.toNat (w := 32) (r ++ o) = r.toNat * 16 + o.toNat := h
  omega

/-- Two words with the same fields are the same word. -/
theorem word_ext {v w : Word} (hr : cmdRsvd v = cmdRsvd w) (ho : cmdOpcode v = cmdOpcode w) : v = w := by
  rw [← fields_append v, ← fields_append w, hr, ho]

/-- The value of a word put together from its bytes. -/
theorem wordOfBytes_toNat (b0 b1 b2 b3 : Byte) : (wordOfBytes b0 b1 b2 b3).toNat =
    b0.toNat + 2 ^ 8 * b1.toNat + 2 ^ 16 * b2.toNat + 2 ^ 24 * b3.toNat := by
  have h0 := b0.isLt
  have h1 := b1.isLt
  have h2 := b2.isLt
  have join : ∀ {n : Nat} (x : BitVec n) (y : Byte), (x ++ y).toNat = x.toNat * 256 + y.toNat := fun x y => by
    rw [BitVec.toNat_append, ← Nat.shiftLeft_add_eq_or_of_lt y.isLt, Nat.shiftLeft_eq]
  have h : (b3 ++ b2 ++ b1 ++ b0).toNat = ((b3.toNat * 256 + b2.toNat) * 256 + b1.toNat) * 256 + b0.toNat := by
    rw [join, join, join]
  have h' : (wordOfBytes b0 b1 b2 b3).toNat = ((b3.toNat * 256 + b2.toNat) * 256 + b1.toNat) * 256 + b0.toNat := h
  omega

theorem byteOfWord_toNat (w : Word) (k : Nat) : (byteOfWord w k).toNat = w.toNat / 2 ^ (8 * k) % 256 := by
  simp [byteOfWord, BitVec.extractLsb'_toNat, Nat.shiftRight_eq_div_pow]

/-- The bytes of a word, put together again, are the word. -/
@[simp] theorem wordOfBytes_byteOfWord (w : Word) :
    wordOfBytes (byteOfWord w 0) (byteOfWord w 1) (byteOfWord w 2) (byteOfWord w 3) = w := by
  apply BitVec.eq_of_toNat_eq
  have := w.isLt
  rw [wordOfBytes_toNat, byteOfWord_toNat, byteOfWord_toNat, byteOfWord_toNat, byteOfWord_toNat]
  simp only [Nat.mul_zero, Nat.pow_zero, Nat.div_one, Nat.mul_one]
  omega

end Sys2Proof
end

