-- ==== Sys2Proof/Laws/PerInstr.lean ====
section
/-! SUPPORT. Statements about every instruction as syntax, one lemma for each constructor. -/

namespace Sys2Proof.Laws.CodeFormat

/-- The code of an instruction has the length of its format (30_encoding.md R80): four bytes for a CMD word, one for a
Command transaction, and the frame's for the data burst; and it is a row of the wire exactly when its format is WC. -/
def Statement (i : Instr) : Prop :=
  (∀ (w : Wire) (frame : List Byte), (encode w frame i).length =
    match i.format with
    | .h32 => 4
    | .wc => 1
    | .wd => frame.length) ∧
  (i.wireName.isSome = true ↔ i.format = .wc)

theorem init : Statement .init := ⟨fun _ _ => rfl, by decide⟩

theorem setWindow : Statement .setWindow := ⟨fun _ _ => rfl, by decide⟩

theorem pack : Statement .pack := ⟨fun _ _ => rfl, by decide⟩

theorem writeFrame : Statement .writeFrame := ⟨fun _ _ => rfl, by decide⟩

theorem setContrast : Statement .setContrast := ⟨fun _ _ => rfl, by decide⟩

theorem setBlank : Statement .setBlank := ⟨fun _ _ => rfl, by decide⟩

theorem illegal (rsvd : BitVec 28) (opcode : BitVec 4) : Statement (.illegal rsvd opcode) := ⟨fun _ _ => rfl, by simp [Instr.wireName, Instr.format]⟩

theorem wireDisplayOff : Statement .wireDisplayOff := ⟨fun _ _ => rfl, by decide⟩

theorem wireSetClockDiv : Statement .wireSetClockDiv := ⟨fun _ _ => rfl, by decide⟩

theorem wireClockDivArg : Statement .wireClockDivArg := ⟨fun _ _ => rfl, by decide⟩

theorem wireSetMux : Statement .wireSetMux := ⟨fun _ _ => rfl, by decide⟩

theorem wireSetDisplayOffset : Statement .wireSetDisplayOffset := ⟨fun _ _ => rfl, by decide⟩

theorem wireSetStartLine : Statement .wireSetStartLine := ⟨fun _ _ => rfl, by decide⟩

theorem wireSetChargePump : Statement .wireSetChargePump := ⟨fun _ _ => rfl, by decide⟩

theorem wireChargePumpOnArg : Statement .wireChargePumpOnArg := ⟨fun _ _ => rfl, by decide⟩

theorem wireSegRemapNormal : Statement .wireSegRemapNormal := ⟨fun _ _ => rfl, by decide⟩

theorem wireSegRemapMirrored : Statement .wireSegRemapMirrored := ⟨fun _ _ => rfl, by decide⟩

theorem wireComScanNormal : Statement .wireComScanNormal := ⟨fun _ _ => rfl, by decide⟩

theorem wireComScanMirrored : Statement .wireComScanMirrored := ⟨fun _ _ => rfl, by decide⟩

theorem wireSetComPins : Statement .wireSetComPins := ⟨fun _ _ => rfl, by decide⟩

theorem wireComPinsAltArg : Statement .wireComPinsAltArg := ⟨fun _ _ => rfl, by decide⟩

theorem wireComPinsSeqArg : Statement .wireComPinsSeqArg := ⟨fun _ _ => rfl, by decide⟩

theorem wireSetMemMode : Statement .wireSetMemMode := ⟨fun _ _ => rfl, by decide⟩

theorem wireMemModeVerticalArg : Statement .wireMemModeVerticalArg := ⟨fun _ _ => rfl, by decide⟩

theorem wireSetPrecharge : Statement .wireSetPrecharge := ⟨fun _ _ => rfl, by decide⟩

theorem wirePrechargeArg : Statement .wirePrechargeArg := ⟨fun _ _ => rfl, by decide⟩

theorem wireSetVcomh : Statement .wireSetVcomh := ⟨fun _ _ => rfl, by decide⟩

theorem wireVcomhArg : Statement .wireVcomhArg := ⟨fun _ _ => rfl, by decide⟩

theorem wireEntireDisplayResume : Statement .wireEntireDisplayResume := ⟨fun _ _ => rfl, by decide⟩

theorem wireNormalDisplay : Statement .wireNormalDisplay := ⟨fun _ _ => rfl, by decide⟩

theorem wireDisplayOn : Statement .wireDisplayOn := ⟨fun _ _ => rfl, by decide⟩

theorem wireSetContrastCmd : Statement .wireSetContrastCmd := ⟨fun _ _ => rfl, by decide⟩

theorem wireSetColumnRange : Statement .wireSetColumnRange := ⟨fun _ _ => rfl, by decide⟩

theorem wireSetPageRange : Statement .wireSetPageRange := ⟨fun _ _ => rfl, by decide⟩

theorem dataBurst : Statement .dataBurst := ⟨fun _ _ => rfl, by decide⟩

end Sys2Proof.Laws.CodeFormat
end

