-- ==== Sys2Proof/Laws/Turns.lean ====
section
/-! SUPPORT. One turn of the engine: the step of a transaction, what a turn can do, what it leaves alone; the geometries
that the checks let through; and the byte lists of INIT and SET_WINDOW as their sequences. -/

namespace Sys2Proof.Machine

/-! A transaction step. -/

/-- An operation at its transaction `t_k` sends the byte of slot `k`. -/
theorem exec_tx {op : Instr} {s : State} {L : Latched} {k : Nat} {slot : Slot} (h : Running s op L (.tx k))
    (hs : slotAt (slots op L) k = some slot) :
    exec op s = .next (transact .command [slotByte s.cfg.wire slot] s) := by
  have hne : slots op L ≠ [] := by
    intro he
    rw [he] at hs
    cases k <;> simp [slotAt] at hs
  have key : txTurn (slots op L) k s = .next (transact .command [slotByte s.cfg.wire slot] s) := by simp [txTurn, hs]
  cases op <;> (first | exact absurd rfl hne | skip)
  all_goals
    simp only [exec, execInit, execSetWindow, execSetContrast, execSetBlank]
    rw [opTurn_running _ h]
    exact key

/-- After ok the operation goes to its next transaction, or ends after its last. -/
theorem advance_tx {op : Instr} {s : State} {L : Latched} {k : Nat} (h : Running s op L (.tx k)) :
    advance s = if k < (slots op L).length then { s with pc := .tx (k + 1) } else endOp none (finish op L s) := by
  obtain ⟨-, hL, hd, hp⟩ := h
  simp only [advance, hL, hp, hd]

/-- A transaction of a running operation that is answered `ok`. -/
theorem transact_ok {op : Instr} {s : State} {L : Latched} {k : Nat} {b : Byte} {rest : List Answer}
    (h : Running s op L (.tx k)) (ha : s.answers = .ok :: rest) :
    transact .command [b] s =
      if k < (slots op L).length then { sent .command [b] .ok rest s with pc := .tx (k + 1) }
      else endOp none (finish op L (sent .command [b] .ok rest s)) := by
  have e : transact .command [b] s = advance (sent .command [b] .ok rest s) := by
    simp only [transact, ha]
    rfl
  rw [e]
  exact advance_tx (op := op) (L := L) h

/-- A transaction that is answered with an error. -/
theorem transact_err {phase : Phase} {bytes : List Byte} {s : State} {c : Word} {d : Nat} {rest : List Answer}
    (ha : s.answers = .err c d :: rest) :
    transact phase bytes s =
      ended .busError c (some (.bus c)) (sent phase bytes (.err c (min d bytes.length)) rest s) := by
  simp only [transact, ha]
  rfl

/-- SET_BLANK's end. -/
theorem finish_blank (L : Latched) (s : State) :
    finish .setBlank L s = { s with
      dstate := if s.dstate = .on ∨ s.dstate = .blanked then (if L.blank then .blanked else .on) else s.dstate } := by
  unfold finish
  rw [if_neg (by decide), if_pos rfl]
  split <;> rfl

/-! What the engine leaves alone. -/

/-- `advance` writes DSTATE, RESULT, ERRCODE, the step index, BUSY, the fill and the record of the error only. -/
theorem advance_frame (s : State) : ∃ d r e p b f l, advance s =
    { s with dstate := d, result := r, errcode := e, pc := p, busy := b, fill := f, lastError := l } := by
  rcases advance_cases s with h | ⟨L, k, h1, h2, h3, h⟩ | ⟨L, k, h1, h2, h3, h⟩ | ⟨h1, h⟩ <;> rw [h]
  · exact ⟨s.dstate, s.result, s.errcode, s.pc, s.busy, s.fill, s.lastError, rfl⟩
  · exact ⟨s.dstate, s.result, s.errcode, _, s.busy, s.fill, s.lastError, rfl⟩
  · rw [finish_eq]
    exact ⟨_, _, _, _, _, _, _, rfl⟩
  · exact ⟨s.dstate, _, _, _, _, _, _, rfl⟩

/-- A transaction writes, beside that, the port, the answers and the trace. -/
theorem transact_frame (phase : Phase) (bytes : List Byte) (s : State) : ∃ d r e p b f l q a t,
    transact phase bytes s =
      { s with dstate := d, result := r, errcode := e, pc := p, busy := b, fill := f, lastError := l,
               port := q, answers := a, trace := t } := by
  rcases transact_cases phase bytes s with ⟨-, h⟩ | ⟨rest, -, h⟩ | ⟨c, d, rest, -, h⟩ <;> rw [h]
  · exact ⟨s.dstate, s.result, s.errcode, s.pc, s.busy, s.fill, s.lastError, _, s.answers, s.trace, rfl⟩
  · obtain ⟨d, r, e, p, b, f, l, h⟩ :=
      advance_frame { s with port := none, answers := rest, trace := s.trace ++ [⟨phase, bytes, .ok⟩] }
    rw [h]
    exact ⟨_, _, _, _, _, _, _, _, _, _, rfl⟩
  · exact ⟨s.dstate, _, _, _, _, _, _, _, _, _, rfl⟩

/-- The burst writes, beside that, the count of free values. -/
theorem sendBurst_frame (L : Latched) (s : State) : ∃ d r e p b f l q a t n,
    sendBurst L s =
      { s with dstate := d, result := r, errcode := e, pc := p, busy := b, fill := f, lastError := l,
               port := q, answers := a, trace := t, draws := n } := by
  obtain ⟨bytes, n, -, h⟩ := sendBurst_eq L s
  obtain ⟨d, r, e, p, b, f, l, q, a, t, h2⟩ := transact_frame .data bytes { s with draws := n }
  rw [h, h2]
  exact ⟨_, _, _, _, _, _, _, _, _, _, _, rfl⟩

/-- A step of the fill writes no register but RESULT and ERRCODE. -/
theorem fillTurn_frame {done : State → State} (L : Latched) (s : State)
    (hd : ∀ u, ∃ r e p b f l, done u =
      { u with result := r, errcode := e, pc := p, busy := b, fill := f, lastError := l }) :
    ∃ r e p b f l n sc m, fillTurn done L s =
      { s with result := r, errcode := e, pc := p, busy := b, fill := f, lastError := l,
               draws := n, sched := sc, packbuf := m } := by
  have nx : ∀ u, ∃ r e p b f l, fillNext done L u =
      { u with result := r, errcode := e, pc := p, busy := b, fill := f, lastError := l } := by
    intro u
    rcases fillNext_cases done L u with ⟨-, h⟩ | ⟨-, h⟩ <;> rw [h]
    · exact hd u
    · exact ⟨u.result, u.errcode, u.pc, u.busy, u.fill, u.lastError, rfl⟩
  rcases fillTurn_cases done L s with ⟨-, h⟩ | ⟨j, -, ⟨-, h⟩ | ⟨-, h⟩ | ⟨-, h⟩⟩ | ⟨k, -, h⟩ <;> rw [h]
  · obtain ⟨r, e, p, b, f, l, h⟩ := hd s
    rw [h]
    exact ⟨_, _, _, _, _, _, s.draws, s.sched, s.packbuf, rfl⟩
  · exact ⟨s.result, s.errcode, s.pc, s.busy, s.fill, s.lastError, s.draws, s.sched, s.packbuf, rfl⟩
  · exact ⟨_, _, _, _, _, _, s.draws, s.sched, s.packbuf, rfl⟩
  · obtain ⟨b, d, h, -⟩ := readSample_eq L j s
    rw [h]
    obtain ⟨r, e, p, b, f, l, h⟩ := nx { s with
      fill := { s.fill with read := s.fill.read ++ [(j, b)] }, draws := d, sched := s.sched.tail }
    rw [h]
    exact ⟨_, _, _, _, _, _, _, _, s.packbuf, rfl⟩
  · obtain ⟨r, e, p, b, f, l, h⟩ := nx (writeByte L k s)
    rw [h]
    exact ⟨_, _, _, _, _, _, s.draws, _, _, rfl⟩

/-! A turn. -/

/-- No CMD word decodes to a row of the wire. -/
theorem decodeCmd_not_wire (w : Word) (n : WireName) : decodeCmd w ≠ .ofWire n := by
  unfold decodeCmd
  repeat' split
  all_goals cases n <;> simp [Instr.ofWire]

/-- No CMD word decodes to the data burst. -/
theorem decodeCmd_not_burst (w : Word) : decodeCmd w ≠ .dataBurst := by
  unfold decodeCmd
  repeat' split
  all_goals simp

/-- Everything a turn of the engine can do: nothing while idle, a step of the running operation, the constant of the
transaction it is at, or its burst. -/
theorem turn_cases {s t : State} (h : engineTurn s = .next t) :
    (s.busy = false ∧ t = s) ∨
    (∃ i L, Running s i L s.pc ∧ OpStep i L s t) ∨
    (∃ L k n, s.busy = true ∧ s.latched = some L ∧ s.pc = .tx k ∧
      slotAt (slots (decodeCmd L.cmd) L) k = some (.row n) ∧ t = emit n s) ∨
    (∃ L, s.busy = true ∧ s.latched = some L ∧ s.pc = .burst ∧ t = sendBurst L s) := by
  rcases engineTurn_cases h with ⟨h1, h2⟩ | ⟨hb, i, hf, he⟩
  · exact .inl ⟨h1, h2⟩
  · right
    unfold fetch at hf
    split at hf
    · cases hf
    · rename_i L hL
      have op : decodeCmd L.cmd = i → ∃ i L, Running s i L s.pc ∧ OpStep i L s t := by
        intro hd
        rcases exec_cases he with ⟨h, -⟩ | ⟨_, h, -⟩ | ⟨L', hr, ho⟩ | ⟨n, hn, -⟩ | ⟨L', hn, -⟩
        · rw [hb] at h
          cases h
        · rw [hb] at h
          cases h
        · exact ⟨i, L', hr, ho⟩
        · exact absurd (hd.trans hn) (decodeCmd_not_wire _ _)
        · exact absurd (hd.trans hn) (decodeCmd_not_burst _)
      split at hf
      · rename_i k hk
        split at hf
        · rename_i n hn
          cases hf
          rw [exec_ofWire] at he
          cases he
          exact .inr (.inl ⟨L, k, n, hb, hL, hk, hn, rfl⟩)
        · cases hf
          exact .inl (op rfl)
        · cases hf
          exact .inl (op rfl)
      · cases hf
        simp only [exec, execDataBurst, hL] at he
        cases he
        exact .inr (.inr ⟨L, hb, hL, by assumption, rfl⟩)
      all_goals
        cases hf
        exact .inl (op rfl)

/-! Geometries and the buffer. -/

/-- A geometry that a legal SUPPORTED admits is in the controller's range. -/
theorem supported_range {c : Config} {L : Latched} (hc : c.geometry.wellFormed = true) (hs : L.supported c = true) :
    0 < L.w ∧ L.w ≤ 128 ∧ L.h % 8 = 0 ∧ 0 < L.h ∧ L.h ≤ 64 := by
  simp only [Latched.supported, supported] at hs
  split at hs
  · simp only [defaultSupported, decide_eq_true_eq] at hs
    omega
  · rename_i gs hg
    rw [hg] at hc
    simp only [decide_eq_true_eq] at hs
    simpa [geometryInRange] using List.all_eq_true.1 hc _ hs

/-- Its frame has at least one byte and fits in PACKBUF. -/
theorem supported_frame {c : Config} {L : Latched} (hc : c.geometry.wellFormed = true) (hs : L.supported c = true) :
    0 < L.samples ∧ 0 < L.n ∧ L.n ≤ 1024 := by
  obtain ⟨h1, h2, h3, h4, h5⟩ := supported_range hc hs
  have hp : L.p ≤ 8 := by unfold Latched.p; omega
  have hp' : 0 < L.p := by unfold Latched.p; omega
  exact ⟨Nat.mul_pos h1 h4, Nat.mul_pos h1 hp', Nat.mul_le_mul h2 hp⟩

/-- What the checks of PACK and WRITE_FRAME let through. -/
theorem bufferError_none {c : Config} {L : Latched} (h : bufferError c L = none) :
    L.supported c = true ∧ L.pixbase.toNat % 2 = 0 ∧ L.pixbase.toNat + 2 * L.samples ≤ 4294967296 := by
  unfold bufferError at h
  split at h
  · cases h
  · rename_i h1
    split at h
    · cases h
    · split at h
      · cases h
      · exact ⟨by simpa using h1, by omega, by omega⟩

/-- A pixel of the buffer has an index below `W*H`. -/
theorem index_lt {w h x r : Nat} (hx : x < w) (hr : r < h) : r * w + x < w * h := by
  have h1 : r * w + x < (r + 1) * w := by
    rw [Nat.add_mul]
    omega
  have h2 : (r + 1) * w ≤ h * w := Nat.mul_le_mul_right _ (by omega)
  rw [Nat.mul_comm w h]
  omega

/-- Every bit of every byte of the frame is a pixel of the buffer. -/
theorem index_of_byte {L : Latched} {k i : Nat} (hk : k < L.n) (hi : i < 8) :
    L.index (k / L.p) (8 * (k % L.p) + i) < L.samples := by
  have hp : 0 < L.p := by
    rcases Nat.eq_zero_or_pos L.p with h | h
    · rw [Latched.n, h] at hk
      omega
    · exact h
  have h1 : k / L.p < L.w := by
    rw [Nat.div_lt_iff_lt_mul hp]
    exact hk
  have h2 : k % L.p < L.p := Nat.mod_lt _ hp
  have h3 : 8 * (k % L.p) + i < L.h := by
    have : 8 * L.p ≤ L.h := by unfold Latched.p; omega
    omega
  exact index_lt h1 h3

/-- With no action left, every sample has been read and every byte written. -/
theorem fillActs_nil {L : Latched} {f : Fill} (h : fillActs L f = []) :
    (∀ j, j < L.samples → (Cells.lookup j f.read).isSome = true) ∧ ∀ k, k < L.n → k ∈ f.written := by
  have read : ∀ j, j < L.samples → (Cells.lookup j f.read).isSome = true := by
    intro j hj
    cases hl : Cells.lookup j f.read with
    | some v => rfl
    | none =>
      have hm := mem_fillActs_sample.2 ⟨hj, hl⟩
      rw [h] at hm
      cases hm
  refine ⟨read, fun k hk => ?_⟩
  by_cases hw : k ∈ f.written
  · exact hw
  · have hr : byteReady L f k = true := by
      simp only [byteReady, List.all_eq_true, List.mem_range]
      exact fun i hi => read _ (index_of_byte hk hi)
    have hm := mem_fillActs_byte.2 ⟨hk, hw, hr⟩
    rw [h] at hm
    cases hm

/-! The sequences' bytes. -/

/-- INIT's bytes are those of its sequence. -/
theorem initBytes_eq (w : Wire) (L : Latched) : initBytes w L = (initSlots L).map (slotByte w) := by
  simp only [initBytes, initSlots, List.map_cons, List.map_nil, slotByte]
  have a : w.get L.segCmd = if 180 ≤ L.orient.toNat then w.segRemapMirrored else w.segRemapNormal := by
    simp only [Latched.segCmd, Latched.mirror, decide_eq_true_eq]
    split <;> rfl
  have b : w.get L.comScanCmd = if 180 ≤ L.orient.toNat then w.comScanMirrored else w.comScanNormal := by
    simp only [Latched.comScanCmd, Latched.mirror, decide_eq_true_eq]
    split <;> rfl
  have c : w.get L.comPinsArg =
      if L.height.toNat = 64 ∨ L.height.toNat = 48 then w.comPinsAltArg else w.comPinsSeqArg := by
    unfold Latched.comPinsArg
    by_cases h : L.height.toNat = 64 ∨ L.height.toNat = 48
    · rw [if_pos h, if_pos (show L.h = 64 ∨ L.h = 48 from h)]
      rfl
    · rw [if_neg h, if_neg (show ¬(L.h = 64 ∨ L.h = 48) from h)]
      rfl
  rw [a, b, c]
  rfl

/-- SET_WINDOW's bytes are those of its sequence. -/
theorem windowBytes_eq (w : Wire) (L : Latched) :
    windowBytes w L.width.toNat L.height.toNat = (windowSlots L).map (slotByte w) := by
  simp only [windowBytes, windowSlots, List.map_cons, List.map_nil, slotByte, Latched.window]
  by_cases h : L.width.toNat = 64 ∧ L.height.toNat = 48
  · rw [if_pos h, if_pos (show L.w = 64 ∧ L.h = 48 from h)]
    rfl
  · rw [if_neg h, if_neg (show ¬(L.w = 64 ∧ L.h = 48) from h)]
    rfl

end Sys2Proof.Machine
end

