-- ==== Sys2Proof/Laws/Races.lean ====
section
/-! SUPPORT. A sample redrawn after it was read (20_memory.md R63): what changes in the fill, in PACKBUF and in an
outstanding burst, and that a fill in order stays in order. -/

namespace Sys2Proof.Machine

/-! The record of what was read. -/

/-- The redrawn sample is recorded with its new value. -/
theorem Fill.reread_lookup_self {f : Fill} {j : Nat} (lit : Bool) (h : (Cells.lookup j f.read).isSome = true) :
    Cells.lookup j (f.reread j lit).read = some lit := by
  unfold Fill.reread
  show Cells.lookup j (f.read.map _) = _
  generalize f.read = l at h ⊢
  induction l with
  | nil => cases h
  | cons c l ih =>
    obtain ⟨k, v⟩ := c
    by_cases hk : k = j
    · subst hk
      simp [Cells.lookup]
    · have hk' : ¬j = k := fun e => hk e.symm
      simp only [Cells.lookup, if_neg hk'] at h
      simp only [List.map_cons, if_neg hk, Cells.lookup, if_neg hk']
      exact ih h

/-- Every other sample is recorded as before. -/
theorem Fill.reread_lookup_other {f : Fill} {j i : Nat} (lit : Bool) (h : i ≠ j) :
    Cells.lookup i (f.reread j lit).read = Cells.lookup i f.read := by
  unfold Fill.reread
  show Cells.lookup i (f.read.map _) = _
  induction f.read with
  | nil => rfl
  | cons c l ih =>
    obtain ⟨k, v⟩ := c
    rw [List.map_cons]
    by_cases hk : k = j
    · rw [if_pos hk, Cells.lookup, Cells.lookup, if_neg h, if_neg (by omega)]
      exact ih
    · rw [if_neg hk, Cells.lookup, Cells.lookup, ih]

/-- The samples read are the same ones. -/
theorem Fill.reread_keys (f : Fill) (j : Nat) (lit : Bool) : (f.reread j lit).read.map Prod.fst = f.read.map Prod.fst := by
  unfold Fill.reread
  show (f.read.map _).map _ = _
  rw [List.map_map]
  refine List.map_congr_left fun e _ => ?_
  by_cases h : e.1 = j
  · simp [h]
  · simp [h]

@[simp] theorem Fill.reread_written (f : Fill) (j : Nat) (lit : Bool) : (f.reread j lit).written = f.written := rfl
@[simp] theorem Fill.reread_raced (f : Fill) (j : Nat) (lit : Bool) : (f.reread j lit).raced = f.raced := rfl

/-- Whether a sample has been read is as before. -/
theorem Fill.reread_isSome (f : Fill) (j i : Nat) (lit : Bool) :
    (Cells.lookup i (f.reread j lit).read).isSome = (Cells.lookup i f.read).isSome := by
  rw [Bool.eq_iff_iff, Cells.lookup_isSome_iff, Cells.lookup_isSome_iff, Fill.reread_keys]

/-- Which bytes can be written is as before. -/
theorem byteReady_reread (L : Latched) (f : Fill) (j k : Nat) (lit : Bool) :
    byteReady L (f.reread j lit) k = byteReady L f k := by
  simp only [byteReady, Fill.reread_isSome]

/-! The byte that holds a sample. -/

/-- Bit `i` of byte `k` is a sample that byte `k` holds. -/
theorem byteOfSample_index {L : Latched} {k i : Nat} (hk : k < L.n) (hi : i < 8) :
    L.byteOfSample (L.index (k / L.p) (8 * (k % L.p) + i)) = k := by
  have hp : 0 < L.p := by
    rcases Nat.eq_zero_or_pos L.p with h | h
    · rw [Latched.n, h] at hk
      omega
    · exact h
  have hx : k / L.p < L.w := by
    rw [Nat.div_lt_iff_lt_mul hp]
    exact hk
  have hw : 0 < L.w := Nat.lt_of_le_of_lt (Nat.zero_le _) hx
  unfold Latched.byteOfSample Latched.index
  rw [Nat.mul_comm _ L.w, Nat.mul_add_mod, Nat.mod_eq_of_lt hx, Nat.mul_add_div hw, Nat.div_eq_of_lt hx, Nat.add_zero,
    show (8 * (k % L.p) + i) / 8 = k % L.p by omega]
  exact Nat.div_add_mod' k L.p

/-- The packed byte of eight pixels depends on those alone. -/
theorem packByte_congr {f g : Nat → Nat → Bool} {p k : Nat}
    (h : ∀ i, i < 8 → f (k / p) (8 * (k % p) + i) = g (k / p) (8 * (k % p) + i)) : packByte f p k = packByte g p k := by
  simp only [packByte, byteOf]
  rw [h 0 (by omega), h 1 (by omega), h 2 (by omega), h 3 (by omega), h 4 (by omega), h 5 (by omega), h 6 (by omega),
    h 7 (by omega)]

/-- A redrawn sample changes no other byte of the frame. -/
theorem packByte_reread {L : Latched} {f : Fill} {j k : Nat} (lit : Bool) (hk : k < L.n) (hj : k ≠ L.byteOfSample j) :
    packByte (fillLit L (f.reread j lit)) L.p k = packByte (fillLit L f) L.p k := by
  refine packByte_congr fun i hi => ?_
  unfold fillLit
  rw [Fill.reread_lookup_other lit]
  rintro rfl
  exact hj (byteOfSample_index hk hi).symm

/-! What redrawing a sample does. -/

/-- Everything redrawing a sample that was read does: its record is the free value, its byte if written is packed again,
an outstanding burst carries PACKBUF as it now is, and all else is as before. -/
theorem redrawSample_eq (L : Latched) (j : Nat) (s : State) (hj : (Cells.lookup j s.fill.read).isSome = true) :
    ∃ f m p, redrawSample L j s = { s with fill := f, draws := s.draws + 1, packbuf := m, port := p } ∧
      f = s.fill.reread j (truthy (Config.freeSample s.draws)) ∧
      Cells.lookup j f.read = some (truthy (Config.freeSample s.draws)) ∧
      (∀ i, i ≠ j → Cells.lookup i f.read = Cells.lookup i s.fill.read) ∧
      (L.byteOfSample j ∈ s.fill.written → L.byteOfSample j < 1024 →
        Cells.lookup (L.byteOfSample j) m = some (packByte (fillLit L f) L.p (L.byteOfSample j))) ∧
      (∀ k, k ≠ L.byteOfSample j ∨ k ∉ s.fill.written → Cells.lookup k m = Cells.lookup k s.packbuf) ∧
      p = s.port.map fun r =>
        match r.phase with
        | .command => r
        | .data => { r with bytes := (packRead m (s.draws + 1) 0 L.n).1 } := by
  refine ⟨_, _, _, rfl, rfl, Fill.reread_lookup_self _ hj, fun i hi => Fill.reread_lookup_other _ hi, fun hw hb => ?_,
    fun k hk => ?_, rfl⟩
  · rw [if_pos (by simpa using hw)]
    exact packWrite_lookup_self hb _ _
  · split
    · rename_i hw
      rcases hk with hk | hk
      · exact packWrite_lookup_other hk _ _
      · by_cases e : k = L.byteOfSample j
        · subst e
          exact absurd (by simpa using hw) hk
        · exact packWrite_lookup_other e _ _
    · rfl

/-- A fill in order stays in order. -/
theorem redrawSample_fillInv {L : Latched} {j : Nat} {s : State} (hn : L.n ≤ 1024)
    (hj : (Cells.lookup j s.fill.read).isSome = true) (h : FillInv L s) : FillInv L (redrawSample L j s) := by
  obtain ⟨f, m, p, he, hf, -, -, hb, ho, -⟩ := redrawSample_eq L j s hj
  obtain ⟨h1, h2, h3, h4⟩ := h
  rw [he]
  refine ⟨?_, fun e he => ?_, ?_, fun k hk => ?_⟩
  · show (f.read.map Prod.fst).Nodup
    rw [hf, Fill.reread_keys]
    exact h1
  · have hm : e.1 ∈ f.read.map Prod.fst := List.mem_map_of_mem he
    rw [hf, Fill.reread_keys] at hm
    obtain ⟨e', he', hee⟩ := List.mem_map.1 hm
    rw [← hee]
    exact h2 e' he'
  · show f.written.Nodup
    rw [hf]
    exact h3
  · have hk' : k ∈ s.fill.written := by
      have : k ∈ f.written := hk
      rwa [hf] at this
    obtain ⟨a, b, c⟩ := h4 k hk'
    refine ⟨a, ?_, ?_⟩
    · show byteReady L f k = true
      rw [hf, byteReady_reread]
      exact b
    · show Cells.lookup k m = some (packByte (fillLit L f) L.p k)
      by_cases e : k = L.byteOfSample j
      · subst e
        exact hb hk' (by omega)
      · rw [ho k (.inl e), c, hf, packByte_reread _ a e]

end Sys2Proof.Machine
end

