-- ==== Sys2Proof/Tests/Slice0.lean ====
section
/-! SUPPORT. Tests. The expected values come from spec/ (the worked examples, the corner cases and 95_test_vectors.md),
each by the rule or the vector its docstring names; and a witness for the hypotheses of every statement. -/

namespace Sys2Proof.Tests

open Sys2Proof.Machine

/-! Helpers. -/

/-- An idle block with a geometry and an orientation. -/
def geo (w h : BitVec 16) (o : BitVec 9) : State := { State.reset with width := w, height := h, orient := o }

/-- `s` with the operation of `cmd` running at `pc`. -/
def at_ (cmd : Word) (pc : Pc) (s : State) : State :=
  { s with busy := true, latched := some (latch cmd s), pc := pc }

/-- `s` with the operation of `cmd` running at `pc` and the answer `a` ready. -/
def answered (cmd : Word) (pc : Pc) (a : Answer) (s : State) : State := { at_ cmd pc s with answers := [a] }

/-- What `f` says of the next state. -/
def see {α : Type} (f : State → α) (o : Host.Outcome State Fault Refusal) : Option α :=
  match o with
  | .next t => some (f t)
  | .fault _ => none
  | .refused _ => none

/-- RESULT and ERRCODE. -/
def results (s : State) : Result × Word := (s.result, s.errcode)

/-- The lit map of a list of lit pixels. -/
def lits (l : List (Nat × Nat)) (x r : Nat) : Bool := l.contains (x, r)

/-! WellFormed. -/

/-- An `illegal` with the fields of INIT's word is ill-formed. -/
theorem test_wf_refuses_illegal_init : (Instr.illegal 0#28 1#4).wellFormed = false := by decide
/-- An `illegal` with the fields of SET_BLANK's word is ill-formed, its neighbours 0x0 and 0x7 are not (R85). -/
theorem test_wf_refuses_illegal_blank : (Instr.illegal 0#28 6#4).wellFormed = false ∧
    (Instr.illegal 0#28 7#4).wellFormed = true ∧ (Instr.illegal 0#28 0#4).wellFormed = true ∧
    (Instr.illegal 1#28 1#4).wellFormed = true := by decide
/-- A geometry of height 0, of a height that is no multiple of 8, or wider than 128 is out of range. -/
theorem test_wf_refuses_geometries : geometryInRange (8, 0) = false ∧ geometryInRange (8, 12) = false ∧
    geometryInRange (136, 64) = false ∧ geometryInRange (128, 72) = false ∧ geometryInRange (0, 8) = false ∧
    (Geometries.listed [(128, 64), (128, 60)]).wellFormed = false := by decide
/-- A profile with DISPLAY_OFF = DISPLAY_ON is refused (R96), so are parameters that hold one, and so is a profile that
changes MEM_MODE_VERTICAL_ARG (R119). -/
theorem test_wf_refuses_wire : ({ Wire.default with displayOff := 0xAF#8 } : Wire).wellFormed = false ∧
    ({ Config.default with wire := { Wire.default with displayOff := 0xAF#8 } } : Config).wellFormed = false ∧
    ({ Wire.default with memModeVerticalArg := 0x00#8 } : Wire).wellFormed = false ∧ Config.default.wellFormed = true := by decide

/-! Decoding. -/

/-- The six CMD words, written out from the pattern of R81: RSVD 0, OPCODE in bits 3 to 0 (R84). -/
theorem test_decode_operations :
    decodeCmd 0b00000000000000000000000000000001#32 = .init ∧
    decodeCmd 0b00000000000000000000000000000010#32 = .setWindow ∧
    decodeCmd 0b00000000000000000000000000000011#32 = .pack ∧
    decodeCmd 0b00000000000000000000000000000100#32 = .writeFrame ∧
    decodeCmd 0b00000000000000000000000000000101#32 = .setContrast ∧
    decodeCmd 0b00000000000000000000000000000110#32 = .setBlank := by decide
/-- Reserved opcodes (R85) and reserved bits (R86), with the fields of R81. -/
theorem test_decode_illegal :
    decodeCmd 0b00000000000000000000000000000000#32 = .illegal 0#28 0#4 ∧
    decodeCmd 0b00000000000000000000000000000111#32 = .illegal 0#28 7#4 ∧
    decodeCmd 0b00000000000000000000000000001111#32 = .illegal 0#28 15#4 ∧
    decodeCmd 0b00000000000000000000000000010001#32 = .illegal 1#28 1#4 ∧
    decodeCmd 0b10000000000000000000000000000001#32 = .illegal 0x8000000#28 1#4 := by decide
/-- A CMD word from its bytes: bits 7 to 0 first (10_state.md R21). -/
theorem test_decode_little_endian :
    decode Wire.default .h32 [0x02#8, 0x00#8, 0x00#8, 0x00#8] = .ok .setWindow ∧
    decode Wire.default .h32 [0x00#8, 0x00#8, 0x00#8, 0x02#8] = .ok (.illegal 0x0200000#28 0#4) ∧
    decode Wire.default .h32 [0x02#8] = .error (.wrongLength 1) := ⟨rfl, rfl, rfl⟩
/-- The Command bytes of the default profile's table (R95), row by row; VCOMH_ARG's 0x40 alone is SET_START_LINE's. -/
theorem test_decode_wire :
    [0xAE, 0xD5, 0x80, 0xA8, 0xD3, 0x40, 0x8D, 0x14, 0xA0, 0xA1, 0xC0, 0xC8, 0xDA, 0x12, 0x02, 0x20, 0x01, 0xD9, 0xF1,
      0xDB, 0xA4, 0xA6, 0xAF, 0x81, 0x21, 0x22].map (decodeTableWord 8) =
    [some .wireDisplayOff, some .wireSetClockDiv, some .wireClockDivArg, some .wireSetMux, some .wireSetDisplayOffset,
      some .wireSetStartLine, some .wireSetChargePump, some .wireChargePumpOnArg, some .wireSegRemapNormal,
      some .wireSegRemapMirrored, some .wireComScanNormal, some .wireComScanMirrored, some .wireSetComPins,
      some .wireComPinsAltArg, some .wireComPinsSeqArg, some .wireSetMemMode, some .wireMemModeVerticalArg,
      some .wireSetPrecharge, some .wirePrechargeArg, some .wireSetVcomh, some .wireEntireDisplayResume,
      some .wireNormalDisplay, some .wireDisplayOn, some .wireSetContrastCmd, some .wireSetColumnRange,
      some .wireSetPageRange] ∧
    decodeTableWord 8 0x7F = none := by decide
/-- The 23 bytes of the worked example R121, parsed from the start: 0x40 is SET_START_LINE at t8 and VCOMH_ARG at t20. -/
theorem test_parse_init :
    parseWire Wire.default [0xAE#8, 0xD5#8, 0x80#8, 0xA8#8, 0x3F#8, 0xD3#8, 0x00#8, 0x40#8, 0x8D#8, 0x14#8, 0xA0#8,
      0xC0#8, 0xDA#8, 0x12#8, 0x20#8, 0x01#8, 0xD9#8, 0xF1#8, 0xDB#8, 0x40#8, 0xA4#8, 0xA6#8, 0xAF#8] =
    .ok [.row .displayOff, .row .setClockDiv, .row .clockDivArg, .row .setMux, .arg 0x3F#8, .row .setDisplayOffset,
      .arg 0x00#8, .row .setStartLine, .row .setChargePump, .row .chargePumpOnArg, .row .segRemapNormal,
      .row .comScanNormal, .row .setComPins, .row .comPinsAltArg, .row .setMemMode, .row .memModeVerticalArg,
      .row .setPrecharge, .row .prechargeArg, .row .setVcomh, .row .vcomhArg, .row .entireDisplayResume,
      .row .normalDisplay, .row .displayOn] := by rfl
/-- Bytes that are no sequence: an argument without its command, a command without its argument. -/
theorem test_parse_refuses :
    parseWire Wire.default [0x3F#8] = .error (.unknownCommand 0x3F#8) ∧
    parseWire Wire.default [0xA8#8] = .error (.missingArgument .setMux) ∧
    parseWire Wire.default [0xD5#8, 0x81#8] = .error (.unknownArgument .setClockDiv 0x81#8) := ⟨rfl, rfl, rfl⟩
/-- A Data transaction is a burst, of 1 to 1024 bytes (R36, R90). -/
theorem test_decode_burst :
    decodeTableWord 0 0 = some .dataBurst ∧ decode Wire.default .wd [] = .error (.badBurstLength 0) ∧
    decode Wire.default .wd (List.replicate 16 0xFF#8) = .ok .dataBurst := ⟨by decide, rfl, rfl⟩
/-- Encoding gives the spec's words back (R84, R95). -/
theorem test_encode :
    encode Wire.default [] .writeFrame = [0x04#8, 0x00#8, 0x00#8, 0x00#8] ∧
    encode Wire.default [] (.illegal 0x0ABCDEF#28 0x3#4) = [0xF3#8, 0xDE#8, 0xBC#8, 0x0A#8] ∧
    encode Wire.default [] .wireSetColumnRange = [0x21#8] ∧
    encode Wire.default [0x01#8, 0x80#8] .dataBurst = [0x01#8, 0x80#8] := by decide

/-! INIT. -/

/-- Vectors I6 and I18: ORIENT 360 is a CONFIG_ERROR in Uninitialized, and INIT while On is a STATE_ERROR. -/
theorem test_init_checks :
    see results (exec .init (at_ 1#32 .check (geo 128#16 64#16 360#9))) = some (.configError, 0#32) ∧
    see results (exec .init { at_ 1#32 .check (geo 128#16 64#16 0#9) with dstate := .on }) = some (.stateError, 0#32) ∧
    see results (exec .init (at_ 1#32 .check (geo 136#16 64#16 0#9))) = some (.configError, 0#32) ∧
    see State.dstate (exec .init (at_ 1#32 .check (geo 128#16 64#16 359#9))) = some .initializing := by decide
/-- Vectors I1, I3 and I8: the default contrast of heights 64 and 48, and a contrast of 0x100 kept. -/
theorem test_init_contrast :
    see State.contrast (exec .init (at_ 1#32 .lazyContrast (geo 128#16 64#16 0#9))) = some 0xCF#32 ∧
    see State.contrast (exec .init (at_ 1#32 .lazyContrast (geo 64#16 48#16 0#9))) = some 0x8F#32 ∧
    see State.contrast (exec .init (at_ 1#32 .lazyContrast { geo 64#16 48#16 0#9 with contrast := 0x100#32 })) =
      some 0x100#32 := by decide
/-- Vectors I1 to I5: the bytes of INIT by height and orientation. -/
theorem test_init_bytes :
    initBytes Wire.default (latch 1#32 (geo 128#16 64#16 179#9)) =
      [0xAE#8, 0xD5#8, 0x80#8, 0xA8#8, 0x3F#8, 0xD3#8, 0x00#8, 0x40#8, 0x8D#8, 0x14#8, 0xA0#8, 0xC0#8, 0xDA#8, 0x12#8,
       0x20#8, 0x01#8, 0xD9#8, 0xF1#8, 0xDB#8, 0x40#8, 0xA4#8, 0xA6#8, 0xAF#8] ∧
    initBytes Wire.default (latch 1#32 (geo 128#16 32#16 0#9)) =
      [0xAE#8, 0xD5#8, 0x80#8, 0xA8#8, 0x1F#8, 0xD3#8, 0x00#8, 0x40#8, 0x8D#8, 0x14#8, 0xA0#8, 0xC0#8, 0xDA#8, 0x02#8,
       0x20#8, 0x01#8, 0xD9#8, 0xF1#8, 0xDB#8, 0x40#8, 0xA4#8, 0xA6#8, 0xAF#8] ∧
    initBytes Wire.default (latch 1#32 (geo 64#16 48#16 180#9)) =
      [0xAE#8, 0xD5#8, 0x80#8, 0xA8#8, 0x2F#8, 0xD3#8, 0x00#8, 0x40#8, 0x8D#8, 0x14#8, 0xA1#8, 0xC8#8, 0xDA#8, 0x12#8,
       0x20#8, 0x01#8, 0xD9#8, 0xF1#8, 0xDB#8, 0x40#8, 0xA4#8, 0xA6#8, 0xAF#8] := by decide
/-- Vectors I1 and I16: the last transaction sets DSTATE On, and an error there leaves it and gives the code. -/
theorem test_init_last :
    see State.dstate (exec .init { answered 1#32 (.tx 23) .ok (geo 128#16 64#16 0#9) with dstate := .initializing }) =
      some .on ∧
    see State.dstate (exec .init
      { answered 1#32 (.tx 23) (.err 0#32 1) (geo 128#16 64#16 0#9) with dstate := .initializing }) =
      some .initializing ∧
    see results (exec .init (answered 1#32 (.tx 13) (.err 0xBEEF#32 0) (geo 128#16 64#16 0#9))) =
      some (.busError, 0xBEEF#32) := by decide

/-! SET_WINDOW, SET_CONTRAST, SET_BLANK, illegal words. -/

/-- Vectors W1, W3, W5 and W6: the window bytes. -/
theorem test_window_bytes :
    windowBytes Wire.default 128 64 = [0x21#8, 0x00#8, 0x7F#8, 0x22#8, 0x00#8, 0x07#8] ∧
    windowBytes Wire.default 64 48 = [0x21#8, 0x20#8, 0x5F#8, 0x22#8, 0x00#8, 0x05#8] ∧
    windowBytes Wire.default 96 48 = [0x21#8, 0x00#8, 0x5F#8, 0x22#8, 0x00#8, 0x05#8] ∧
    windowBytes Wire.default 8 16 = [0x21#8, 0x00#8, 0x07#8, 0x22#8, 0x00#8, 0x01#8] := by decide
/-- Vectors W3 and W8: the third transaction of 64×48 is 0x5F, and 100×32 is refused. -/
theorem test_window_steps :
    see State.trace (exec .setWindow (answered 2#32 (.tx 3) .ok (geo 64#16 48#16 0#9))) =
      some [⟨.command, [0x5F#8], .ok⟩] ∧
    see results (exec .setWindow (at_ 2#32 .check (geo 100#16 32#16 0#9))) = some (.configError, 0#32) := by decide
/-- R202: ARG 0x1234 sends 0x34; in Uninitialized SET_CONTRAST is a STATE_ERROR. -/
theorem test_contrast :
    see State.trace (exec .setContrast
      { answered 5#32 (.tx 2) .ok { State.reset with arg := 0x1234#32 } with dstate := .on }) =
      some [⟨.command, [0x34#8], .ok⟩] ∧
    see results (exec .setContrast (at_ 5#32 .check State.reset)) = some (.stateError, 0#32) := by decide
/-- R208: 0x80000000 blanks from On, 7 keeps Blanked, 1 while Initializing changes nothing. -/
theorem test_blank :
    see State.dstate (exec .setBlank
      { answered 6#32 (.tx 1) .ok { State.reset with arg := 0x80000000#32 } with dstate := .on }) = some .blanked ∧
    see State.dstate (exec .setBlank
      { answered 6#32 (.tx 1) .ok { State.reset with arg := 0#32 } with dstate := .blanked }) = some .on ∧
    see State.dstate (exec .setBlank
      { answered 6#32 (.tx 1) .ok { State.reset with arg := 1#32 } with dstate := .initializing }) =
      some .initializing := by decide
/-- R208: DISPLAY_OFF attempted with the transport answering `err(5)`: still On, BUS_ERROR, 5. -/
theorem test_blank_error :
    see (fun t => (t.dstate, results t)) (exec .setBlank
      { answered 6#32 (.tx 1) (.err 5#32 0) { State.reset with arg := 1#32 } with dstate := .on }) =
      some (.on, .busError, 5#32) := by decide
/-- R85: CMD 0x7 ends with ILLEGAL_OP, no transaction, no FAULT. -/
theorem test_illegal :
    see (fun t => (t.result, t.trace, t.fault)) (exec (.illegal 0#28 7#4) (at_ 7#32 .check State.reset)) =
      some (.illegalOp, [], false) := by decide

/-! PACK and WRITE_FRAME. -/

/-- The worked example R166 and the corner cases of R165. -/
theorem test_pack :
    pack (lits [(0, 0), (1, 1), (2, 2), (3, 3), (4, 4), (5, 5), (6, 6), (7, 7)]) 8 16 =
      [0x01#8, 0x00#8, 0x02#8, 0x00#8, 0x04#8, 0x00#8, 0x08#8, 0x00#8, 0x10#8, 0x00#8, 0x20#8, 0x00#8, 0x40#8, 0x00#8,
       0x80#8, 0x00#8] ∧
    packByte (lits [(0, 8)]) 2 1 = 0x01#8 ∧ packByte (lits [(0, 7)]) 2 0 = 0x80#8 ∧
    packByte (lits [(5, 20)]) 4 22 = 0x10#8 ∧ packByte (lits [(63, 47)]) 6 383 = 0x80#8 := by decide
/-- R163: a sample is lit where either of its bytes is nonzero; sample 1 of a buffer at 0x1000 is at 0x1002. -/
theorem test_pack_reads_a_sample :
    (let s := { geo 8#16 16#16 0#9 with pixbase := 0x1000#32, pix := [(0x1003, 0x80#8)] }
     (readSample (latch 3#32 s) 1 s).fill.read = [(1, true)]) ∧
    (let s := { geo 8#16 16#16 0#9 with pixbase := 0x1000#32, pix := [(0x1004, 0x80#8)] }
     (readSample (latch 3#32 s) 1 s).fill.read = [(1, false)]) := by decide
/-- R53, R165: an odd PIXBASE and a buffer past 2^32 are CONFIG_ERRORs. -/
theorem test_pack_checks :
    see State.lastError (exec .pack (at_ 3#32 .check { geo 128#16 64#16 0#9 with pixbase := 0x1001#32 })) =
      some (some (.config .pixbaseAlign)) ∧
    see State.lastError (exec .pack (at_ 3#32 .check { geo 128#16 64#16 0#9 with pixbase := 0xFFFFF000#32 })) =
      some (some (.config .pixbaseRange)) ∧
    see State.pc (exec .pack (at_ 3#32 .check { geo 128#16 64#16 0#9 with pixbase := 0xFFFFC000#32 })) =
      some .fill := by decide
/-- R54: a read that is not admitted ends WRITE_FRAME with MEM_ERROR and no transaction. -/
theorem test_frame_memory_error :
    see (fun t => (t.result, t.trace)) (exec .writeFrame
      { at_ 4#32 .fill { geo 8#16 16#16 0#9 with cfg := { Config.default with pixMap := [⟨0, 2, .denied⟩] } } with
        answers := [.ok] }) =
      some (.memError, []) := by decide
/-- R181, R182: the burst of an 8×16 frame is PACKBUF's first 16 bytes in ascending order, in one Data transaction. -/
theorem test_burst :
    see State.trace (exec .dataBurst (answered 4#32 .burst .ok
      { geo 8#16 16#16 0#9 with packbuf := (List.range 17).map fun k => (k, BitVec.ofNat 8 (k + 1)) })) =
      some [⟨.data, [1#8, 2#8, 3#8, 4#8, 5#8, 6#8, 7#8, 8#8, 9#8, 10#8, 11#8, 12#8, 13#8, 14#8, 15#8, 16#8], .ok⟩] := by
  decide

/-- R63, U5: a sample the host writes after it was read, at the burst, is a free value too, and no other sample is. -/
theorem test_race_after_read :
    (hostPixWrite 0xFF#32 1#8 (at_ 4#32 .burst { geo 8#16 16#16 0#9 with fill := ⟨[(126, true), (127, true)], [], []⟩ })).fill =
      ⟨[(126, true), (127, truthy (Config.freeSample 0))], [], []⟩ ∧
    (hostPixWrite 0x100#32 1#8 (at_ 4#32 .burst { geo 8#16 16#16 0#9 with fill := ⟨[(127, true)], [], []⟩ })).fill =
      ⟨[(127, true)], [], []⟩ := ⟨rfl, rfl⟩

/-! The WIRE rows, registers, faults, reset. -/

/-- R95: each WIRE row sends its byte of the default profile. -/
theorem test_wire_rows :
    wireNames.map (fun n => see State.trace (exec (.ofWire n) (answered 1#32 (.tx 1) .ok (geo 128#16 64#16 0#9)))) =
    [0xAE#8, 0xD5#8, 0x80#8, 0xA8#8, 0xD3#8, 0x40#8, 0x8D#8, 0x14#8, 0xA0#8, 0xA1#8, 0xC0#8, 0xC8#8, 0xDA#8, 0x12#8,
     0x02#8, 0x20#8, 0x01#8, 0xD9#8, 0xF1#8, 0xDB#8, 0x40#8, 0xA4#8, 0xA6#8, 0xAF#8, 0x81#8, 0x21#8, 0x22#8].map
      (fun b => some [⟨.command, [b], .ok⟩]) := by decide
/-- STATUS words of 95_test_vectors.md: P1's 0x108, P4's 0x114, P5's 0x138 and 0x13A, I11's 0x020, 64×48's 0x208. -/
theorem test_status :
    statusWord { geo 128#16 32#16 0#9 with dstate := .on } = 0x108#32 ∧
    statusWord { geo 128#16 64#16 0#9 with dstate := .initializing, result := .busError } = 0x114#32 ∧
    statusWord { geo 128#16 32#16 0#9 with dstate := .on, result := .stateError } = 0x138#32 ∧
    statusWord { geo 128#16 32#16 0#9 with dstate := .on, result := .stateError, fault := true } = 0x13A#32 ∧
    statusWord { State.reset with result := .configError } = 0x020#32 ∧
    statusWord { geo 64#16 48#16 0#9 with dstate := .on } = 0x208#32 := by decide
/-- P5: a write of WIDTH while On sets FAULT and writes nothing; a write of ARG after that is ignored. -/
theorem test_protocol_fault :
    see (fun t => (t.fault, t.width)) (hostWrite 32 0x010 64#32 { geo 128#16 32#16 0#9 with dstate := .on }) =
      some (true, 128#16) ∧
    see State.arg (hostWrite 32 0x004 1#32 { State.reset with fault := true }) = some 0#32 ∧
    see State.fault (hostWrite 32 0x018 0x200#32 State.reset) = some true ∧
    see State.orient (hostWrite 32 0x018 0x1FF#32 State.reset) = some 0x1FF#9 := by decide
/-- R35: a PACKBUF word, little-endian. -/
theorem test_packbuf_word :
    (hostRead 32 0x404 { State.reset with
      packbuf := [(4, 0x11#8), (5, 0x22#8), (6, 0x33#8), (7, 0x44#8)] }).hostReads = [(0x404, 0x44332211#32)] := by decide
/-- P5, R250, R254: a reset clears FAULT and the registers and keeps pixel memory. -/
theorem test_reset :
    see (fun t => (t.fault, t.width, t.pix)) (step { geo 128#16 32#16 0#9 with
      fault := true, pix := [(7, 1#8)], script := [.reset 0] }) = some (false, 0#16, [(7, 1#8)]) := by decide
/-- R253: a reset with a transaction outstanding abandons it. -/
theorem test_reset_abandons :
    see State.trace (step { at_ 1#32 (.tx 1) (geo 128#16 64#16 0#9) with
      port := some ⟨.command, [0xAE#8]⟩, script := [.reset 5] }) =
      some [⟨.command, [0xAE#8], .abandoned 1⟩] := by decide
/-- R61: without an answer the request stays outstanding and BUSY stays 1. -/
theorem test_no_answer :
    see (fun t => (t.busy, t.port)) (step (at_ 1#32 (.tx 1) (geo 128#16 64#16 0#9))) =
      some (true, some ⟨.command, [0xAE#8]⟩) := by decide
/-- The fetch placed by `withFetchWord`: an operation starts, and a WIRE row is sent. -/
theorem test_with_fetch_word :
    see (fun t => (t.busy, t.pc)) (step (State.reset.withFetchWord 32 1)) = some (true, .check) ∧
    see State.port (step (State.reset.withFetchWord 8 0xAE)) = some (some ⟨.command, [0xAE#8]⟩) := by decide

/-! Witnesses: for each statement with hypotheses, a state and operands that meet them, and for its clauses their
boundary values. The statement's name stands in the theorem's. -/

theorem mem_wireNames (n : WireName) : n ∈ wireNames := by cases n <;> decide

theorem witness_EncodedInstructionsDecodeBack :
    (Instr.illegal 0#28 7#4).wellFormed = true ∧
    (∀ n, Instr.wireSetStartLine.wireName = some n →
      ∀ m ∈ wireNames.takeWhile (fun m => decide (m ≠ n)), Wire.default.get m ≠ Wire.default.get n) ∧
    1 ≤ [0x00#8].length ∧ (List.replicate 1024 0x00#8).length ≤ 1024 := by
  refine ⟨by decide, fun n hn => ?_, by decide, Nat.le_of_eq List.length_replicate⟩
  cases hn
  decide

theorem witness_OperationBytesParseBack :
    (∀ m n, isArgument m = false → isArgument n = false → Wire.default.get m = Wire.default.get n → m = n) ∧
    Wire.default.comPinsAltArg ≠ Wire.default.comPinsSeqArg := by
  have all : ∀ m ∈ wireNames, ∀ n ∈ wireNames,
      isArgument m = false → isArgument n = false → Wire.default.get m = Wire.default.get n → m = n := by decide
  exact ⟨fun m n => all m (mem_wireNames m) n (mem_wireNames n), by decide⟩

theorem witness_StepRunsTheDecodedInstruction :
    (let s := { geo 128#16 64#16 0#9 with script := [.wr 32 0 1#32] }
     s.script = .wr 32 s.cfg.regBase 1#32 :: [] ∧ s.busy = false ∧ s.fault = false ∧ decodeCmd 1#32 = .init) ∧
    (let s := at_ 1#32 (.tx 1) (geo 128#16 64#16 0#9)
     s.busy = true ∧ fetch s = some .wireDisplayOff ∧ s.script = [] ∧
     fetch { s with script := [.engine] } = some .wireDisplayOff ∧ fetch { s with script := [.wait] } = some .wireDisplayOff) ∧
    Running (at_ 7#32 .check State.reset) (.illegal 0#28 7#4) (latch 7#32 State.reset) .check :=
  ⟨by decide, by decide, by unfold Running; decide⟩

theorem witness_OperationStepIsTheRowItSends :
    (let s := geo 128#16 64#16 0#9
     Running (at_ 1#32 (.tx 23) s) .init (latch 1#32 s) (.tx 23) ∧
     slotAt (slots .init (latch 1#32 s)) 23 = some (.row .displayOn) ∧
     Running (at_ 4#32 .burst s) .writeFrame (latch 4#32 s) .burst) := by unfold Running; decide

theorem witness_CmdWriteLatchesAndStarts : State.reset.busy = false ∧ State.reset.fault = false := by decide

theorem witness_InitChecksInOrder :
    (let s := { geo 128#16 64#16 0#9 with dstate := .blanked }
     Running (at_ 1#32 .check s) .init (latch 1#32 s) .check ∧ (at_ 1#32 .check s).dstate = .blanked) ∧
    (let s := geo 128#16 8#16 0#9
     Running (at_ 1#32 .check s) .init (latch 1#32 s) .check ∧ s.dstate = .uninitialized ∧ supported s.cfg 128 8 = false) ∧
    (let s := { geo 128#16 16#16 360#9 with dstate := .initializing }
     Running (at_ 1#32 .check s) .init (latch 1#32 s) .check ∧ s.dstate = .initializing ∧
     supported s.cfg 128 16 = true ∧ 359 < (latch 1#32 s).orient.toNat) ∧
    (let s := geo 128#16 16#16 359#9
     Running (at_ 1#32 .check s) .init (latch 1#32 s) .check ∧ s.dstate = .uninitialized ∧
     supported s.cfg 128 16 = true ∧ (latch 1#32 s).orient.toNat ≤ 359) := by unfold Running; decide

theorem witness_InitStoresTheDefaultContrastOnlyIfUnset :
    (let s := { geo 128#16 64#16 0#9 with contrast := 1#32 }
     Running (at_ 1#32 .lazyContrast s) .init (latch 1#32 s) .lazyContrast ∧ (latch 1#32 s).contrast ≠ 0#32) ∧
    (let s := geo 128#16 64#16 0#9
     Running (at_ 1#32 .lazyContrast s) .init (latch 1#32 s) .lazyContrast ∧ (latch 1#32 s).contrast = 0#32 ∧
     (latch 1#32 s).height = 64#16) ∧
    (let s := geo 128#16 56#16 0#9
     Running (at_ 1#32 .lazyContrast s) .init (latch 1#32 s) .lazyContrast ∧ (latch 1#32 s).contrast = 0#32 ∧
     (latch 1#32 s).height ≠ 64#16) := by unfold Running; decide

theorem witness_InitSendsItsTwentyThreeBytes :
    (let s := geo 128#16 64#16 0#9
     let u := answered 1#32 (.tx 1) .ok s
     Running u .init (latch 1#32 s) (.tx (0 + 1)) ∧ u.answers = .ok :: [] ∧
     (initBytes u.cfg.wire (latch 1#32 s))[0]? = some 0xAE#8) ∧
    (let s := geo 128#16 64#16 0#9
     let u := answered 1#32 (.tx 23) .ok s
     Running u .init (latch 1#32 s) (.tx (22 + 1)) ∧ u.answers = .ok :: [] ∧
     (initBytes u.cfg.wire (latch 1#32 s))[22]? = some 0xAF#8) := by unfold Running; decide

theorem witness_InitRunsToOn :
    (let s := { geo 128#16 64#16 359#9 with script := [.wr 32 0 1#32], answers := List.replicate 23 .ok }
     s.script = [.wr 32 s.cfg.regBase 1#32] ∧ s.busy = false ∧ s.fault = false ∧ s.port = none ∧
     (s.dstate = .uninitialized ∨ s.dstate = .initializing) ∧ supported s.cfg s.width.toNat s.height.toNat = true ∧
     s.orient.toNat ≤ 359 ∧ s.answers = List.replicate 23 .ok ++ []) := by decide

theorem witness_InitFailsAtTheFailedTransaction :
    (let s := { geo 128#16 64#16 0#9 with
       script := [.wr 32 0 1#32], answers := List.replicate 22 .ok ++ [.err 0#32 1], dstate := .initializing }
     s.script = [.wr 32 s.cfg.regBase 1#32] ∧ s.busy = false ∧ s.fault = false ∧ s.port = none ∧
     (s.dstate = .uninitialized ∨ s.dstate = .initializing) ∧ supported s.cfg s.width.toNat s.height.toNat = true ∧
     s.orient.toNat ≤ 359 ∧ (initBytes s.cfg.wire (latch 1#32 s))[22]? = some 0xAF#8 ∧
     s.answers = List.replicate 22 .ok ++ .err 0#32 1 :: []) := by decide

theorem witness_WindowSendsItsSixBytes :
    (let s := geo 64#16 48#16 0#9
     Running (at_ 2#32 .check s) .setWindow (latch 2#32 s) .check ∧ supported s.cfg 64 48 = true ∧
     Running (answered 2#32 (.tx 6) .ok s) .setWindow (latch 2#32 s) (.tx (5 + 1)) ∧
     (windowBytes s.cfg.wire 64 48)[5]? = some 0x05#8) ∧
    (let s := geo 64#16 8#16 0#9
     Running (at_ 2#32 .check s) .setWindow (latch 2#32 s) .check ∧ supported s.cfg 64 8 = false) := by
  unfold Running; decide

theorem witness_WindowRunIsAFunctionOfTheGeometry :
    (let s := { geo 64#16 48#16 0#9 with script := [.wr 32 0 2#32], answers := List.replicate 6 .ok }
     s.script = [.wr 32 s.cfg.regBase 2#32] ∧ s.busy = false ∧ s.fault = false ∧ s.port = none ∧
     supported s.cfg s.width.toNat s.height.toNat = true ∧ s.answers = List.replicate 6 .ok ++ []) := by decide

theorem witness_ContrastSendsTheLevel :
    (let s := { State.reset with arg := 0x1CF#32 }
     Running (at_ 5#32 .check s) .setContrast (latch 5#32 s) .check ∧ s.dstate = .uninitialized ∧
     ({ at_ 5#32 .check s with dstate := .initializing } : State).dstate ≠ .uninitialized ∧
     (answered 5#32 (.tx 1) .ok s).answers = .ok :: [] ∧ (answered 5#32 (.tx 1) (.err 9#32 2) s).answers = .err 9#32 2 :: [] ∧
     Running (answered 5#32 (.tx 1) .ok s) .setContrast (latch 5#32 s) (.tx 1) ∧
     Running (answered 5#32 (.tx 2) (.err 9#32 2) s) .setContrast (latch 5#32 s) (.tx 2)) := by unfold Running; decide

theorem witness_BlankSendsAndTracksTheDisplay :
    (let s := { State.reset with arg := 0#32 }
     Running (at_ 6#32 .check s) .setBlank (latch 6#32 s) .check ∧ s.dstate = .uninitialized ∧
     Running (answered 6#32 (.tx 1) .ok s) .setBlank (latch 6#32 s) (.tx 1) ∧ (latch 6#32 s).arg = 0#32 ∧
     (answered 6#32 (.tx 1) .ok s).answers = .ok :: []) ∧
    (let s := { State.reset with arg := 1#32, dstate := .blanked }
     Running (at_ 6#32 .check s) .setBlank (latch 6#32 s) .check ∧ s.dstate ≠ .uninitialized ∧
     Running (answered 6#32 (.tx 1) (.err 5#32 0) s) .setBlank (latch 6#32 s) (.tx 1) ∧ (latch 6#32 s).arg ≠ 0#32 ∧
     (answered 6#32 (.tx 1) (.err 5#32 0) s).answers = .err 5#32 0 :: []) := by unfold Running; decide

theorem witness_BufferChecksInOrder :
    (let s := geo 128#16 72#16 0#9
     Running (at_ 3#32 .check s) .pack (latch 3#32 s) .check ∧ supported s.cfg 128 72 = false) ∧
    (let s := { geo 8#16 16#16 0#9 with pixbase := 1#32 }
     Running (at_ 4#32 .check s) .writeFrame (latch 4#32 s) .check ∧ supported s.cfg 8 16 = true ∧
     (latch 4#32 s).pixbase.toNat % 2 ≠ 0) ∧
    (let s := { geo 8#16 16#16 0#9 with pixbase := 0xFFFFFF02#32 }
     Running (at_ 3#32 .check s) .pack (latch 3#32 s) .check ∧ (latch 3#32 s).pixbase.toNat % 2 = 0 ∧
     2 ^ 32 < (latch 3#32 s).pixbase.toNat + 2 * (8 * 16)) ∧
    (let s := { geo 8#16 16#16 0#9 with pixbase := 0xFFFFFF00#32 }
     Running (at_ 3#32 .check s) .pack (latch 3#32 s) .check ∧ (latch 3#32 s).pixbase.toNat % 2 = 0 ∧
     (latch 3#32 s).pixbase.toNat + 2 * (8 * 16) ≤ 2 ^ 32) := by unfold Running; decide

theorem witness_SampleAddressesAreLegal :
    (let s := { geo 8#16 16#16 0#9 with pixbase := 0xFFFFFF00#32 }
     bufferError s.cfg (latch 3#32 s) = none ∧ 7 < (latch 3#32 s).width.toNat ∧ 15 < (latch 3#32 s).height.toNat) := by
  decide

theorem witness_FillTakesOneActionAStep :
    AllAdmitted Config.default (latch 3#32 (geo 8#16 16#16 0#9)) ∧
    fillActs (latch 3#32 (geo 8#16 16#16 0#9)) Fill.empty ≠ [] ∧
    Running (at_ 3#32 .fill (geo 8#16 16#16 0#9)) .pack (latch 3#32 (geo 8#16 16#16 0#9)) .fill ∧
    Running (at_ 4#32 .fill (geo 8#16 16#16 0#9)) .writeFrame (latch 4#32 (geo 8#16 16#16 0#9)) .fill := by
  refine ⟨fun _ _ => rfl, ?_, by unfold Running; decide, by unfold Running; decide⟩
  intro h
  have hm : FillAct.sample 0 ∈ fillActs (latch 3#32 (geo 8#16 16#16 0#9)) Fill.empty :=
    mem_fillActs_sample.2 (by decide)
  rw [h] at hm
  cases hm

theorem witness_FillActionsAreBounded :
    (let s := geo 8#16 16#16 0#9
     FillAction (latch 3#32 s) s (readSample (latch 3#32 s) 127 s)) :=
  .inl ⟨127, false, 0, by decide, by decide, by rfl, fun _ => by decide⟩

/-- A fill at its first sample, whose read the memory port answers with `a`. -/
def reading (a : PixAnswer) : State :=
  at_ 3#32 .fill { geo 8#16 16#16 0#9 with cfg := { Config.default with pixMap := [⟨0, 2, a⟩] } }

theorem witness_UnadmittedReadRaisesMemError :
    Running (reading .denied) .pack (latch 3#32 (reading .denied)) .fill ∧
    pickAct (fillActs (latch 3#32 (reading .denied)) (reading .denied).fill) (reading .denied).sched = some (.sample 0) ∧
    pixAnswer (reading .denied).cfg.pixMap ((latch 3#32 (reading .denied)).sampleAddr 0) = .denied ∧
    Running (reading .silent) .pack (latch 3#32 (reading .silent)) .fill ∧
    pickAct (fillActs (latch 3#32 (reading .silent)) (reading .silent).fill) (reading .silent).sched = some (.sample 0) ∧
    pixAnswer (reading .silent).cfg.pixMap ((latch 3#32 (reading .silent)).sampleAddr 0) = .silent :=
  ⟨by unfold Running; decide, rfl, by decide, by unfold Running; decide, rfl, by decide⟩

theorem witness_RacedSampleReadsAsAFreeValue :
    (let s := at_ 4#32 .fill (geo 8#16 16#16 0#9)
     let L := latch 4#32 s
     Running s .writeFrame L .fill ∧ 127 < L.samples ∧ Cells.lookup 127 s.fill.read = none ∧
     (255#32 : Word).toNat = L.sampleAddr 127 + 1) ∧
    (let s := at_ 4#32 .fill { geo 8#16 16#16 0#9 with fill := ⟨[], [], [0]⟩ }
     let L := latch 4#32 s
     Running s .writeFrame L .fill ∧ pickAct (fillActs L s.fill) s.sched = some (.sample 0) ∧ 0 ∈ s.fill.raced ∧
     pixAnswer s.cfg.pixMap (L.sampleAddr 0) = .admitted) := by unfold Running; decide

/-- An 8×16 WRITE_FRAME at its burst, which is outstanding, with its last sample read and its last byte written. -/
def pending : State :=
  at_ 4#32 .burst { geo 8#16 16#16 0#9 with
    fill := ⟨[(127, false)], [15], []⟩, port := some ⟨.data, List.replicate 16 0#8⟩
    packbuf := (List.range 16).map fun k => (k, 0#8) }

theorem witness_RacedSampleReadsAsAFreeValue_read :
    Running pending .writeFrame (latch 4#32 pending) .burst ∧
    (255#32 : Word).toNat = (latch 4#32 pending).sampleAddr 127 + 1 ∧
    (Cells.lookup 127 pending.fill.read).isSome = true ∧ (latch 4#32 pending).byteOfSample 127 = 15 ∧
    15 ∈ pending.fill.written ∧ pending.port = some ⟨.data, List.replicate 16 0#8⟩ ∧
    ∀ k, k < 16 → (Cells.lookup k (redrawSample (latch 4#32 pending) 127 pending).packbuf).isSome = true := by
  refine ⟨by unfold Running; decide, by decide, by decide, by decide, by decide, rfl, fun k hk => ?_⟩
  obtain ⟨f, m, p, e, -, -, -, hb, ho, -⟩ := redrawSample_eq (latch 4#32 pending) 127 pending (by decide)
  rw [e]
  by_cases h : k = 15
  · subst h
    exact Option.isSome_iff_exists.2 ⟨_, hb (by decide) (by decide)⟩
  · show (Cells.lookup k m).isSome = true
    rw [ho k (.inl h)]
    have all : ∀ k < 16, (Cells.lookup k pending.packbuf).isSome = true := by decide
    exact all k hk

/-- An 8×16 WRITE_FRAME at its burst, with its 16 bytes written. -/
def bursting (a : Answer) : State :=
  answered 4#32 .burst a { geo 8#16 16#16 0#9 with packbuf := (List.range 16).map fun k => (k, BitVec.ofNat 8 k) }

theorem witness_BurstSendsPackbufInOrder :
    Running (bursting .ok) .writeFrame (latch 4#32 (bursting .ok)) .burst ∧
    (∀ k, k < 8 * (16 / 8) → (Cells.lookup k (bursting .ok).packbuf).isSome = true) ∧
    (bursting .ok).answers = .ok :: [] := by unfold Running; decide

theorem witness_BurstFailureKeepsTheFrame :
    Running (bursting (.err 7#32 99)) .writeFrame (latch 4#32 (bursting (.err 7#32 99))) .burst ∧
    (∀ k, k < (latch 4#32 (bursting (.err 7#32 99))).n →
      (Cells.lookup k (bursting (.err 7#32 99)).packbuf).isSome = true) ∧
    (bursting (.err 7#32 99)).answers = .err 7#32 99 :: [] := by unfold Running; decide

theorem witness_PackFillsPackbufWithThePackedFrame :
    (let s := { geo 8#16 16#16 0#9 with script := [.wr 32 0 3#32] }
     s.script = [.wr 32 s.cfg.regBase 3#32] ∧ s.busy = false ∧ s.fault = false ∧ s.cfg.wellFormed = true ∧
     bufferError s.cfg (latch 3#32 s) = none) ∧
    AllAdmitted Config.default (latch 3#32 (geo 8#16 16#16 0#9)) := ⟨by decide, fun _ _ => rfl⟩

theorem witness_WriteFrameSendsThePackedFrame :
    (let s := { geo 64#16 48#16 0#9 with script := [.wr 32 0 4#32], answers := [.ok] }
     s.script = [.wr 32 s.cfg.regBase 4#32] ∧ s.busy = false ∧ s.fault = false ∧ s.cfg.wellFormed = true ∧
     bufferError s.cfg (latch 4#32 s) = none ∧ s.answers = .ok :: []) ∧
    AllAdmitted Config.default (latch 4#32 (geo 64#16 48#16 0#9)) := ⟨by decide, fun _ _ => rfl⟩

theorem witness_PackIsTheLoopNest : 15 < 8 * (16 / 8) ∧ 7 < 8 := by decide

theorem witness_UnpackInvertsPack : 16 % 8 = 0 ∧ 7 < 8 ∧ 15 < 16 ∧
    (List.replicate 16 0xA5#8).length = 8 * (16 / 8) := by decide

theorem witness_WireRowsSendTheirByte :
    (let s := answered 1#32 (.tx 22) .ok (geo 128#16 64#16 0#9)
     Running s .init (latch 1#32 s) (.tx 22) ∧ s.answers = .ok :: [] ∧ 22 < (slots .init (latch 1#32 s)).length) ∧
    (let s := answered 6#32 (.tx 1) .ok { State.reset with dstate := .on }
     Running s .setBlank (latch 6#32 s) (.tx 1) ∧ s.answers = .ok :: [] ∧ (slots .setBlank (latch 6#32 s)).length ≤ 1) := by
  unfold Running; decide

theorem witness_BusErrorEndsTheOperation :
    (let s := answered 2#32 (.tx 4) (.err 9#32 1) (geo 128#16 64#16 0#9)
     Running s .setWindow (latch 2#32 s) (.tx 4) ∧
     slotAt (slots .setWindow (latch 2#32 s)) 4 = some (.row .setPageRange) ∧ s.answers = .err 9#32 1 :: []) := by
  unfold Running; decide

theorem witness_UnansweredTransactionHangs :
    (let s := at_ 2#32 (.tx 6) (geo 128#16 64#16 0#9)
     Running s .setWindow (latch 2#32 s) (.tx 6) ∧
     slotAt (slots .setWindow (latch 2#32 s)) 6 = some (.arg 0x07#8) ∧ s.answers = [] ∧ s.script = []) ∧
    (let s := { bursting .ok with answers := [] }
     Running s .writeFrame (latch 4#32 s) .burst ∧ s.answers = [] ∧ s.script = [] ∧
     ∀ k, k < (latch 4#32 s).n → (Cells.lookup k s.packbuf).isSome = true) := by
  unfold Running; decide

theorem witness_IllegalWordsEndWithIllegalOp :
    Running (at_ 0#32 .check State.reset) (.illegal 0#28 0#4) (latch 0#32 State.reset) .check ∧
    (let s := { State.reset with script := [.wr 32 0 7#32] }
     7 ≤ ((7#32 : Word).extractLsb' 0 4).toNat ∧ s.script = [.wr 32 s.cfg.regBase 7#32] ∧ s.busy = false ∧
     s.fault = false ∧ ControlInv s) := by
  refine ⟨by unfold Running; decide, by decide, by decide, by decide, by decide, ?_⟩
  exact ⟨fun h => (by cases h), fun _ => ⟨rfl, rfl⟩, fun r h => (by cases h)⟩

theorem witness_ProtocolViolationsAreExactlyThese : State.reset.fault = false ∧
    ¬(0x020 % 4 ≠ 0 ∨ (0x024 ≤ 0x020 ∧ 0x020 < 0x400) ∨ 0x800 ≤ 0x020) ∧
    (0x024 % 4 ≠ 0 ∨ (0x024 ≤ 0x024 ∧ 0x024 < 0x400)) ∧ (0x3FC % 4 ≠ 0 ∨ (0x024 ≤ 0x3FC ∧ 0x3FC < 0x400)) ∧
    0x400 ≤ 0x7FC ∧ 0x800 ≤ 0x800 ∧ 2 ^ 16 ≤ (0x10000#32 : Word).toNat ∧ ¬2 ^ 16 ≤ (0xFFFF#32 : Word).toNat ∧
    2 ^ 9 ≤ (0x200#32 : Word).toNat ∧ ¬2 ^ 9 ≤ (0x1FF#32 : Word).toNat := by decide

theorem witness_RegisterWritesStoreTheirValue : State.reset.fault = false ∧ State.reset.busy = false ∧
    State.reset.dstate = .uninitialized ∧ (0xFFFF#32 : Word).toNat < 2 ^ 16 ∧ (0x1FF#32 : Word).toNat < 2 ^ 9 := by decide

theorem witness_DefaultGeometriesAndVariants : Config.default.geometry = .default ∧
    supported Config.default 64 48 = true ∧ supported Config.default 8 16 = true ∧ supported Config.default 128 64 = true ∧
    supported Config.default 128 8 = false ∧ supported Config.default 136 64 = false := by decide

theorem witness_PackbufWordsReadLittleEndian :
    (let s := { State.reset with packbuf := [(1020, 1#8), (1021, 2#8), (1022, 3#8), (1023, 4#8)] }
     s.busy = false ∧ 255 < 256 ∧ Cells.lookup (4 * 255) s.packbuf = some 1#8 ∧
     Cells.lookup (4 * 255 + 1) s.packbuf = some 2#8 ∧ Cells.lookup (4 * 255 + 2) s.packbuf = some 3#8 ∧
     Cells.lookup (4 * 255 + 3) s.packbuf = some 4#8) := by decide

theorem witness_BusyReadsRevealNothingOfPackbuf : (at_ 3#32 .fill (geo 8#16 16#16 0#9)).busy = true := by decide

theorem witness_ResetClearsTheBlockAndNothingElse :
    (let s := { at_ 1#32 (.tx 1) (geo 128#16 64#16 0#9) with port := some ⟨.command, [0xAE#8]⟩, script := [.reset 1] }
     s.script = .reset 1 :: [] ∧ s.port = some ⟨.command, [0xAE#8]⟩) ∧
    (let s := { State.reset with script := [.reset 0] }
     s.script = .reset 0 :: [] ∧ s.port = none) := by decide

/-- INIT at its last transaction, and the answer ok. -/
def last : State := { answered 1#32 (.tx 23) .ok (geo 128#16 64#16 0#9) with dstate := .initializing }

theorem last_control : ControlInv last :=
  ⟨fun _ => ⟨latch 1#32 (geo 128#16 64#16 0#9), rfl, by
      have h : decodeCmd (latch 1#32 (geo 128#16 64#16 0#9)).cmd = .init := by decide
      rw [h]
      exact ⟨by decide, by decide⟩⟩,
    fun h => (by cases h), fun r h => (by cases h)⟩

theorem last_display : DStateInv last := fun _ _ _ _ _ => rfl

theorem last_frame : FrameInv last := by
  refine ⟨by decide, fun L _ hL hd => ?_⟩
  have h : L = latch 1#32 (geo 128#16 64#16 0#9) := (Option.some.inj hL).symm
  subst h
  have hi : decodeCmd (latch 1#32 (geo 128#16 64#16 0#9)).cmd = .init := by decide
  rw [hi] at hd
  rcases hd with hd | hd <;> cases hd

theorem witness_DisplayStateChangesOnlyByItsEvents :
    (ControlInv last ∧ DStateInv last ∧ see State.dstate (step last) = some .on) ∧
    see State.dstate (step (at_ 1#32 .check (geo 128#16 64#16 359#9))) = some .initializing ∧
    see State.dstate (step { answered 6#32 (.tx 1) .ok { State.reset with arg := 1#32 } with dstate := .on }) =
      some .blanked ∧
    see State.dstate (step { last with script := [.reset 0] }) = some .uninitialized :=
  ⟨⟨last_control, last_display, by decide⟩, by decide, by decide, by decide⟩

theorem witness_DisplayInvariantIsKept : DStateInv last ∧ see State.busy (step last) = some false :=
  ⟨last_display, by decide⟩

theorem witness_ContrastHasTwoWritersAndReset :
    see State.contrast (step (at_ 1#32 .lazyContrast (geo 128#16 64#16 0#9))) = some 0xCF#32 ∧
    see State.contrast (step { State.reset with script := [.wr 32 0x01C 0x55#32] }) = some 0x55#32 ∧
    see State.contrast (step { State.reset with script := [.wrTemp 32 0x01C], hostReads := [(4, 9#32)] }) = some 9#32 ∧
    see State.contrast (step { State.reset with contrast := 1#32, script := [.reset 0] }) = some 0#32 := by decide

theorem witness_FaultIsStickyAndSilencesWrites :
    (let s := { State.reset with fault := true, script := [.wr 32 0 1#32] }
     s.fault = true ∧ see State.fault (step s) = some true) := by decide

theorem witness_PixelMemoryIsWrittenByTheHostOnly :
    see (fun t => Memory.read t.pix 4294967295) (step { State.reset with script := [.pixWrite 0xFFFFFFFF#32 1#8] }) =
      some 1#8 ∧
    Memory.read State.reset.pix 4294967295 = 0#8 := by decide

theorem witness_TraceGrowsByOneTransaction :
    ControlInv last ∧ see State.trace (step last) = some [⟨.command, [0xAF#8], .ok⟩] := ⟨last_control, by decide⟩

theorem witness_ControlIsKeptAndNothingStops : ControlInv last := last_control

theorem witness_MemoryFormsAreKept :
    (let s := { State.reset with pix := [(0, 1#8), (4294967295, 2#8)], packbuf := [(0, 0#8), (1023, 0#8)] }
     Memory.wf s.pix ∧ Packbuf.wf s.packbuf ∧ see State.busy (step s) = some false) := by decide

theorem witness_LatchedOperandsAreTheRegisters : LatchInv last ∧ see State.busy (step last) = some false :=
  ⟨fun _ => ⟨1#32, rfl⟩, by decide⟩

theorem witness_ResultAndErrcodeAgree : ResultInv last ∧ see State.result (step last) = some .ok ∧
    Result.ok ≠ Result.busError := ⟨⟨rfl, rfl⟩, by decide, by decide⟩

theorem witness_FrameInvariantIsKept : FrameInv last ∧ see State.busy (step last) = some false := ⟨last_frame, by decide⟩

theorem witness_TraceStaysLawful :
    ControlInv last ∧ FrameInv last ∧ PortInv last ∧ TraceInv last ∧ see State.busy (step last) = some false :=
  ⟨last_control, last_frame, fun r h => (by cases h), fun t h => (by cases h), by decide⟩

theorem witness_InitAloneSetsTheAddressingMode :
    (let s := answered 1#32 (.tx 16) .ok (geo 128#16 64#16 0#9)
     Running s .init (latch 1#32 s) (.tx 16) ∧ s.cfg.wellFormed = true ∧ s.answers = .ok :: []) ∧
    slotAt (slots .init (latch 1#32 (geo 128#16 64#16 0#9))) 15 = some (.row .setMemMode) := by unfold Running; decide

theorem witness_ParametersNeverChange : see State.busy (step last) = some false := by decide

end Sys2Proof.Tests
end

section
/-! PROOFS. The scope of FBPACK (00_scope.md): what the engine and the host's accesses leave alone, and the WIRE rows as
transactions of one byte. -/

namespace Sys2Proof.Machine

/-! What the engine leaves alone. -/

/-- The fields that no meaning of an instruction writes: the parameters, the operands that only the host stores, FAULT,
pixel memory, the moves to come and the record of the host's reads (10_state.md R37, 00_scope.md R10). -/
structure EngineKeeps (s t : State) : Prop where
  cfg       : t.cfg = s.cfg
  arg       : t.arg = s.arg
  width     : t.width = s.width
  height    : t.height = s.height
  orient    : t.orient = s.orient
  pixbase   : t.pixbase = s.pixbase
  fault     : t.fault = s.fault
  pix       : t.pix = s.pix
  script    : t.script = s.script
  hostReads : t.hostReads = s.hostReads

theorem transact_engineKeeps (phase : Phase) (bytes : List Byte) (s : State) :
    EngineKeeps s (transact phase bytes s) := by
  obtain ⟨_, _, _, _, _, _, _, _, _, _, h⟩ := transact_frame phase bytes s
  rw [h]
  constructor <;> rfl

theorem sendBurst_engineKeeps (L : Latched) (s : State) : EngineKeeps s (sendBurst L s) := by
  obtain ⟨_, _, _, _, _, _, _, _, _, _, _, h⟩ := sendBurst_frame L s
  rw [h]
  constructor <;> rfl

/-- A step of the fill, whether the operation then ends (PACK) or goes to its burst (WRITE_FRAME). -/
theorem fillTurn_engineKeeps {done : State → State} (L : Latched) (s : State)
    (hd : ∀ u, ∃ r e p b f l, done u =
      { u with result := r, errcode := e, pc := p, busy := b, fill := f, lastError := l }) :
    EngineKeeps s (fillTurn done L s) := by
  obtain ⟨_, _, _, _, _, _, _, _, _, h⟩ := fillTurn_frame L s hd
  rw [h]
  constructor <;> rfl

/-- INIT step 1 writes CONTRAST, its latched copy and the step index. -/
theorem initContrast_engineKeeps (L : Latched) (s : State) : EngineKeeps s (initContrast L s) := by
  unfold initContrast
  split <;> constructor <;> rfl

theorem OpStep.engineKeeps {i : Instr} {L : Latched} {s t : State} (h : OpStep i L s t) : EngineKeeps s t := by
  cases h with
  | lazyContrast => exact initContrast_engineKeeps L s
  | tx => exact transact_engineKeeps _ _ s
  | packFill => exact fillTurn_engineKeeps L s fun u => ⟨_, _, _, _, _, _, rfl⟩
  | frameFill =>
    exact fillTurn_engineKeeps L s fun u => ⟨u.result, u.errcode, _, u.busy, u.fill, u.lastError, rfl⟩
  | burst => exact sendBurst_engineKeeps L s
  | error | initEntry | window | contrast | blank | buffer => constructor <;> rfl

/-- No instruction writes the parameters, the host's operands, FAULT or pixel memory. -/
theorem exec_engineKeeps {i : Instr} {s t : State} (h : exec i s = .next t) : EngineKeeps s t := by
  rcases exec_cases h with ⟨-, -, rfl⟩ | ⟨cmd, -, -, -, rfl⟩ | ⟨L, -, ho⟩ | ⟨n, -, rfl⟩ | ⟨L, -, -, rfl⟩
  · constructor <;> rfl
  · constructor <;> rfl
  · exact ho.engineKeeps
  · exact transact_engineKeeps _ _ s
  · exact sendBurst_engineKeeps L s

theorem engineTurn_engineKeeps {s t : State} (h : engineTurn s = .next t) : EngineKeeps s t := by
  rcases engineTurn_cases h with ⟨-, rfl⟩ | ⟨-, i, -, he⟩
  · constructor <;> rfl
  · exact exec_engineKeeps he

/-! The parameters and pixel memory. -/

theorem storeReg_cfg_pix {r : Reg} {v : Word} {s t : State} (h : storeReg r v s = .next t) :
    t.cfg = s.cfg ∧ t.pix = s.pix := by
  cases r with
  | cmd => exact ⟨(exec_engineKeeps h).cfg, (exec_engineKeeps h).pix⟩
  | arg | status | errcode | width | height | orient | contrast | pixbase | packbuf =>
    cases h
    exact ⟨rfl, rfl⟩

/-- An access to a register reaches neither the parameters nor pixel memory. -/
theorem hostWriteAt_cfg_pix {width addr : Nat} {v : Word} {s t : State} (h : hostWriteAt width addr v s = .next t) :
    t.cfg = s.cfg ∧ t.pix = s.pix := by
  unfold hostWriteAt at h
  split at h
  · rcases hostWrite_cases h with ⟨-, rfl⟩ | ⟨-, rfl⟩ | ⟨-, -, -, he⟩ | ⟨-, -, r, -, -, -, hs⟩
    · exact ⟨rfl, rfl⟩
    · exact ⟨rfl, rfl⟩
    · exact ⟨(exec_engineKeeps he).cfg, (exec_engineKeeps he).pix⟩
    · exact storeReg_cfg_pix hs
  · cases h
    exact ⟨rfl, rfl⟩

/-- A step leaves the parameters as they are, and pixel memory too unless it is the host's own write of one byte of it
(20_memory.md R50). -/
theorem step_cfg_pix {s t : State} (h : step s = .next t) :
    t.cfg = s.cfg ∧
    (t.pix = s.pix ∨ ∃ x b rest, s.script = .pixWrite x b :: rest ∧ t.pix = Memory.write s.pix x.toNat b) := by
  obtain ⟨rest, he | ⟨width, addr, rfl⟩ | ⟨width, addr, v, hw, -⟩ | ⟨x, b, hs, rfl⟩ | ⟨a, -, rfl⟩ | ⟨d, -, rfl⟩⟩ :=
    step_cases h
  · have hk := engineTurn_engineKeeps he
    exact ⟨hk.cfg, .inl hk.pix⟩
  · obtain ⟨_, _, _, hr, -⟩ := hostReadAt_eq width addr { s with script := rest }
    rw [hr]
    exact ⟨rfl, .inl rfl⟩
  · obtain ⟨hc, hp⟩ := hostWriteAt_cfg_pix hw
    exact ⟨hc, .inl hp⟩
  · obtain ⟨_, _, _, _, hp, -⟩ := hostPixWrite_eq x b { s with script := rest }
    rw [hp]
    exact ⟨rfl, .inr ⟨x, b, rest, hs, rfl⟩⟩
  · exact ⟨rfl, .inl rfl⟩
  · exact ⟨rfl, .inl rfl⟩

/-- Settles O58: the first half of `step_cfg_pix`. -/
theorem parametersNeverChange : Obligations.ParametersNeverChange := by
  intro s t h
  exact (step_cfg_pix h).1

/-- Settles O48: pixel memory changes only by a host write of one byte, and such a write leaves every other byte alone. -/
theorem pixelMemoryIsWrittenByTheHostOnly : Obligations.PixelMemoryIsWrittenByTheHostOnly := by
  intro s t a h hne
  rcases (step_cfg_pix h).2 with hp | ⟨x, b, rest, hs, hp⟩
  · exact absurd (by rw [hp]) hne
  · by_cases hx : a = x.toNat
    · exact ⟨x, b, rest, hs, hx.symm⟩
    · exact absurd (by rw [hp, Memory.read_write_other b hx]) hne

/-! The WIRE rows. -/

/-- The DSTATE after the last transaction of an operation, written out (40_sequencer.md R114, 44_contrast_blank.md R205,
R206). -/
theorem finish_dstate (op : Instr) (L : Latched) (s : State) :
    (finish op L s).dstate =
      if op = .init then .on
      else if op = .setBlank ∧ (s.dstate = .on ∨ s.dstate = .blanked) then (if L.arg = 0#32 then .on else .blanked)
      else s.dstate := by
  by_cases hi : op = .init
  · subst hi
    rfl
  · by_cases hb : op = .setBlank
    · subst hb
      by_cases ha : L.arg = 0#32 <;> simp [finish_blank, Latched.blank, truthy, ha]
    · simp [finish, hi, hb]

/-- The end of an operation that raised no error is the end that 60_exceptions.md R224 describes. -/
theorem endOp_none_eq_ended (s : State) : endOp none s = ended .ok 0#32 none s := rfl

/-- Settles O30: a row sends its byte as `emit` does, and `transact_ok` says what follows the answer. -/
theorem wireRowsSendTheirByte : Obligations.WireRowsSendTheirByte := by
  intro n s op L k rest hr ha
  rw [exec_ofWire, emit, transact_ok hr ha]
  constructor
  · intro hk
    rw [if_pos hk]
  · intro hk
    rw [if_neg (Nat.not_lt.2 hk), endOp_none_eq_ended, finish_eq, finish_dstate]
    rfl

end Sys2Proof.Machine
end

section
/-! PROOFS. The host state (10_state.md), first part: which steps the machine has, said once. The CMD write of an idle
block starts its operation; the engine at a transaction or at the burst sends what stands there; and every step is one of
the events of `Event`. -/

namespace Sys2Proof.Machine

/-! The CMD write. -/

/-- The word of the instruction a CMD word decodes to is that word (30_encoding.md R93). -/
theorem encodeCmd_decodeCmd (w : Word) : encodeCmd (decodeCmd w) = some w := by
  unfold decodeCmd
  split
  · exact congrArg some (fields_append w)
  · rename_i hr
    have word : ∀ o, cmdOpcode w = o → some (0#28 ++ o : Word) = some w := by
      intro o ho
      rw [← fields_append w, Classical.not_not.1 hr, ho]
    split
    · exact word 1#4 ‹_›
    split
    · exact word 2#4 ‹_›
    split
    · exact word 3#4 ‹_›
    split
    · exact word 4#4 ‹_›
    split
    · exact word 5#4 ‹_›
    split
    · exact word 6#4 ‹_›
    · exact congrArg some (fields_append w)

/-- With no operation running and no fault, executing an operation starts it. -/
theorem exec_idle {i : Instr} {cmd : Word} {s : State} (hi : encodeCmd i = some cmd) (hb : s.busy = false)
    (hf : s.fault = false) : exec i s = .next (startOp cmd s) := by
  cases i with
  | init | setWindow | pack | writeFrame | setContrast | setBlank | illegal =>
    cases hi
    simp only [exec, execInit, execSetWindow, execPack, execWriteFrame, execSetContrast, execSetBlank, execIllegal,
      opTurn_idle _ hb hf]
  | _ => cases hi

/-- 10_state.md R32: the CMD write of any word starts the operation of that word. -/
theorem exec_decodeCmd_idle (w : Word) {s : State} (hb : s.busy = false) (hf : s.fault = false) :
    exec (decodeCmd w) s = .next (startOp w s) := exec_idle (encodeCmd_decodeCmd w) hb hf

/-! The engine at a transaction. -/

/-- The engine at transaction `t_k` sends the byte of slot `k`, be it a constant of WIRE or a computed argument. -/
theorem engineTurn_tx {op : Instr} {s : State} {L : Latched} {k : Nat} {slot : Slot} (h : Running s op L (.tx k))
    (hs : slotAt (slots op L) k = some slot) :
    engineTurn s = .next (transact .command [slotByte s.cfg.wire slot] s) := by
  have hx := exec_tx h hs
  obtain ⟨hb, hL, rfl, hp⟩ := h
  cases slot with
  | row n =>
    have hf : fetch s = some (.ofWire n) := by simp [fetch, hL, hp, hs]
    simp only [engineTurn, hb, hf, if_true, exec_ofWire]
    rfl
  | arg b =>
    have hf : fetch s = some (decodeCmd L.cmd) := by simp [fetch, hL, hp, hs]
    simp only [engineTurn, hb, hf, if_true, hx]

/-- The engine at the burst sends it. -/
theorem engineTurn_burst {s : State} {L : Latched} (hb : s.busy = true) (hL : s.latched = some L)
    (hp : s.pc = .burst) : engineTurn s = .next (sendBurst L s) := by
  have hf : fetch s = some .dataBurst := by simp [fetch, hL, hp]
  simp only [engineTurn, hb, hf, if_true, exec, execDataBurst, hL]

/-- At every other step of an operation the engine executes the operation itself. -/
theorem fetch_operation {s : State} {L : Latched} (hL : s.latched = some L)
    (hp : s.pc = .check ∨ s.pc = .lazyContrast ∨ s.pc = .fill) : fetch s = some (decodeCmd L.cmd) := by
  rcases hp with hp | hp | hp <;> simp [fetch, hL, hp]

/-! The host's writes. -/

/-- CONTRAST stands at offset 0x01C, for accesses of 32 bits, and nowhere else (10_state.md R20). -/
theorem regAt_contrast {width off : Nat} (h : regAt width off = some .contrast) : width = 32 ∧ off = 0x01C := by
  have hw : width = 32 := Decidable.byContradiction fun hw => by
    simp [regAt, hw] at h
  have ho : off = 0x01C := Decidable.byContradiction fun ho => by
    simp only [regAt, if_neg ho] at h
    repeat' split at h
    all_goals cases h
  exact ⟨hw, ho⟩

/-! Events. -/

/-- Everything a step can do to `u`, the state with the script as the step leaves it; `moves` is the script before. -/
inductive Event (moves : List Move) (u : State) : State → Prop where
  /-- The engine waits for the host, or an access of the host has no effect. -/
  | none : Event moves u u
  /-- The running operation takes a step. -/
  | operation (i : Instr) (L : Latched) (t : State) : Running u i L u.pc → OpStep i L u t → Event moves u t
  /-- The engine sends the burst, fetched as the row DATA_BURST. -/
  | burst (L : Latched) : u.busy = true → u.latched = some L → u.pc = .burst → Event moves u (sendBurst L u)
  /-- The host reads. -/
  | read (f : Bool) (r : List (Nat × Word)) (d : Nat) : (u.fault = true → f = true) →
      Event moves u { u with fault := f, hostReads := r, draws := d }
  /-- The host's write is a protocol violation. -/
  | violation : Event moves u (faultP u)
  /-- The host writes CMD. -/
  | start (cmd : Word) : u.busy = false → u.fault = false → Event moves u (startOp cmd u)
  /-- The host writes another register; CONTRAST, only at its own offset. -/
  | store (a : Word) (w h : BitVec 16) (o : BitVec 9) (c p : Word) : u.busy = false → u.fault = false →
      (c = u.contrast ∨ moves.head? = some (.wr 32 (u.cfg.regBase + 0x01C) c) ∨
        (moves.head? = some (.wrTemp 32 (u.cfg.regBase + 0x01C)) ∧ c = temp u)) →
      Event moves u { u with arg := a, width := w, height := h, orient := o, contrast := c, pixbase := p }
  /-- The host writes a byte of pixel memory. -/
  | pixel (a : Word) (b : Byte) : Event moves u (hostPixWrite a b u)
  /-- The transport gives an answer. -/
  | answer (l : List Answer) : Event moves u { u with answers := l }
  /-- The platform asserts reset. -/
  | reset (d : Nat) (rest : List Move) : moves = .reset d :: rest → Event moves u (resetDevice d u)

/-- A register write that is not CMD's, of a write move at the offset of the register. -/
theorem storeReg_event {moves : List Move} {r : Reg} {width off : Nat} {v : Word} {s t : State}
    (h : storeReg r v s = .next t) (hc : r ≠ .cmd) (hr : regAt width off = some r) (hb : s.busy = false)
    (hf : s.fault = false)
    (hm : moves.head? = some (.wr width (s.cfg.regBase + off) v) ∨
      (moves.head? = some (.wrTemp width (s.cfg.regBase + off)) ∧ v = temp s)) : Event moves s t := by
  cases r with
  | cmd => exact absurd rfl hc
  | status | errcode | packbuf =>
    cases h
    exact .none
  | contrast =>
    cases h
    obtain ⟨rfl, rfl⟩ := regAt_contrast hr
    exact .store _ _ _ _ v _ hb hf (.inr hm)
  | arg | width | height | orient | pixbase =>
    cases h
    exact .store _ _ _ _ s.contrast _ hb hf (.inl rfl)

/-- A write move of the host. -/
theorem hostWriteAt_event {moves : List Move} {width addr : Nat} {v : Word} {s t : State}
    (h : hostWriteAt width addr v s = .next t)
    (hm : moves.head? = some (.wr width addr v) ∨ (moves.head? = some (.wrTemp width addr) ∧ v = temp s)) :
    Event moves s t := by
  unfold hostWriteAt windowOffset at h
  by_cases hbase : s.cfg.regBase ≤ addr
  · obtain ⟨off, rfl⟩ := Nat.exists_eq_add_of_le hbase
    simp only [hbase, if_true, Nat.add_sub_cancel_left] at h
    rcases hostWrite_cases h with ⟨-, rfl⟩ | ⟨-, rfl⟩ | ⟨hf, hb, -, he⟩ | ⟨hf, hb, r, hr, hc, -, hs⟩
    · exact .none
    · exact .violation
    · rw [exec_decodeCmd_idle v hb hf] at he
      cases he
      exact .start v hb hf
    · exact storeReg_event hs hc hr hb hf hm
  · simp only [hbase, if_false] at h
    cases h
    exact .none

/-- A turn of the engine. -/
theorem engineTurn_event {moves : List Move} {s t : State} (h : engineTurn s = .next t) : Event moves s t := by
  rcases turn_cases h with ⟨-, rfl⟩ | ⟨i, L, hr, ho⟩ | ⟨L, k, n, hb, hL, hp, hs, rfl⟩ | ⟨L, hb, hL, hp, rfl⟩
  · exact .none
  · exact .operation i L t hr ho
  · exact .operation _ L _ ⟨hb, hL, rfl, rfl⟩ (.tx k (.row n) hp hs)
  · exact .burst L hb hL hp

/-- Every step is one of the events. -/
theorem step_event {s t : State} (h : step s = .next t) : ∃ rest, Event s.script { s with script := rest } t := by
  obtain ⟨rest, he | ⟨width, addr, rfl⟩ | ⟨width, addr, v, hw, hm⟩ | ⟨a, b, -, rfl⟩ | ⟨a, -, rfl⟩ | ⟨d, hs, rfl⟩⟩ :=
    step_cases h <;> refine ⟨rest, ?_⟩
  · exact engineTurn_event he
  · obtain ⟨f, r, d, hr, hf⟩ := hostReadAt_eq width addr { s with script := rest }
    rw [hr]
    exact .read f r d hf
  · refine hostWriteAt_event hw ?_
    rcases hm with hm | ⟨hm, hv⟩
    · exact .inl (by rw [hm, List.head?_cons])
    · exact .inr ⟨by rw [hm, List.head?_cons], hv⟩
  · exact .pixel a b
  · exact .answer _
  · exact .reset d rest hs

end Sys2Proof.Machine
end

section
/-! PROOFS. The host state, second part: what one step of a running operation does to the control of the engine, to the
port and to the trace; the control invariant (10_state.md R31, R36, R40); and that nothing stops. -/

namespace Sys2Proof.Machine

/-! The outcomes of a transaction and of a step of the fill. -/

/-- A Command transaction of a running operation waits for its answer, goes on to the next one, ends the operation, or
ends it with BusError. -/
theorem transact_tx_cases {op : Instr} {s : State} {L : Latched} {k : Nat} (b : Byte) (h : Running s op L (.tx k)) :
    (s.answers = [] ∧ transact .command [b] s = { s with port := some ⟨.command, [b]⟩ }) ∨
    (∃ rest, s.answers = .ok :: rest ∧ k < (slots op L).length ∧
      transact .command [b] s = { sent .command [b] .ok rest s with pc := .tx (k + 1) }) ∨
    (∃ rest, s.answers = .ok :: rest ∧ (slots op L).length ≤ k ∧
      transact .command [b] s = endOp none (finish op L (sent .command [b] .ok rest s))) ∨
    (∃ c r rest, transact .command [b] s = raise (.bus c) (sent .command [b] r rest s)) := by
  rcases transact_cases .command [b] s with ⟨ha, h1⟩ | ⟨rest, ha, -⟩ | ⟨c, d, rest, -, h1⟩
  · exact .inl ⟨ha, h1⟩
  · have h1 := transact_ok (b := b) h ha
    by_cases hk : k < (slots op L).length
    · exact .inr (.inl ⟨rest, ha, hk, h1.trans (if_pos hk)⟩)
    · exact .inr (.inr (.inl ⟨rest, ha, Nat.not_lt.1 hk, h1.trans (if_neg hk)⟩))
  · exact .inr (.inr (.inr ⟨c, _, rest, h1⟩))

/-- The burst waits for its answer or ends the operation. -/
theorem sendBurst_cases {s : State} {L : Latched} (hL : s.latched = some L) (hp : s.pc = .burst) :
    ∃ bytes d, (sendBurst L s = { s with draws := d, port := some ⟨.data, bytes⟩ }) ∨
      ∃ e r rest, sendBurst L s = endOp e (sent .data bytes r rest { s with draws := d }) := by
  obtain ⟨bytes, d, -, hs⟩ := sendBurst_eq L s
  refine ⟨bytes, d, ?_⟩
  rw [hs]
  rcases transact_cases .data bytes { s with draws := d } with ⟨-, h⟩ | ⟨rest, -, h⟩ | ⟨c, n, rest, -, h⟩ <;> rw [h]
  · exact .inl rfl
  · refine .inr ⟨none, .ok, rest, ?_⟩
    simp only [advance, hL, hp]
    rfl
  · exact .inr ⟨_, _, rest, rfl⟩

/-- One step of the fill takes an action, after which the fill goes on or is done, or raises MemError; PACKBUF keeps its
canonical form. -/
theorem fillTurn_outcome (done : State → State) (L : Latched) (s : State) :
    ∃ f n sc m, (Packbuf.wf s.packbuf → Packbuf.wf m) ∧
      (fillTurn done L s = { s with fill := f, draws := n, sched := sc, packbuf := m } ∨
       fillTurn done L s = done { s with fill := f, draws := n, sched := sc, packbuf := m } ∨
       ∃ a, fillTurn done L s = raise (.mem a) { s with fill := f, draws := n, sched := sc, packbuf := m }) := by
  have goesOn : ∀ u, fillNext done L u = u ∨ fillNext done L u = done u := fun u =>
    (fillNext_cases done L u).elim (fun h => .inr h.2) (fun h => .inl h.2)
  rcases fillTurn_cases done L s with ⟨-, h⟩ | ⟨j, -, ⟨-, h⟩ | ⟨-, h⟩ | ⟨-, h⟩⟩ | ⟨k, -, h⟩
  · exact ⟨s.fill, s.draws, s.sched, s.packbuf, id, .inr (.inl h)⟩
  · exact ⟨s.fill, s.draws, s.sched, s.packbuf, id, .inl h⟩
  · exact ⟨s.fill, s.draws, s.sched, s.packbuf, id, .inr (.inr ⟨_, h⟩)⟩
  · obtain ⟨b, d, hr, -⟩ := readSample_eq L j s
    rw [hr] at h
    exact ⟨_, d, _, s.packbuf, id, (goesOn _).imp h.trans fun h' => .inl (h.trans h')⟩
  · exact ⟨_, s.draws, _, _, fun hw => packWrite_keeps_wf hw _ _,
      (goesOn _).imp h.trans fun h' => .inl (h.trans h')⟩

/-! The control invariant: how it is used and how it is met. -/

theorem ControlInv.isStepOf {s : State} {i : Instr} {L : Latched} (hc : ControlInv s) (hr : Running s i L s.pc) :
    isStepOf i L s.pc := by
  obtain ⟨hb, hL, rfl, -⟩ := hr
  obtain ⟨L', hL', hs⟩ := hc.1 hb
  cases hL.symm.trans hL'
  exact hs

/-- Away from the transactions nothing is outstanding. -/
theorem ControlInv.port_none {s : State} (hc : ControlInv s) (hp : ¬((∃ k, s.pc = .tx k) ∨ s.pc = .burst)) :
    s.port = none := by
  obtain ⟨-, -, hport⟩ := hc
  cases hq : s.port with
  | none => rfl
  | some r => exact absurd (hport r hq) hp

theorem ControlInv.port_none_of_idle {s : State} (hc : ControlInv s) (hb : s.busy = false) : s.port = none := by
  obtain ⟨hp, -⟩ := hc.2.1 hb
  exact hc.port_none (by simp [hp])

/-- An operation is at one of its steps, and a request is outstanding only at a transaction. -/
theorem ControlInv.of_running {s : State} {i : Instr} {L : Latched} {pc : Pc} (hr : Running s i L pc)
    (hp : Machine.isStepOf i L pc) (hport : s.port = none ∨ (∃ k, pc = .tx k) ∨ pc = .burst) : ControlInv s := by
  obtain ⟨hb, hL, rfl, rfl⟩ := hr
  refine ⟨fun _ => ⟨L, hL, hp⟩, fun h => ?_, fun r h => ?_⟩
  · rw [hb] at h
    cases h
  · rcases hport with hn | hs
    · rw [hn] at h
      cases h
    · exact hs

/-- The end of an operation, with nothing outstanding. -/
theorem ControlInv.of_endOp {s : State} (e : Option OpError) (h : s.port = none) : ControlInv (endOp e s) := by
  refine ⟨nofun, fun _ => ⟨rfl, rfl⟩, fun r hr => ?_⟩
  rw [endOp_port, h] at hr
  cases hr

/-- The invariant speaks of BUSY, the step, the latched operands, the port, and the fill of an idle block. -/
theorem ControlInv.congr {s t : State} (hc : ControlInv s) (hb : t.busy = s.busy) (hp : t.pc = s.pc)
    (hL : t.latched = s.latched) (hport : t.port.isSome = s.port.isSome) (hf : s.busy = false → t.fill = s.fill) :
    ControlInv t := by
  obtain ⟨h1, h2, h3⟩ := hc
  refine ⟨?_, fun h => ?_, fun r hr => ?_⟩
  · rwa [hb, hL, hp]
  · rw [hb] at h
    rw [hp, hf h]
    exact h2 h
  · rw [hr] at hport
    obtain ⟨q, hq⟩ := Option.isSome_iff_exists.1 hport.symm
    rw [hp]
    exact h3 q hq

/-! It is kept. -/

theorem transact_controlInv {op : Instr} {s : State} {L : Latched} {k : Nat} {slot : Slot} (b : Byte)
    (hr : Running s op L (.tx k)) (hs : slotAt (slots op L) k = some slot) :
    ControlInv (transact .command [b] s) := by
  have hk : isStepOf op L (.tx k) := slotAt_isSome.1 ⟨slot, hs⟩
  have ⟨hb, hL, hi, hp⟩ := hr
  rcases transact_tx_cases b hr with ⟨-, h⟩ | ⟨rest, -, hlt, h⟩ | ⟨rest, -, -, h⟩ | ⟨c, r, rest, h⟩ <;> rw [h]
  · exact .of_running (i := op) (L := L) ⟨hb, hL, hi, hp⟩ hk (.inr (.inl ⟨k, rfl⟩))
  · exact .of_running (i := op) (L := L) ⟨hb, hL, hi, rfl⟩ ⟨by omega, hlt⟩ (.inl rfl)
  · refine .of_endOp none ?_
    rw [finish_eq]
    rfl
  · exact .of_endOp _ rfl

theorem sendBurst_controlInv {s : State} {L : Latched} (hc : ControlInv s) (hL : s.latched = some L)
    (hp : s.pc = .burst) : ControlInv (sendBurst L s) := by
  obtain ⟨bytes, d, h | ⟨e, r, rest, h⟩⟩ := sendBurst_cases hL hp <;> rw [h]
  · obtain ⟨h1, h2, -⟩ := hc
    exact ⟨h1, h2, fun _ _ => .inr hp⟩
  · exact .of_endOp e rfl

theorem fillTurn_controlInv {done : State → State} {s : State} {i : Instr} {L : Latched} (hc : ControlInv s)
    (hr : Running s i L .fill)
    (hd : ∀ u, Running u i L .fill → u.port = none → ControlInv (done u)) : ControlInv (fillTurn done L s) := by
  have ⟨hb, hL, hi, hp⟩ := hr
  have hport : s.port = none := hc.port_none (by simp [hp])
  obtain ⟨f, n, sc, m, -, h | h | ⟨a, h⟩⟩ := fillTurn_outcome done L s <;> rw [h]
  · exact hc.congr rfl rfl rfl rfl fun h0 => by rw [hb] at h0; cases h0
  · exact hd _ ⟨hb, hL, hi, hp⟩ hport
  · exact .of_endOp _ hport

theorem OpStep.controlInv {i : Instr} {L : Latched} {s t : State} (ho : OpStep i L s t) (hc : ControlInv s)
    (hr : Running s i L s.pc) : ControlInv t := by
  have ⟨hb, hL, hi, _⟩ := hr
  cases ho with
  | error e hp => exact .of_endOp _ (hc.port_none (by simp [hp]))
  | initEntry h hp =>
    exact .of_running (pc := .lazyContrast) ⟨hb, hL, hi, rfl⟩ h (.inl (hc.port_none (by simp [hp])))
  | window h | contrast h | blank h =>
    subst h
    exact .of_running (pc := .tx 1) ⟨hb, hL, hi, rfl⟩ ⟨Nat.le_refl _, by simp [slots, windowSlots, contrastSlots, blankSlots]⟩
      (.inr (.inl ⟨1, rfl⟩))
  | buffer h hp => exact .of_running (pc := .fill) ⟨hb, hL, hi, rfl⟩ h (.inl (hc.port_none (by simp [hp])))
  | lazyContrast h =>
    subst h
    have atFirst (M : Latched) : Machine.isStepOf .init M (.tx 1) := ⟨Nat.le_refl _, by simp [slots, initSlots]⟩
    unfold initContrast
    split
    · exact .of_running (pc := .tx 1) ⟨hb, rfl, hi, rfl⟩ (atFirst _) (.inr (.inl ⟨1, rfl⟩))
    · exact .of_running (pc := .tx 1) ⟨hb, hL, hi, rfl⟩ (atFirst L) (.inr (.inl ⟨1, rfl⟩))
  | tx k slot hp hs => exact transact_controlInv _ (hp ▸ hr) hs
  | packFill h hp => exact fillTurn_controlInv hc (hp ▸ hr) fun u _ hu => .of_endOp none hu
  | frameFill h hp =>
    refine fillTurn_controlInv hc (hp ▸ hr) fun u ⟨ub, uL, ui, _⟩ hu => ?_
    exact .of_running (pc := .burst) ⟨ub, uL, ui, rfl⟩ h (.inl hu)
  | burst h hp => exact sendBurst_controlInv hc hL hp

theorem Event.controlInv {moves : List Move} {s t : State} (he : Event moves s t) (hc : ControlInv s) :
    ControlInv t := by
  cases he with
  | none => exact hc
  | operation i L t hr ho => exact ho.controlInv hc hr
  | burst L hb hL hp => exact sendBurst_controlInv hc hL hp
  | read | violation | store | answer => exact hc.congr rfl rfl rfl rfl fun _ => rfl
  | start cmd hb =>
    exact .of_running (pc := .check) ⟨rfl, rfl, rfl, rfl⟩ trivial (.inl (hc.port_none_of_idle hb))
  | pixel a b =>
    obtain ⟨f, d, m, p, hp, hidle, hport, -⟩ := hostPixWrite_eq a b s
    rw [hp]
    exact hc.congr rfl rfl rfl hport fun hb => (hidle hb).1
  | reset d =>
    exact ⟨nofun, fun _ => ⟨rfl, rfl⟩, nofun⟩

/-! Nothing stops. -/

/-- An operation at one of its steps that is no transaction answers a next state. -/
theorem exec_next {s : State} {op : Instr} {L : Latched} {pc : Pc} (hr : Running s op L pc)
    (hi : isStepOf op L pc) (hp : pc = .check ∨ pc = .lazyContrast ∨ pc = .fill) : ∃ t, exec op s = .next t := by
  have ⟨_, _, hd, _⟩ := hr
  rcases hp with rfl | rfl | rfl
  · cases op with
    | init | setWindow | pack | writeFrame | setContrast | setBlank | illegal =>
      simp only [exec, execInit, execSetWindow, execPack, execWriteFrame, execSetContrast, execSetBlank, execIllegal,
        opTurn_running _ hr]
      exact ⟨_, rfl⟩
    | dataBurst => exact absurd hd (decodeCmd_not_burst _)
    | _ => exact ⟨_, rfl⟩
  · cases hi
    simp only [exec, execInit, opTurn_running _ hr]
    exact ⟨_, rfl⟩
  · rcases hi with rfl | rfl <;> simp only [exec, execPack, execWriteFrame, opTurn_running _ hr] <;> exact ⟨_, rfl⟩

theorem engineTurn_next {s : State} (hc : ControlInv s) : ∃ t, engineTurn s = .next t := by
  cases hb : s.busy with
  | false => exact ⟨s, by simp [engineTurn, hb]⟩
  | true =>
    obtain ⟨L, hL, hi⟩ := hc.1 hb
    have operation (hp : s.pc = .check ∨ s.pc = .lazyContrast ∨ s.pc = .fill) : ∃ t, engineTurn s = .next t := by
      obtain ⟨t, ht⟩ := exec_next ⟨hb, hL, rfl, rfl⟩ hi hp
      exact ⟨t, by simp [engineTurn, hb, fetch_operation hL hp, ht]⟩
    cases hp : s.pc with
    | idle =>
      rw [hp] at hi
      exact hi.elim
    | check => exact operation (.inl hp)
    | lazyContrast => exact operation (.inr (.inl hp))
    | fill => exact operation (.inr (.inr hp))
    | tx k =>
      rw [hp] at hi
      obtain ⟨slot, hs⟩ := slotAt_isSome.2 hi
      exact ⟨_, engineTurn_tx ⟨hb, hL, rfl, hp⟩ hs⟩
    | burst => exact ⟨_, engineTurn_burst hb hL hp⟩

/-- A host write answers a next state, from every state. -/
theorem hostWriteAt_next (width addr : Nat) (v : Word) (s : State) : ∃ t, hostWriteAt width addr v s = .next t := by
  unfold hostWriteAt hostWrite
  repeat' split
  case h_2.isFalse hf _ r _ hv =>
    have hf : s.fault = false := by simpa using hf
    have hb : s.busy = false := by simp_all [writeViolates]
    cases r with
    | cmd => exact ⟨_, exec_decodeCmd_idle v hb hf⟩
    | _ => exact ⟨_, rfl⟩
  all_goals exact ⟨_, rfl⟩

theorem step_next {s : State} (hc : ControlInv s) : ∃ t, step s = .next t := by
  unfold step
  split
  · exact engineTurn_next hc
  · exact engineTurn_next hc
  · split
    · exact engineTurn_next hc
    · exact ⟨_, rfl⟩
  · exact ⟨_, rfl⟩
  · exact hostWriteAt_next _ _ _ _
  · exact hostWriteAt_next _ _ _ _
  all_goals exact ⟨_, rfl⟩

/-- Settles O50: `step_next` has the next state, and `Event.controlInv` keeps the invariant in it. -/
theorem controlIsKeptAndNothingStops : Obligations.ControlIsKeptAndNothingStops := by
  intro s hc
  obtain ⟨t, ht⟩ := step_next hc
  obtain ⟨rest, he⟩ := step_event ht
  exact ⟨t, ht, he.controlInv hc⟩

end Sys2Proof.Machine
end

section
/-! PROOFS. The host state, third part: who writes CONTRAST, the latched operands, DSTATE, RESULT and ERRCODE, FAULT and
the two memories, and the invariants that say so (10_state.md R25, R29, R33 to R35; 20_memory.md R50; 60_exceptions.md R220, R230). -/

namespace Sys2Proof.Machine

/-! CONTRAST and the latched operands. -/

/-- Of the running operations only INIT step 1 writes CONTRAST and its latched copy (40_sequencer.md R113). -/
theorem OpStep.latched_contrast {i : Instr} {L : Latched} {s t : State} (ho : OpStep i L s t) :
    (t.latched = s.latched ∧ t.contrast = s.contrast) ∨
    (i = .init ∧ s.pc = .lazyContrast ∧ t = initContrast L s) := by
  cases ho with
  | error | initEntry | window | contrast | blank | buffer => exact .inl ⟨rfl, rfl⟩
  | lazyContrast hi hp => exact .inr ⟨hi, hp, rfl⟩
  | tx k slot =>
    obtain ⟨_, _, _, _, _, _, _, _, _, _, h⟩ := transact_frame .command [slotByte s.cfg.wire slot] s
    rw [h]
    exact .inl ⟨rfl, rfl⟩
  | packFill | frameFill =>
    obtain ⟨_, _, _, _, -, h | h | ⟨a, h⟩⟩ := fillTurn_outcome _ L s <;> rw [h] <;> exact .inl ⟨rfl, rfl⟩
  | burst =>
    obtain ⟨_, _, _, _, _, _, _, _, _, _, _, h⟩ := sendBurst_frame L s
    rw [h]
    exact .inl ⟨rfl, rfl⟩

theorem sendBurst_latched_contrast (L : Latched) (s : State) :
    (sendBurst L s).latched = s.latched ∧ (sendBurst L s).contrast = s.contrast := by
  obtain ⟨_, _, _, _, _, _, _, _, _, _, _, h⟩ := sendBurst_frame L s
  rw [h]
  exact ⟨rfl, rfl⟩

theorem initContrast_contrast (L : Latched) (s : State) :
    (initContrast L s).contrast = if L.contrast = 0#32 then L.defaultContrast else s.contrast := by
  unfold initContrast
  split <;> rfl

theorem Latched.defaultContrast_eq (L : Latched) :
    L.defaultContrast = if L.height = 64#16 then 0xCF#32 else 0x8F#32 := by
  have h : L.h = 64 ↔ L.height = 64#16 := by rw [← BitVec.toNat_inj]; rfl
  simp only [Latched.defaultContrast, h]

/-- Settles O46: of the events only a reset, a register write and INIT step 1 reach CONTRAST. -/
theorem contrastHasTwoWritersAndReset : Obligations.ContrastHasTwoWritersAndReset := by
  intro s t h hne
  obtain ⟨rest, he⟩ := step_event h
  cases he with
  | none | read | violation | start | answer => exact absurd rfl hne
  | operation i L t hr ho =>
    rcases ho.latched_contrast with ⟨-, hc⟩ | ⟨rfl, hp, rfl⟩
    · exact absurd hc hne
    · rw [initContrast_contrast] at hne ⊢
      by_cases h0 : L.contrast = 0#32
      · rw [if_pos h0, Latched.defaultContrast_eq]
        exact .inr (.inr ⟨L, hp ▸ hr, h0, rfl⟩)
      · exact absurd (if_neg h0) hne
  | burst L => exact absurd (sendBurst_latched_contrast L _).2 hne
  | store a w h o c p hb hf hc =>
    rcases hc with hc | hc
    · exact absurd hc hne
    · exact .inr (.inl ⟨hb, hf, hc⟩)
  | pixel a b =>
    obtain ⟨_, _, _, _, hp, -⟩ := hostPixWrite_eq a b { s with script := rest }
    rw [hp] at hne
    exact absurd rfl hne
  | reset d rest hs => exact .inl ⟨d, rest, hs⟩

/-- The operands as latched are those of any state with the same registers. -/
theorem EngineKeeps.latch {s t : State} (hk : EngineKeeps s t) (hc : t.contrast = s.contrast) (cmd : Word) :
    latch cmd t = latch cmd s := by
  simp only [Machine.latch, hk.arg, hk.width, hk.height, hk.orient, hk.pixbase, hc]

theorem initContrast_latchInv {L : Latched} {s : State} {cmd : Word} (hL : s.latched = some L) (h : L = latch cmd s) :
    LatchInv (initContrast L s) := by
  intro _
  subst h
  unfold initContrast
  split
  · exact ⟨cmd, rfl⟩
  · exact ⟨cmd, hL⟩

theorem OpStep.latchInv {i : Instr} {L : Latched} {s t : State} (ho : OpStep i L s t) (hr : Running s i L s.pc)
    (hl : LatchInv s) : LatchInv t := by
  obtain ⟨hb, hL, -, -⟩ := hr
  obtain ⟨cmd, hc⟩ := hl hb
  rcases ho.latched_contrast with ⟨htl, htc⟩ | ⟨-, -, rfl⟩
  · exact fun _ => ⟨cmd, by rw [htl, hc, ho.engineKeeps.latch htc]⟩
  · exact initContrast_latchInv hL (Option.some.inj (hL.symm.trans hc))

/-- Settles O52: every event keeps the latched operands equal to the registers; while BUSY = 1 the one event that writes
an operand is INIT step 1, which writes its latched copy too. -/
theorem latchedOperandsAreTheRegisters : Obligations.LatchedOperandsAreTheRegisters := by
  intro s t hl h
  obtain ⟨rest, he⟩ := step_event h
  replace hl : LatchInv { s with script := rest } := hl
  generalize { s with script := rest } = u at he hl
  cases he with
  | none | read | violation | answer => exact hl
  | operation i L t hr ho => exact ho.latchInv hr hl
  | burst L hb =>
    obtain ⟨cmd, hc⟩ := hl hb
    obtain ⟨htl, htc⟩ := sendBurst_latched_contrast L u
    exact fun _ => ⟨cmd, by rw [htl, hc, (sendBurst_engineKeeps L u).latch htc]⟩
  | start cmd => exact fun _ => ⟨cmd, rfl⟩
  | store a w h o c p hb =>
    intro hb'
    rw [show u.busy = true from hb'] at hb
    cases hb
  | pixel a b =>
    obtain ⟨_, _, _, _, hp, -⟩ := hostPixWrite_eq a b u
    rw [hp]
    exact hl
  | reset d => exact nofun

/-! DSTATE. -/

/-- What the last transaction does to DSTATE does not depend on the port, the answers or the trace. -/
theorem finish_sent_dstate (op : Instr) (L : Latched) (phase : Phase) (bytes : List Byte) (r : Response)
    (rest : List Answer) (s : State) : (finish op L (sent phase bytes r rest s)).dstate = (finish op L s).dstate := by
  rw [finish_dstate, finish_dstate]
  rfl

/-- DSTATE is written by INIT passing its checks and by the last transaction of an operation, answered `ok`. -/
theorem OpStep.dstate_cases {i : Instr} {L : Latched} {s t : State} (ho : OpStep i L s t) (hr : Running s i L s.pc) :
    t.dstate = s.dstate ∨
    (i = .init ∧ s.pc = .check ∧ initError s L = none ∧ t.dstate = .initializing) ∨
    (s.pc = .tx (slots i L).length ∧ s.answers.head? = some .ok ∧ t.dstate = (finish i L s).dstate) := by
  have ⟨_, hL, _, _⟩ := hr
  cases ho with
  | error | window | contrast | blank | buffer => exact .inl rfl
  | initEntry hi hp h0 => exact .inr (.inl ⟨hi, hp, h0, rfl⟩)
  | lazyContrast =>
    unfold initContrast
    split <;> exact .inl rfl
  | tx k slot hp hs =>
    obtain ⟨-, hk⟩ := slotAt_isSome.1 ⟨slot, hs⟩
    rcases transact_tx_cases (slotByte s.cfg.wire slot) (hp ▸ hr) with
      ⟨-, h⟩ | ⟨rest, -, -, h⟩ | ⟨rest, ha, hlen, h⟩ | ⟨c, r, rest, h⟩ <;> rw [h]
    · exact .inl rfl
    · exact .inl rfl
    · refine .inr (.inr ⟨by rw [hp, Nat.le_antisymm hk hlen], by rw [ha, List.head?_cons], ?_⟩)
      rw [endOp_dstate, finish_sent_dstate]
    · exact .inl rfl
  | packFill | frameFill =>
    obtain ⟨_, _, _, _, -, h | h | ⟨a, h⟩⟩ := fillTurn_outcome _ L s <;> rw [h] <;> exact .inl rfl
  | burst _ hp =>
    obtain ⟨_, _, h | ⟨_, _, _, h⟩⟩ := sendBurst_cases hL hp <;> rw [h] <;> exact .inl rfl

/-- INIT passes its check step (40_sequencer.md R111). -/
theorem initError_none {s : State} {L : Latched} (h : initError s L = none) :
    (s.dstate = .uninitialized ∨ s.dstate = .initializing) ∧ supported s.cfg L.width.toNat L.height.toNat = true ∧
    L.orient.toNat ≤ 359 := by
  unfold initError at h
  split at h
  · cases h
  · rename_i hd
    split at h
    · cases h
    · rename_i hs
      split at h
      · cases h
      · rename_i ho
        refine ⟨?_, eq_true_of_ne_false hs, by omega⟩
        cases hds : s.dstate <;> simp [hds] at hd ⊢

/-- Settles O44: `OpStep.dstate_cases` for the running operation, whose last transaction `finish_dstate` spells out; of
the other events only a reset writes DSTATE. -/
theorem displayStateChangesOnlyByItsEvents : Obligations.DisplayStateChangesOnlyByItsEvents := by
  intro s t hc hd h
  obtain ⟨rest, he⟩ := step_event h
  cases he with
  | none | read | violation | start | store | answer => exact .inl rfl
  | operation i L t hr ho =>
    have ⟨hb, hL, hi, _⟩ := hr
    rcases ho.dstate_cases hr with hs | ⟨rfl, hp, h0, ht⟩ | ⟨hp, ha, ht⟩
    · exact .inl hs
    · obtain ⟨h1, h2, h3⟩ := initError_none h0
      exact .inr (.inr (.inl ⟨L, hp ▸ hr, h1, h2, h3, ht⟩))
    · rw [finish_dstate] at ht
      by_cases hinit : i = .init
      · rw [if_pos hinit] at ht
        subst hinit
        have hds := hd L hb hL hi fun hp' => by cases hp.symm.trans hp'
        exact .inr (.inr (.inr (.inl ⟨L, hp ▸ hr, hds, ha, ht⟩)))
      · rw [if_neg hinit] at ht
        by_cases hblank : i = .setBlank ∧ (s.dstate = .on ∨ s.dstate = .blanked)
        · obtain ⟨rfl, hon⟩ := id hblank
          exact .inr (.inr (.inr (.inr ⟨L, hp ▸ hr, hon, ha, ht.trans (if_pos hblank)⟩)))
        · exact .inl (ht.trans (if_neg hblank))
  | burst L hb hL hp =>
    obtain ⟨_, _, h | ⟨_, _, _, h⟩⟩ := sendBurst_cases hL hp <;> rw [h] <;> exact .inl rfl
  | pixel a b =>
    obtain ⟨_, _, _, _, hp, -⟩ := hostPixWrite_eq a b { s with script := rest }
    rw [hp]
    exact .inl rfl
  | reset d rest hs => exact .inr (.inl ⟨⟨d, rest, hs⟩, rfl⟩)

theorem OpStep.dstateInv {i : Instr} {L : Latched} {s t : State} (ho : OpStep i L s t) (hr : Running s i L s.pc)
    (hd : DStateInv s) : DStateInv t := by
  have ⟨hb, hL, hi, _⟩ := hr
  intro M htb htL hM htp
  by_cases hinit : i = .init
  · subst hinit
    cases ho with
    | error => cases htb
    | initEntry => rfl
    | lazyContrast _ hp =>
      have hs := hd L hb hL hi (by simp [hp])
      unfold initContrast
      split <;> exact hs
    | tx k slot hp =>
      have hs := hd L hb hL hi (by simp [hp])
      rcases transact_tx_cases (slotByte s.cfg.wire slot) (hp ▸ hr) with
        ⟨-, h⟩ | ⟨rest, -, -, h⟩ | ⟨rest, -, -, h⟩ | ⟨c, r, rest, h⟩ <;> rw [h] at htb ⊢
      · exact hs
      · exact hs
      · cases htb
      · cases htb
    | window h | contrast h | blank h | packFill h | frameFill h | burst h => cases h
    | buffer h => rcases h with h | h <;> cases h
  · rcases ho.latched_contrast with ⟨hl, -⟩ | ⟨h, -⟩
    · rw [hl, hL] at htL
      cases htL
      exact absurd (hi.symm.trans hM) hinit
    · exact absurd h hinit

/-- Settles O45: every event keeps the display invariant. -/
theorem displayInvariantIsKept : Obligations.DisplayInvariantIsKept := by
  intro s t hd h
  obtain ⟨rest, he⟩ := step_event h
  replace hd : DStateInv { s with script := rest } := hd
  generalize { s with script := rest } = u at he hd
  cases he with
  | none | read | violation | store | answer => exact hd
  | operation i L t hr ho => exact ho.dstateInv hr hd
  | burst L hb hL hp =>
    intro M htb htL hM _
    obtain ⟨_, _, h | ⟨_, _, _, h⟩⟩ := sendBurst_cases hL hp <;> rw [h] at htb htL ⊢
    · exact hd M hb htL hM (by simp [hp])
    · cases htb
  | start => exact fun _ _ _ _ hp => absurd rfl hp
  | pixel a b =>
    obtain ⟨_, _, _, _, hp, -⟩ := hostPixWrite_eq a b u
    rw [hp]
    exact hd
  | reset d => exact nofun

/-! RESULT and ERRCODE. -/

theorem ResultInv.of_endOp (e : Option OpError) (s : State) : ResultInv (endOp e s) := ⟨rfl, rfl⟩

theorem transact_resultInv (phase : Phase) (bytes : List Byte) {s : State} (hs : ResultInv s) :
    ResultInv (transact phase bytes s) := by
  rcases transact_cases phase bytes s with ⟨-, h⟩ | ⟨rest, -, h⟩ | ⟨c, d, rest, -, h⟩ <;> rw [h]
  · exact hs
  · rcases advance_cases { s with port := none, answers := rest, trace := s.trace ++ [⟨phase, bytes, .ok⟩] } with
      h | ⟨L, k, -, -, -, h⟩ | ⟨L, k, -, -, -, h⟩ | ⟨-, h⟩ <;> rw [h]
    · exact hs
    · exact hs
    · exact .of_endOp _ _
    · exact .of_endOp _ _
  · exact .of_endOp _ _

theorem sendBurst_resultInv (L : Latched) {s : State} (hs : ResultInv s) : ResultInv (sendBurst L s) := by
  obtain ⟨bytes, d, -, h⟩ := sendBurst_eq L s
  rw [h]
  exact transact_resultInv .data bytes hs

theorem fillTurn_resultInv {done : State → State} (L : Latched) {s : State}
    (hd : ∀ u, ResultInv u → ResultInv (done u)) (hs : ResultInv s) : ResultInv (fillTurn done L s) := by
  obtain ⟨_, _, _, _, -, h | h | ⟨a, h⟩⟩ := fillTurn_outcome done L s <;> rw [h]
  · exact hs
  · exact hd _ hs
  · exact .of_endOp _ _

theorem OpStep.resultInv {i : Instr} {L : Latched} {s t : State} (ho : OpStep i L s t) (hs : ResultInv s) :
    ResultInv t := by
  cases ho with
  | error => exact .of_endOp _ _
  | initEntry | window | contrast | blank | buffer => exact hs
  | lazyContrast =>
    unfold initContrast
    split <;> exact hs
  | tx => exact transact_resultInv _ _ hs
  | packFill => exact fillTurn_resultInv L (fun u _ => .of_endOp none u) hs
  | frameFill => exact fillTurn_resultInv L (fun _ hu => hu) hs
  | burst => exact sendBurst_resultInv L hs

theorem Event.resultInv {moves : List Move} {s t : State} (he : Event moves s t) (hs : ResultInv s) :
    ResultInv t := by
  cases he with
  | none | read | violation | start | store | answer => exact hs
  | operation i L t _ ho => exact ho.resultInv hs
  | burst L => exact sendBurst_resultInv L hs
  | pixel a b =>
    obtain ⟨_, _, _, _, hp, -⟩ := hostPixWrite_eq a b s
    rw [hp]
    exact hs
  | reset d => exact ⟨rfl, rfl⟩

/-- Only a BusError has an ERRCODE (60_exceptions.md R224). -/
theorem errcodeOf_of_not_busError {e : Option OpError} (h : resultOf e ≠ .busError) : errcodeOf e = 0#32 := by
  rcases e with _ | e
  · rfl
  · cases e with
    | bus => exact absurd rfl h
    | config | state | illegalOp | mem => rfl

/-- Settles O53: every event keeps RESULT and ERRCODE those of the recorded error. -/
theorem resultAndErrcodeAgree : Obligations.ResultAndErrcodeAgree := by
  intro s t hs h
  obtain ⟨rest, he⟩ := step_event h
  obtain ⟨hr, hc⟩ := he.resultInv hs
  refine ⟨⟨hr, hc⟩, fun hne => ?_⟩
  rw [hr] at hne
  rw [hc, errcodeOf_of_not_busError hne]

/-! FAULT. -/

/-- While FAULT = 1 a host write is ignored (60_exceptions.md R230). -/
theorem hostWriteAt_faulted {s : State} (hf : s.fault = true) (width addr : Nat) (v : Word) :
    hostWriteAt width addr v s = .next s := by
  unfold hostWriteAt
  split
  · exact if_pos hf
  · rfl

theorem Event.fault_stays {moves : List Move} {s t : State} (he : Event moves s t) (hf : s.fault = true)
    (hm : ∀ d rest, moves ≠ .reset d :: rest) : t.fault = true := by
  cases he with
  | none | start | store | answer => exact hf
  | operation i L t _ ho => exact ho.engineKeeps.fault.trans hf
  | burst L => exact (sendBurst_engineKeeps L s).fault.trans hf
  | read f r d hr => exact hr hf
  | violation => rfl
  | pixel a b =>
    obtain ⟨_, _, _, _, hp, -⟩ := hostPixWrite_eq a b s
    rw [hp]
    exact hf
  | reset d rest h => exact absurd h (hm d rest)

/-- Settles O47: `Event.fault_stays` and `hostWriteAt_faulted`. -/
theorem faultIsStickyAndSilencesWrites : Obligations.FaultIsStickyAndSilencesWrites := by
  intro s hf
  refine ⟨fun t h hm => ?_, hostWriteAt_faulted hf⟩
  obtain ⟨rest, he⟩ := step_event h
  exact he.fault_stays hf hm

/-! Pixel memory and PACKBUF. -/

/-- The engine writes PACKBUF in the fill only, and by `packWrite`. -/
theorem OpStep.packbuf_wf {i : Instr} {L : Latched} {s t : State} (ho : OpStep i L s t)
    (hw : Packbuf.wf s.packbuf) : Packbuf.wf t.packbuf := by
  cases ho with
  | error | initEntry | window | contrast | blank | buffer => exact hw
  | lazyContrast =>
    unfold initContrast
    split <;> exact hw
  | tx k slot =>
    obtain ⟨_, _, _, _, _, _, _, _, _, _, h⟩ := transact_frame .command [slotByte s.cfg.wire slot] s
    rwa [h]
  | packFill | frameFill =>
    obtain ⟨_, _, _, _, hm, h | h | ⟨a, h⟩⟩ := fillTurn_outcome _ L s <;> rw [h] <;> exact hm hw
  | burst =>
    obtain ⟨_, _, _, _, _, _, _, _, _, _, _, h⟩ := sendBurst_frame L s
    rwa [h]

theorem Event.memoryInv {moves : List Move} {s t : State} (he : Event moves s t) (hs : MemoryInv s) :
    MemoryInv t := by
  have ⟨hpix, hpack⟩ := hs
  cases he with
  | none | read | violation | start | store | answer => exact hs
  | operation i L t _ ho => exact ⟨by rwa [ho.engineKeeps.pix], ho.packbuf_wf hpack⟩
  | burst L =>
    obtain ⟨_, _, _, _, _, _, _, _, _, _, _, h⟩ := sendBurst_frame L s
    rwa [h]
  | pixel a b =>
    obtain ⟨_, _, m, _, hp, -, -, hm⟩ := hostPixWrite_eq a b s
    rw [hp]
    exact ⟨Memory.write_keeps_wf hpix a.isLt b, hm hpack⟩
  | reset d => exact ⟨hpix, List.Pairwise.nil, nofun⟩

/-- Settles O51: every event keeps the two canonical forms. -/
theorem memoryFormsAreKept : Obligations.MemoryFormsAreKept := by
  intro s t hs h
  obtain ⟨rest, he⟩ := step_event h
  exact he.memoryInv hs

end Sys2Proof.Machine
end

section
/-! PROOFS. The host state, fourth part: the bus port and the trace (10_state.md R36; 20_memory.md R60 to R62): what the
engine sends in a step, how the trace grows, that both stay lawful, and the transaction that is never answered. -/

namespace Sys2Proof.Machine

/-! The request of a step. -/

/-- `q` is a request the engine makes at its step: the Command transaction of the slot at `pc`, or a burst of N bytes. -/
def RequestAt (L : Latched) (s : State) (q : Request) : Prop :=
  (∃ k slot, s.pc = .tx k ∧ slotAt (slots (decodeCmd L.cmd) L) k = some slot ∧
    q = ⟨.command, [slotByte s.cfg.wire slot]⟩) ∨
  (s.pc = .burst ∧ q.phase = .data ∧ q.bytes.length = L.n)

theorem portInv_iff (s : State) : PortInv s ↔
    ∀ q, s.port = some q → ∃ L, s.latched = some L ∧ s.busy = true ∧ RequestAt L s q := Iff.rfl

/-- In the step from `s` to `t` the engine makes its request; the burst may draw free values. -/
def Sends (L : Latched) (s t : State) : Prop :=
  ∃ q d, RequestAt L s q ∧ t = transact q.phase q.bytes { s with draws := d }

theorem sendBurst_sends {L : Latched} {s : State} (hp : s.pc = .burst) : Sends L s (sendBurst L s) := by
  obtain ⟨bytes, d, hlen, h⟩ := sendBurst_eq L s
  exact ⟨⟨.data, bytes⟩, d, .inr ⟨hp, rfl, hlen⟩, h⟩

/-- A running operation leaves port and trace alone, away from the transactions, or it makes its request. -/
theorem OpStep.quiet_or_sends {i : Instr} {L : Latched} {s t : State} (ho : OpStep i L s t)
    (hr : Running s i L s.pc) :
    (t.port = s.port ∧ t.trace = s.trace ∧ ¬((∃ k, s.pc = .tx k) ∨ s.pc = .burst)) ∨ Sends L s t := by
  obtain ⟨-, -, rfl, -⟩ := hr
  cases ho with
  | error _ hp | initEntry _ hp | window _ hp | contrast _ hp | blank _ hp | buffer _ hp =>
    exact .inl ⟨rfl, rfl, by simp [hp]⟩
  | lazyContrast _ hp =>
    unfold initContrast
    split <;> exact .inl ⟨rfl, rfl, by simp [hp]⟩
  | tx k slot hp hs => exact .inr ⟨⟨.command, [_]⟩, s.draws, .inl ⟨k, slot, hp, hs, rfl⟩, rfl⟩
  | packFill _ hp | frameFill _ hp =>
    obtain ⟨_, _, _, _, -, h | h | ⟨a, h⟩⟩ := fillTurn_outcome _ L s <;> rw [h] <;>
      exact .inl ⟨rfl, rfl, by simp [hp]⟩
  | burst _ hp => exact .inr (sendBurst_sends hp)

/-- Of a request that is sent either the port is all that changes, or, with an answer there, the port is free and the
trace has one more transaction, of which no more was delivered than sent. -/
theorem transact_port_trace (q : Request) (s : State) :
    (s.answers = [] ∧ transact q.phase q.bytes s = { s with port := some q }) ∨
    (s.answers ≠ [] ∧ (transact q.phase q.bytes s).port = none ∧
      ∃ r, (transact q.phase q.bytes s).trace = s.trace ++ [⟨q.phase, q.bytes, r⟩] ∧
        delivered q.bytes.length r ≤ q.bytes.length) := by
  rcases transact_cases q.phase q.bytes s with ⟨ha, h⟩ | ⟨rest, ha, h⟩ | ⟨c, d, rest, ha, h⟩ <;> rw [h]
  · exact .inl ⟨ha, rfl⟩
  · obtain ⟨_, _, _, _, _, _, _, h'⟩ := advance_frame
      { s with port := none, answers := rest, trace := s.trace ++ [⟨q.phase, q.bytes, .ok⟩] }
    rw [h']
    exact .inr ⟨by simp [ha], rfl, .ok, rfl, Nat.le_refl _⟩
  · exact .inr ⟨by simp [ha], rfl, _, rfl, Nat.min_le_right _ _⟩

/-! How the trace grows. -/

/-- A request that is made leaves the trace, or extends it by the one transaction of its step. -/
theorem Sends.trace {L : Latched} {s t : State} (h : Sends L s t) (hb : s.busy = true) :
    t.trace = s.trace ∨
    ((∃ k, s.pc = .tx k) ∧ s.busy = true ∧ s.answers ≠ [] ∧ ∃ b r, t.trace = s.trace ++ [⟨.command, [b], r⟩]) ∨
    (s.pc = .burst ∧ s.busy = true ∧ s.answers ≠ [] ∧ ∃ bytes r, t.trace = s.trace ++ [⟨.data, bytes, r⟩]) := by
  obtain ⟨q, d, hq, rfl⟩ := h
  rcases transact_port_trace q { s with draws := d } with ⟨-, h⟩ | ⟨ha, -, r, ht, -⟩
  · exact .inl (by rw [h])
  · rcases hq with ⟨k, slot, hp, -, rfl⟩ | ⟨hp, hph, -⟩
    · exact .inr (.inl ⟨⟨k, hp⟩, hb, ha, _, r, ht⟩)
    · exact .inr (.inr ⟨hp, hb, ha, q.bytes, r, by rw [ht, hph]⟩)

theorem abandon_cases (d : Nat) (s : State) :
    (s.port = none ∧ abandon d s = s.trace) ∨
    ∃ q, s.port = some q ∧
      abandon d s = s.trace ++ [⟨q.phase, q.bytes, .abandoned (min d q.bytes.length)⟩] := by
  unfold abandon
  cases hq : s.port with
  | none => exact .inl ⟨rfl, rfl⟩
  | some q => exact .inr ⟨q, rfl, rfl⟩

/-- Settles O49: the running operation extends the trace as `Sends.trace` says, a reset as `abandon_cases` does, and no
other event extends it. -/
theorem traceGrowsByOneTransaction : Obligations.TraceGrowsByOneTransaction := by
  intro s t _ h
  obtain ⟨rest, he⟩ := step_event h
  cases he with
  | none | read | violation | start | store | answer => exact .inl rfl
  | operation i L t hr ho =>
    rcases ho.quiet_or_sends hr with ⟨-, ht, -⟩ | hs
    · exact .inl ht
    · obtain ⟨hb, -⟩ := hr
      exact (hs.trace hb).imp_right (Or.imp_right .inl)
  | burst L hb _ hp => exact ((sendBurst_sends hp).trace hb).imp_right (Or.imp_right .inl)
  | pixel a b =>
    obtain ⟨_, _, _, _, hp, -⟩ := hostPixWrite_eq a b { s with script := rest }
    rw [hp]
    exact .inl rfl
  | reset d rest' hs =>
    rcases abandon_cases d { s with script := rest } with ⟨-, ht⟩ | ⟨q, hq, ht⟩
    · exact .inl ht
    · exact .inr (.inr (.inr ⟨⟨d, rest', hs⟩, q, _, hq, ht⟩))

/-! The trace and the port stay lawful. -/

/-- At the burst of a running operation the frame has 1 to 1024 bytes (00_scope.md R6, 10_state.md R27). -/
theorem frame_length_at_burst {L : Latched} {s : State} (hc : ControlInv s) (hf : FrameInv s) (hb : s.busy = true)
    (hL : s.latched = some L) (hp : s.pc = .burst) : 1 ≤ L.n ∧ L.n ≤ 1024 := by
  have hw : decodeCmd L.cmd = .writeFrame := by
    have hs := hc.isStepOf ⟨hb, hL, rfl, rfl⟩
    rwa [hp] at hs
  obtain ⟨hgeo, hframe⟩ := hf
  obtain ⟨-, hchecks, -⟩ := hframe L hb hL (.inr hw)
  obtain ⟨hsup, -⟩ := bufferError_none (hchecks (.inr hp)).1
  obtain ⟨-, hpos, hle⟩ := supported_frame hgeo hsup
  exact ⟨hpos, hle⟩

/-- A request of the engine's step makes a lawful transaction, whatever part of it is delivered. -/
theorem RequestAt.lawful {L : Latched} {s : State} {q : Request} {r : Response} (hq : RequestAt L s q)
    (hc : ControlInv s) (hf : FrameInv s) (hb : s.busy = true) (hL : s.latched = some L)
    (hr : delivered q.bytes.length r ≤ q.bytes.length) : lawfulTransaction ⟨q.phase, q.bytes, r⟩ := by
  refine ⟨hr, ?_⟩
  rcases hq with ⟨k, slot, -, -, rfl⟩ | ⟨hp, hph, hlen⟩
  · rfl
  · simp only [hph, hlen]
    exact frame_length_at_burst hc hf hb hL hp

theorem TraceInv.append {s t : State} {x : Transaction} (hs : TraceInv s) (hx : lawfulTransaction x)
    (ht : t.trace = s.trace ++ [x]) : TraceInv t := by
  intro y hy
  rw [ht] at hy
  rcases List.mem_append.1 hy with hy | hy
  · exact hs y hy
  · rwa [List.mem_singleton.1 hy]

theorem PortInv.of_none {s : State} (h : s.port = none) : PortInv s := by
  intro q hq
  rw [h] at hq
  cases hq

/-- Making its request the engine leaves it outstanding or adds it to the trace. -/
theorem Sends.lawful {L : Latched} {s t : State} (h : Sends L s t) (hc : ControlInv s) (hf : FrameInv s)
    (ht : TraceInv s) (hb : s.busy = true) (hL : s.latched = some L) : PortInv t ∧ TraceInv t := by
  obtain ⟨q, d, hq, rfl⟩ := h
  rcases transact_port_trace q { s with draws := d } with ⟨-, h⟩ | ⟨-, hport, r, htr, hr⟩
  · rw [h]
    refine ⟨fun q' hq' => ?_, ht⟩
    cases hq'
    exact ⟨L, hL, hb, hq⟩
  · exact ⟨.of_none hport, ht.append (hq.lawful hc hf hb hL hr) htr⟩

theorem OpStep.lawful {i : Instr} {L : Latched} {s t : State} (ho : OpStep i L s t) (hr : Running s i L s.pc)
    (hc : ControlInv s) (hf : FrameInv s) (ht : TraceInv s) : PortInv t ∧ TraceInv t := by
  have ⟨hb, hL, _, _⟩ := hr
  rcases ho.quiet_or_sends hr with ⟨hport, htr, hp⟩ | hs
  · exact ⟨.of_none (hport.trans (hc.port_none hp)), by rwa [TraceInv, htr]⟩
  · exact hs.lawful hc hf ht hb hL

/-- A raced sample changes an outstanding Data request only, which stays as long as the frame (20_memory.md R63). -/
theorem redrawSample_port {L : Latched} {j : Nat} {s : State} {q : Request}
    (h : (redrawSample L j s).port = some q) :
    ∃ q', s.port = some q' ∧ (q = q' ∨ (q'.phase = .data ∧ q.phase = .data ∧ q.bytes.length = L.n)) := by
  obtain ⟨q', hq', rfl⟩ := Option.map_eq_some_iff.1 h
  refine ⟨q', hq', ?_⟩
  cases hph : q'.phase with
  | command => exact .inl (by simp)
  | data => exact .inr ⟨rfl, by simp, by simp⟩

/-- A Data request is outstanding at the burst only, and a redrawn one is a request of the burst too. -/
theorem redrawSample_portInv {L : Latched} {j : Nat} {s : State} (hp : PortInv s) (hL : s.latched = some L) :
    PortInv (redrawSample L j s) := by
  intro q hq
  obtain ⟨q', hq', hqq⟩ := redrawSample_port hq
  obtain ⟨M, hM, hb, hreq⟩ := hp q' hq'
  cases hL.symm.trans hM
  refine ⟨L, hL, hb, ?_⟩
  rcases hqq with rfl | ⟨hph', hph, hlen⟩
  · exact hreq
  · rcases hreq with ⟨k, slot, -, -, rfl⟩ | ⟨hpc, -, -⟩
    · cases hph'
    · exact .inr ⟨hpc, hph, hlen⟩

theorem hostPixWrite_portInv (a : Word) (b : Byte) {s : State} (hp : PortInv s) : PortInv (hostPixWrite a b s) := by
  rcases hostPixWrite_cases a b s with h | ⟨L, j, -, hL, -, -, h⟩ <;> rw [h]
  · exact hp
  · rcases raceSample_cases L j { s with pix := Memory.write s.pix a.toNat b } with ⟨-, h⟩ | ⟨-, h⟩ <;> rw [h]
    · exact hp
    · exact redrawSample_portInv (s := { s with pix := Memory.write s.pix a.toNat b }) hp hL

theorem resetDevice_traceInv (d : Nat) {s : State} (hc : ControlInv s) (hf : FrameInv s) (hp : PortInv s)
    (ht : TraceInv s) : TraceInv (resetDevice d s) := by
  rcases abandon_cases d s with ⟨-, h⟩ | ⟨q, hq, h⟩
  · rwa [TraceInv, resetDevice_trace, h]
  · obtain ⟨L, hL, hb, hreq⟩ := (portInv_iff s).1 hp q hq
    exact ht.append (hreq.lawful hc hf hb hL (Nat.min_le_right d _)) h

theorem Event.lawful {moves : List Move} {s t : State} (he : Event moves s t) (hc : ControlInv s) (hf : FrameInv s)
    (hp : PortInv s) (ht : TraceInv s) : PortInv t ∧ TraceInv t := by
  cases he with
  | none | read | violation | store | answer => exact ⟨hp, ht⟩
  | operation i L t hr ho => exact ho.lawful hr hc hf ht
  | burst L hb hL hpc => exact (sendBurst_sends hpc).lawful hc hf ht hb hL
  | start cmd hb => exact ⟨.of_none (hc.port_none_of_idle hb), ht⟩
  | pixel a b =>
    obtain ⟨_, _, _, _, h, -⟩ := hostPixWrite_eq a b s
    exact ⟨hostPixWrite_portInv a b hp, by rwa [TraceInv, h]⟩
  | reset d => exact ⟨.of_none rfl, resetDevice_traceInv d hc hf hp ht⟩

/-- Settles O55: every event keeps the port and the trace lawful. -/
theorem traceStaysLawful : Obligations.TraceStaysLawful := by
  intro s t hc hf hp ht h
  obtain ⟨rest, he⟩ := step_event h
  exact he.lawful hc hf hp ht

/-! A transaction that is never answered. -/

theorem step_of_script_nil {s : State} (h : s.script = []) : step s = engineTurn s := by simp only [step, h]

/-- A state that steps to itself stays. -/
theorem run_of_step_self {t : State} (h : step t = .next t) (m : Nat) : run m t = .next t := by
  induction m with
  | zero => rfl
  | succ m ih => simp only [run, h, ih]

theorem run_of_step_then_self {s t : State} (h : step s = .next t) (ht : step t = .next t) (m : Nat) :
    run (m + 1) s = .next t := by
  simp only [run, h, run_of_step_self ht]

theorem transact_unanswered (phase : Phase) (bytes : List Byte) {s : State} (h : s.answers = []) :
    transact phase bytes s = { s with port := some ⟨phase, bytes⟩ } := by simp only [transact, h]

/-- Where all N bytes are written an unanswered burst is outstanding with them, and no free value is drawn. -/
theorem sendBurst_unanswered {L : Latched} {s : State} (ha : s.answers = [])
    (hw : ∀ k, k < L.n → (Cells.lookup k s.packbuf).isSome = true) :
    sendBurst L s = { s with port := some ⟨.data, (packRead s.packbuf s.draws 0 L.n).1⟩ } := by
  have hd : (packRead s.packbuf s.draws 0 L.n).2 = s.draws := (packRead_written (by simpa using hw) s.draws).1
  unfold sendBurst
  rw [transact_unanswered _ _ (by exact ha), hd]

/-- A step of an operation whose Command transaction is not answered. -/
theorem step_tx_unanswered {op : Instr} {s : State} {L : Latched} {k : Nat} {slot : Slot} (hscript : s.script = [])
    (ha : s.answers = []) (hr : Running s op L (.tx k)) (hs : slotAt (slots op L) k = some slot) :
    step s = .next { s with port := some ⟨.command, [slotByte s.cfg.wire slot]⟩ } := by
  rw [step_of_script_nil hscript, engineTurn_tx hr hs, transact_unanswered _ _ ha]

/-- The same of the burst. -/
theorem step_burst_unanswered {s : State} {L : Latched} (hscript : s.script = []) (ha : s.answers = [])
    (hr : Running s .writeFrame L .burst) (hw : ∀ k, k < L.n → (Cells.lookup k s.packbuf).isSome = true) :
    step s = .next { s with port := some ⟨.data, (packRead s.packbuf s.draws 0 L.n).1⟩ } := by
  obtain ⟨hb, hL, -, hp⟩ := hr
  rw [step_of_script_nil hscript, engineTurn_burst hb hL hp, sendBurst_unanswered ha hw]

/-- Settles O33: the first step leaves the request outstanding, and each later step makes the same request again. -/
theorem unansweredTransactionHangs : Obligations.UnansweredTransactionHangs := by
  intro s L m ha hscript
  refine ⟨fun op k slot hr hs => ?_, fun hr hw => ?_⟩
  · exact run_of_step_then_self (step_tx_unanswered hscript ha hr hs)
      (step_tx_unanswered (s := { s with port := _ }) hscript ha hr hs) m
  · obtain ⟨-, hbytes⟩ := packRead_written (by simpa using hw) s.draws (k := 0) (n := L.n)
    refine ⟨_, packRead_length _ _ _ _, fun k hk => ?_, run_of_step_then_self (step_burst_unanswered hscript ha hr hw)
      (step_burst_unanswered (s := { s with port := _ }) hscript ha hr hw) m⟩
    rw [packRead_length] at hk
    simpa using hbytes k hk

end Sys2Proof.Machine
end

section
/-! PROOFS. The host state, fifth part: the registers (10_state.md R20 to R41): their writes and reads, STATUS and GEOM,
the PACKBUF words, the state after reset, and the steps of the decoded instruction. -/

namespace Sys2Proof.Machine

/-! Writes. -/

/-- A write that is no violation, to an idle block without FAULT. -/
theorem hostWrite_reg {width off : Nat} {r : Reg} {v : Word} {s : State} (hf : s.fault = false)
    (hr : regAt width off = some r) (hv : writeViolates r v s = false) :
    hostWrite width off v s = storeReg r v s := by
  simp [hostWrite, hf, hr, hv]

/-- A CMD write to an idle block without FAULT executes the operation of its word. -/
theorem hostWrite_cmd (w : Word) {s : State} (hb : s.busy = false) (hf : s.fault = false) :
    hostWrite 32 0x000 w s = exec (decodeCmd w) s :=
  hostWrite_reg (r := .cmd) hf rfl (by simp [writeViolates, hb])

/-- Settles O8: the write executes the operation, which starts. -/
theorem cmdWriteLatchesAndStarts : Obligations.CmdWriteLatchesAndStarts := by
  intro s w hb hf
  refine ⟨?_, hostWrite_cmd w hb hf⟩
  rw [hostWrite_cmd w hb hf, exec_decodeCmd_idle w hb hf]
  rfl

/-- A value below `2^k` has no bit from bit `k` on. -/
theorem high_bits_clear {v : Word} {k : Nat} (n : Nat) (h : v.toNat < 2 ^ k) :
    truthy (v.extractLsb' k n) = false := by
  have h0 : v.extractLsb' k n = 0#n := by
    apply BitVec.eq_of_toNat_eq
    simp [BitVec.extractLsb'_toNat, Nat.shiftRight_eq_div_pow, Nat.div_eq_of_lt h]
  simp [truthy, h0]

theorem low_bits_eq_ofNat (v : Word) (n : Nat) : v.extractLsb' 0 n = BitVec.ofNat n v.toNat := by
  apply BitVec.eq_of_toNat_eq
  simp [BitVec.extractLsb'_toNat]

/-- Settles O36: none of these writes is a violation, and each is the update of its register. -/
theorem registerWritesStoreTheirValue : Obligations.RegisterWritesStoreTheirValue := by
  intro s v hf hb
  refine ⟨hostWrite_reg (r := .arg) hf rfl (by simp [writeViolates, hb]),
    hostWrite_reg (r := .contrast) hf rfl (by simp [writeViolates, hb]),
    hostWrite_reg (r := .pixbase) hf rfl (by simp [writeViolates, hb]), fun hd => ⟨fun hv => ?_, fun hv => ?_⟩⟩
  · have hv := high_bits_clear 16 hv
    rw [← low_bits_eq_ofNat]
    exact ⟨hostWrite_reg (r := .width) hf rfl (by simp [writeViolates, hb, hd, hv]),
      hostWrite_reg (r := .height) hf rfl (by simp [writeViolates, hb, hd, hv])⟩
  · have hv := high_bits_clear 23 hv
    rw [← low_bits_eq_ofNat]
    exact hostWrite_reg (r := .orient) hf rfl (by simp [writeViolates, hb, hd, hv])

/-! Reads. -/

/-- A read of a register records its value and counts the free values it draws. -/
theorem hostRead_reg {width off : Nat} {r : Reg} (s : State) (hr : regAt width off = some r) :
    hostRead width off s = { s with
      hostReads := s.hostReads ++ [(off, (readReg r s).1)], draws := (readReg r s).2 } := by
  simp only [hostRead, hr]

/-- Settles O37: `hostRead_reg` at each offset; no register but PACKBUF draws a free value. -/
theorem registerReadsReturnTheirValue : Obligations.RegisterReadsReturnTheirValue := by
  intro s
  simp only [BitVec.ofNat_toNat]
  exact ⟨hostRead_reg (r := .cmd) s rfl, hostRead_reg (r := .arg) s rfl, hostRead_reg (r := .status) s rfl,
    hostRead_reg (r := .errcode) s rfl, hostRead_reg (r := .width) s rfl, hostRead_reg (r := .height) s rfl,
    hostRead_reg (r := .orient) s rfl, hostRead_reg (r := .contrast) s rfl, hostRead_reg (r := .pixbase) s rfl⟩

/-- While BUSY = 1 no register's value depends on PACKBUF (10_state.md R35). -/
theorem readReg_busy {s : State} (hb : s.busy = true) (m : List Host.Cell) (r : Reg) :
    readReg r { s with packbuf := m } = readReg r s := by
  cases r with
  | packbuf k => simp only [readReg, packWord, hostPackbuf, hb, if_true]
  | cmd | arg | status | errcode | width | height | orient | contrast | pixbase => rfl

/-- Settles O41: a read depends on the state only by `readReg`. -/
theorem busyReadsRevealNothingOfPackbuf : Obligations.BusyReadsRevealNothingOfPackbuf := by
  intro s m width addr hb
  unfold hostReadAt
  cases windowOffset s.cfg addr with
  | none => rfl
  | some off =>
    simp only [hostRead, readReg_busy hb]
    cases regAt width off <;> rfl

theorem regAt_packbuf {k : Nat} (hk : k < 256) : regAt 32 (0x400 + 4 * k) = some (.packbuf (4 * k)) := by
  simp (disch := omega) only [regAt, if_neg, if_pos, Nat.add_sub_cancel_left]

/-- Settles O40: no free value is drawn where all four bytes are written, and the word is put together from them. -/
theorem packbufWordsReadLittleEndian : Obligations.PackbufWordsReadLittleEndian := by
  intro s k b0 b1 b2 b3 hb hk h0 h1 h2 h3
  have hword : packWord (4 * k) s = (wordOfBytes b0 b1 b2 b3, s.draws) := by
    simp [packWord, hostPackbuf, hb, packRead, h0, h1, h2, h3]
  refine ⟨wordOfBytes b0 b1 b2 b3, ?_, wordOfBytes_toNat b0 b1 b2 b3⟩
  rw [hostRead_reg s (regAt_packbuf hk), readReg, hword]

/-! STATUS and GEOM. -/

theorem supported_default {c : Config} (hc : c.geometry = .default) (w h : Nat) :
    supported c w h = defaultSupported w h := by simp only [supported, hc]

theorem geom_toNat (c : Config) (w h : Nat) :
    (geom c w h).toNat = if supported c w h then (if w = 64 ∧ h = 48 then 2 else 1) else 0 := by
  unfold geom
  split
  · split <;> rfl
  · rfl

theorem geom_eq_two_iff (c : Config) (w h : Nat) :
    geom c w h = 2#2 ↔ supported c w h = true ∧ w = 64 ∧ h = 48 := by
  unfold geom
  split
  · rename_i hs
    split
    · rename_i hv
      exact iff_of_true rfl ⟨hs, hv⟩
    · rename_i hv
      exact iff_of_false (by decide) fun h => hv h.2
  · rename_i hs
    exact iff_of_false (by decide) fun h => hs h.1

theorem geom_eq_zero_iff (c : Config) (w h : Nat) : geom c w h = 0#2 ↔ supported c w h = false := by
  unfold geom
  split
  · rename_i hs
    refine iff_of_false ?_ (ne_false_of_eq_true hs)
    split <;> decide
  · rename_i hs
    exact iff_of_true rfl (eq_false_of_ne_true hs)

theorem geom_ne_three (c : Config) (w h : Nat) : geom c w h ≠ 3#2 := by
  unfold geom
  split
  · split <;> decide
  · decide

/-- Settles O39: the default predicate in multiples of 8, and the three values of GEOM. -/
theorem defaultGeometriesAndVariants : Obligations.DefaultGeometriesAndVariants := by
  intro c w h hc
  refine ⟨?_, ?_, geom_eq_zero_iff c w h, geom_ne_three c w h⟩
  · rw [supported_default hc, defaultSupported, decide_eq_true_eq]
    refine or_congr Iff.rfl ⟨fun ⟨hw8, hw1, hw2, hh8, hh1, hh2⟩ => ?_, ?_⟩
    · exact ⟨⟨w / 8, by omega⟩, h / 8, by omega⟩
    · rintro ⟨⟨a, rfl, ha1, ha2⟩, p, rfl, hp1, hp2⟩
      omega
  · rw [geom_eq_two_iff, and_iff_right_iff_imp]
    rintro ⟨rfl, rfl⟩
    rw [supported_default hc]
    rfl

/-- The value of two bit fields joined. -/
theorem append_toNat_eq {m n : Nat} (x : BitVec m) (y : BitVec n) : (x ++ y).toNat = 2 ^ n * x.toNat + y.toNat := by
  rw [BitVec.toNat_append, ← Nat.shiftLeft_add_eq_or_of_lt y.isLt, Nat.shiftLeft_eq, Nat.mul_comm]

theorem statusWord_toNat (s : State) : (statusWord s).toNat =
    (BitVec.ofBool s.busy).toNat + 2 * (BitVec.ofBool s.fault).toNat + 4 * (dstateCode s.dstate).toNat
      + 16 * (resultCode s.result).toNat + 256 * (geom s.cfg s.width.toNat s.height.toNat).toNat := by
  have h : (statusWord s).toNat = _ := append_toNat_eq _ _
  rw [h]
  simp only [append_toNat_eq, BitVec.toNat_ofNat]
  omega

/-- Settles O38: each field's code at its weight. -/
theorem statusWordHoldsItsFields : Obligations.StatusWordHoldsItsFields := by
  intro s
  have bit : ∀ b : Bool, (BitVec.ofBool b).toNat = if b then 1 else 0 := by decide
  have hvariant : (s.width.toNat = 64 ∧ s.height.toNat = 48) ↔ (s.width = 64#16 ∧ s.height = 48#16) := by
    rw [← BitVec.toNat_inj, ← BitVec.toNat_inj]
    rfl
  rw [statusWord_toNat, bit, bit, geom_toNat, ite_congr (propext hvariant) (fun _ => rfl) fun _ => rfl]
  cases s.dstate <;> cases s.result <;> rfl

/-! The state after reset. -/

/-- Settles O42: reading the fields of `State.reset`. -/
theorem resetValues : Obligations.ResetValues :=
  ⟨rfl, rfl, rfl, rfl, rfl, by decide, rfl, rfl, rfl, rfl, rfl, rfl, fun _ => rfl, rfl, rfl, rfl⟩

/-- Settles O56: nothing runs, nothing is outstanding, and nothing has been written or sent. -/
theorem resetMeetsTheInvariants : Obligations.ResetMeetsTheInvariants := by
  refine ⟨⟨nofun, fun _ => ⟨rfl, rfl⟩, nofun⟩, ⟨⟨List.Pairwise.nil, nofun⟩, List.Pairwise.nil, nofun⟩, nofun,
    ⟨rfl, rfl⟩, fun _ => nofun, ⟨rfl, fun _ => nofun⟩, .of_none rfl, nofun, rfl⟩

/-! A step and the decoded instruction. -/

theorem engineTurn_of_fetch {s : State} {i : Instr} (hb : s.busy = true) (hf : fetch s = some i) :
    engineTurn s = exec i s := by
  simp only [engineTurn, hb, if_true, hf]

/-- An access at REG_BASE reaches offset 0. -/
theorem hostWriteAt_regBase (width : Nat) (v : Word) (s : State) :
    hostWriteAt width s.cfg.regBase v s = hostWrite width 0 v s := by
  simp [hostWriteAt, windowOffset]

/-- Settles O6: the CMD write is `hostWrite_cmd`, and the engine's turn is `engineTurn_of_fetch`. -/
theorem stepRunsTheDecodedInstruction : Obligations.StepRunsTheDecodedInstruction := by
  intro s i rest
  refine ⟨fun w hs hb hf hi => ?_, fun hb hf => ⟨fun hs => ?_, fun hs => ?_, fun hs => ?_⟩, fun L op hr => ?_⟩
  · subst hi
    simp only [step, hs]
    exact (hostWriteAt_regBase 32 w { s with script := rest }).trans (hostWrite_cmd w hb hf)
  · rw [step_of_script_nil hs, engineTurn_of_fetch hb hf]
  · simp only [step, hs]
    exact engineTurn_of_fetch hb hf
  · simp only [step, hs, hb, if_true]
    exact engineTurn_of_fetch hb hf
  · obtain ⟨-, hL, -, hp⟩ := hr
    exact fetch_operation hL (.inl hp)

end Sys2Proof.Machine
end

section
/-! PROOFS. The memory port (20_memory.md), first part: the checks of PACK and WRITE_FRAME, the addresses of the samples,
one step of the fill, the read that is not admitted, the races with the host, and the errors of the transport. -/

namespace Sys2Proof.Machine

/-! The checks and the addresses. -/

/-- PACK and WRITE_FRAME make the same checks and then start the fill (42_packer.md R161, 43_write_path.md R181). -/
theorem exec_buffer_check {s : State} {op : Instr} {L : Latched} (hop : op = .pack ∨ op = .writeFrame)
    (hr : Running s op L .check) :
    exec op s = .next (checked (bufferError s.cfg L) (fun s => { s with pc := .fill }) s) := by
  rcases hop with rfl | rfl <;> simp only [exec, execPack, execWriteFrame, opTurn_running _ hr]

/-- Settles O18: the first check of `bufferError` that fails decides what `checked` does. -/
theorem bufferChecksInOrder : Obligations.BufferChecksInOrder := by
  intro s op L hop hr
  have hsup : L.supported s.cfg = supported s.cfg L.width.toNat L.height.toNat := rfl
  have hsamples : L.samples = L.width.toNat * L.height.toNat := rfl
  rw [exec_buffer_check hop hr, bufferError, hsup, hsamples]
  refine ⟨fun hgeo => ?_, fun hgeo => ⟨fun halign => ?_, fun halign => ⟨fun hrange => ?_, fun hrange => ?_⟩⟩⟩
  · rw [if_pos hgeo]
    rfl
  · rw [if_neg (by simp [hgeo]), if_pos halign]
    rfl
  · rw [if_neg (by simp [hgeo]), if_neg (by omega), if_pos (by omega)]
    rfl
  · rw [if_neg (by simp [hgeo]), if_neg (by omega), if_neg (by omega)]
    rfl

/-- Settles O19: the base is even and the buffer ends inside the address space, and a pixel's index is below `W*H`. -/
theorem sampleAddressesAreLegal : Obligations.SampleAddressesAreLegal := by
  intro c L x r hc hx hr
  obtain ⟨-, halign, hrange⟩ := bufferError_none hc
  have hlt : L.index x r < L.samples := index_lt hx hr
  refine ⟨rfl, ?_, ?_⟩ <;> unfold Latched.sampleAddr <;> omega

/-! One step of the fill. -/

/-- What follows the last action of a fill: PACK ends, WRITE_FRAME goes to its burst (42_packer.md R161,
43_write_path.md R181). -/
def fillDone (op : Instr) (s : State) : State := if op = .pack then endOp none s else { s with pc := .burst }

theorem exec_buffer_fill {s : State} {op : Instr} {L : Latched} (hop : op = .pack ∨ op = .writeFrame)
    (hr : Running s op L .fill) : exec op s = .next (fillTurn (fillDone op) L s) := by
  rcases hop with rfl | rfl <;> simp only [exec, execPack, execWriteFrame, opTurn_running _ hr] <;> rfl

theorem readSample_fillAction {L : Latched} {j : Nat} {s : State} (hj : FillAct.sample j ∈ fillActs L s.fill) :
    FillAction L s (readSample L j s) := by
  obtain ⟨hlt, hnew⟩ := mem_fillActs_sample.1 hj
  obtain ⟨b, d, he, hv⟩ := readSample_eq L j s
  exact .inl ⟨j, b, d, hlt, hnew, he, hv⟩

theorem writeByte_fillAction {L : Latched} {k : Nat} {s : State} (hk : FillAct.byte k ∈ fillActs L s.fill) :
    FillAction L s (writeByte L k s) := by
  obtain ⟨hlt, hnew, hready⟩ := mem_fillActs_byte.1 hk
  exact .inr ⟨k, hlt, hnew, hready, rfl⟩

/-- A step of the fill finds nothing left, waits for a read, raises MemError, or takes one action, after which the fill
goes on or is done. -/
theorem fillTurn_action_cases (done : State → State) (L : Latched) (s : State) :
    (fillActs L s.fill = [] ∧ fillTurn done L s = done s) ∨
    (∃ j, j < L.samples ∧ pixAnswer s.cfg.pixMap (L.sampleAddr j) ≠ .admitted ∧
      (fillTurn done L s = s ∨ fillTurn done L s = raise (.mem (L.sampleAddr j)) s)) ∨
    (∃ u, FillAction L s u ∧ fillTurn done L s = fillNext done L u) := by
  rcases fillTurn_cases done L s with h | ⟨j, hj, ⟨ha, h⟩ | ⟨ha, h⟩ | ⟨-, h⟩⟩ | ⟨k, hk, h⟩
  · exact .inl h
  · exact .inr (.inl ⟨j, (mem_fillActs_sample.1 (pickAct_mem hj)).1, by simp [ha], .inl h⟩)
  · exact .inr (.inl ⟨j, (mem_fillActs_sample.1 (pickAct_mem hj)).1, by simp [ha], .inr h⟩)
  · exact .inr (.inr ⟨_, readSample_fillAction (pickAct_mem hj), h⟩)
  · exact .inr (.inr ⟨_, writeByte_fillAction (pickAct_mem hk), h⟩)

theorem fillNext_eq_ite (done : State → State) (L : Latched) (s : State) :
    fillNext done L s = if fillActs L s.fill = [] then done s else s := by
  simp only [fillNext, List.isEmpty_iff]

/-- With every read admitted and something left to do, a step of the fill is an action. -/
theorem fillTurn_fillAction {L : Latched} {s : State} (done : State → State) (ha : AllAdmitted s.cfg L)
    (hleft : fillActs L s.fill ≠ []) :
    ∃ u, FillAction L s u ∧ fillTurn done L s = if fillActs L u.fill = [] then done u else u := by
  rcases fillTurn_action_cases done L s with ⟨h, -⟩ | ⟨j, hj, h, -⟩ | ⟨u, hu, h⟩
  · exact absurd h hleft
  · exact absurd (ha j hj) h
  · exact ⟨u, hu, h.trans (fillNext_eq_ite done L u)⟩

/-- Settles O20: `fillTurn_fillAction` for the two ends of a fill. -/
theorem fillTakesOneActionAStep : Obligations.FillTakesOneActionAStep := by
  intro s L ha hleft
  refine ⟨fun hr => ?_, fun hr => ?_⟩
  · obtain ⟨u, hu, h⟩ := fillTurn_fillAction (fillDone .pack) ha hleft
    exact ⟨u, hu, (exec_buffer_fill (.inl rfl) hr).trans (congrArg _ h)⟩
  · obtain ⟨u, hu, h⟩ := fillTurn_fillAction (fillDone .writeFrame) ha hleft
    exact ⟨u, hu, (exec_buffer_fill (.inr rfl) hr).trans (congrArg _ h)⟩

/-- Where the fill takes a read, the answer of pixel memory decides what the step does (20_memory.md R54). -/
theorem fillTurn_sample {L : Latched} {s : State} {j : Nat} (done : State → State)
    (hj : pickAct (fillActs L s.fill) s.sched = some (.sample j)) :
    (pixAnswer s.cfg.pixMap (L.sampleAddr j) = .admitted → fillTurn done L s = fillNext done L (readSample L j s)) ∧
    (pixAnswer s.cfg.pixMap (L.sampleAddr j) = .denied → fillTurn done L s = raise (.mem (L.sampleAddr j)) s) ∧
    (pixAnswer s.cfg.pixMap (L.sampleAddr j) = .silent → fillTurn done L s = s) := by
  refine ⟨fun h => ?_, fun h => ?_, fun h => ?_⟩ <;> simp only [fillTurn, hj, h]

/-- Settles O22: the denied and the silent case of `fillTurn_sample`. -/
theorem unadmittedReadRaisesMemError : Obligations.UnadmittedReadRaisesMemError := by
  intro s op L j hop hr hj
  obtain ⟨-, hdenied, hsilent⟩ := fillTurn_sample (fillDone op) hj
  rw [exec_buffer_fill hop hr]
  exact ⟨fun h => congrArg _ (hdenied h), fun h => congrArg _ (hsilent h)⟩

/-! Races. -/

/-- A host write to either byte of a sample of the buffer races with that sample (20_memory.md R63). -/
theorem hostPixWrite_race {s : State} {op : Instr} {L : Latched} {pc : Pc} {a : Word} {j : Nat} (b : Byte)
    (hop : op = .pack ∨ op = .writeFrame) (hr : Running s op L pc) (hj : j < L.samples)
    (ha : a.toNat = L.sampleAddr j ∨ a.toNat = L.sampleAddr j + 1) :
    hostPixWrite a b s = raceSample L j { s with pix := Memory.write s.pix a.toNat b } := by
  obtain ⟨hb, hL, rfl, -⟩ := hr
  unfold Latched.sampleAddr at ha
  have hsample : racedSample a.toNat s = some (L, j) := by
    simp only [racedSample, hL]
    rw [if_pos ⟨hb, hop, by omega, by omega⟩, show (a.toNat - L.pixbase.toNat) / 2 = j by omega]
  simp only [hostPixWrite, hsample]

/-- The bytes of a frame that is all written are read as they stand. -/
theorem packRead_frame {m : List Host.Cell} {n : Nat} (h : ∀ k, k < n → (Cells.lookup k m).isSome = true) (d : Nat) :
    (packRead m d 0 n).2 = d ∧ ∀ k, k < n → (packRead m d 0 n).1[k]? = Cells.lookup k m := by
  simpa using packRead_written (k := 0) (by simpa using h) d

/-- Settles O23: `raceSample` marks a sample that is still to be read, and redraws one that was read as
`redrawSample_eq` says; the read of a marked sample is `fillTurn_sample` and `readSample`. -/
theorem racedSampleReadsAsAFreeValue : Obligations.RacedSampleReadsAsAFreeValue := by
  intro s op L pc hop hr
  refine ⟨fun a b j hj ha => ?_, fun j u hpc hpick hraced hadm hu => ?_⟩
  · rw [hostPixWrite_race b hop hr hj ha]
    rcases raceSample_cases L j { s with pix := Memory.write s.pix a.toNat b } with ⟨hn, h⟩ | ⟨hsome, h⟩
    · refine ⟨fun _ => h, fun hsome => ?_⟩
      rw [show Cells.lookup j s.fill.read = none from hn] at hsome
      cases hsome
    · refine ⟨fun hn => ?_, fun _ => ?_⟩
      · rw [show Cells.lookup j s.fill.read = none from hn] at hsome
        cases hsome
      obtain ⟨f, m, p, he, hf, hself, hother, hbyte, hbytes, hp⟩ := redrawSample_eq L j _ hsome
      refine ⟨f, m, p, h.trans he, hself, hother, by rw [hf, Fill.reread_written], by rw [hf, Fill.reread_raced],
        hbyte, hbytes, fun hport => ?_, fun bytes hport hall => ?_⟩
      · rw [hp, hport]
        rfl
      · rw [hp, hport]
        exact ⟨_, rfl, packRead_length _ _ _ _, (packRead_frame hall _).2⟩
  · subst hpc
    have hread : readSample L j s = u := by
      rw [hu, readSample, if_pos (by simpa using hraced)]
    rw [exec_buffer_fill hop hr, (fillTurn_sample _ hpick).1 hadm, hread]
    simp only [fillNext_eq_ite, fillDone, ite_not]
    split
    · split <;> rfl
    · rfl

/-! Errors of the transport. -/

/-- Settles O25: no free value is drawn for a frame that is all written, and `transact_err` says what follows the
answer. -/
theorem burstFailureKeepsTheFrame : Obligations.BurstFailureKeepsTheFrame := by
  intro s L c d rest hr hw ha
  obtain ⟨hd, hbytes⟩ := packRead_frame hw s.draws
  have hexec : exec .writeFrame s = .next (sendBurst L s) := by
    simp only [exec, execWriteFrame, opTurn_running _ hr]
  refine ⟨(packRead s.packbuf s.draws 0 L.n).1, packRead_length _ _ _ _, fun k hk => hbytes k (by simpa using hk), ?_⟩
  rw [hexec, sendBurst, hd, transact_err (by exact ha), packRead_length]

/-- Settles O32: the operation sends the byte of its slot, `transact_err` says what follows the answer, and a WIRE row
sends the same byte. -/
theorem busErrorEndsTheOperation : Obligations.BusErrorEndsTheOperation := by
  intro s op L k slot c d rest hr hs ha
  rw [exec_tx hr hs]
  refine ⟨congrArg _ (transact_err ha), ?_⟩
  rintro n rfl
  exact exec_ofWire n s

end Sys2Proof.Machine
end

section
/-! PROOFS. The memory port, second part: a run of Command transactions (20_memory.md R60), and INIT as a whole with an
error at one of them (40_sequencer.md R115). -/

namespace Sys2Proof.Machine

/-! Runs. -/

theorem run_succ {s t : State} (h : step s = .next t) (n : Nat) : run (n + 1) s = run n t := by simp only [run, h]

theorem run_add {m : Nat} {s t : State} (h : run m s = .next t) (n : Nat) : run (m + n) s = run n t := by
  induction m generalizing s with
  | zero =>
    cases h
    rw [Nat.zero_add]
  | succ m ih =>
    rw [run] at h
    split at h
    · rename_i u hu
      rw [Nat.add_right_comm, run_succ hu]
      exact ih h
    · cases h
    · cases h

/-- With no move to come, an operation at a step that is no transaction takes it. -/
theorem step_operation {s : State} {op : Instr} {L : Latched} {pc : Pc} (hscript : s.script = [])
    (hr : Running s op L pc) (hp : pc = .check ∨ pc = .lazyContrast ∨ pc = .fill) : step s = exec op s := by
  obtain ⟨hb, hL, rfl, rfl⟩ := hr
  rw [step_of_script_nil hscript, engineTurn_of_fetch hb (fetch_operation hL hp)]

/-- The CMD write of an idle block without FAULT. -/
theorem step_cmd {s : State} {w : Word} {rest : List Move} (hscript : s.script = .wr 32 s.cfg.regBase w :: rest)
    (hb : s.busy = false) (hf : s.fault = false) : step s = .next (startOp w { s with script := rest }) := by
  obtain ⟨hcmd, -⟩ := stepRunsTheDecodedInstruction s (decodeCmd w) rest
  rw [hcmd w hscript hb hf rfl]
  exact exec_decodeCmd_idle w hb hf

/-! Transactions that return ok. -/

/-- The bytes of an operation's Command transactions, `t_1` first. -/
def slotBytes (op : Instr) (L : Latched) (w : Wire) : List Byte := (slots op L).map (slotByte w)

theorem slotAt_of_slotBytes {op : Instr} {L : Latched} {w : Wire} {k : Nat} {b : Byte}
    (h : (slotBytes op L w)[k]? = some b) : ∃ slot, slotAt (slots op L) (k + 1) = some slot ∧ slotByte w slot = b := by
  rw [slotBytes, List.getElem?_map] at h
  exact Option.map_eq_some_iff.1 h

/-- `s` after Command transactions of these bytes have returned ok, with the operation at its transaction `t_k` and
`rest` the answers still to come. -/
def afterOk (bytes : List Byte) (k : Nat) (rest : List Answer) (s : State) : State :=
  { s with pc := .tx k, port := none, answers := rest, trace := s.trace ++ okCommands bytes }

theorem afterOk_afterOk (bytes bytes' : List Byte) (j k : Nat) (rest rest' : List Answer) (s : State) :
    afterOk bytes' k rest' (afterOk bytes j rest s) = afterOk (bytes ++ bytes') k rest' s := by
  simp [afterOk, okCommands]

theorem Running.afterOk {op : Instr} {L : Latched} {pc : Pc} {s : State} (hr : Running s op L pc) (bytes : List Byte)
    (k : Nat) (rest : List Answer) : Running (afterOk bytes k rest s) op L (.tx k) := by
  obtain ⟨hb, hL, hd, -⟩ := hr
  exact ⟨hb, hL, hd, rfl⟩

/-- A Command transaction that is not the operation's last and returns ok. -/
theorem step_tx_ok {op : Instr} {L : Latched} {k : Nat} {slot : Slot} {rest : List Answer} {s : State}
    (hscript : s.script = []) (hr : Running s op L (.tx k)) (hs : slotAt (slots op L) k = some slot)
    (hk : k < (slots op L).length) (ha : s.answers = .ok :: rest) :
    step s = .next (afterOk [slotByte s.cfg.wire slot] (k + 1) rest s) := by
  rw [step_of_script_nil hscript, engineTurn_tx hr hs, transact_ok hr ha, if_pos hk]
  rfl

/-- A Command transaction that returns an error. -/
theorem step_tx_err {op : Instr} {L : Latched} {k d : Nat} {c : Word} {slot : Slot} {rest : List Answer} {s : State}
    (hscript : s.script = []) (hr : Running s op L (.tx k)) (hs : slotAt (slots op L) k = some slot)
    (ha : s.answers = .err c d :: rest) :
    step s = .next (ended .busError c (some (.bus c))
      (sent .command [slotByte s.cfg.wire slot] (.err c (min d 1)) rest s)) := by
  rw [step_of_script_nil hscript, engineTurn_tx hr hs, transact_err ha]
  rfl

/-- `k` transactions that return ok, none of them the operation's last, move it `k` transactions on. -/
theorem run_ok_commands {op : Instr} {L : Latched} {rest : List Answer} (k : Nat) {s : State} {i : Nat}
    (hr : Running s op L (.tx (i + 1))) (hscript : s.script = []) (hport : s.port = none)
    (hk : i + k < (slots op L).length) (ha : s.answers = List.replicate k .ok ++ rest) :
    run k s = .next (afterOk (((slotBytes op L s.cfg.wire).drop i).take k) (i + 1 + k) rest s) := by
  induction k generalizing s i with
  | zero =>
    obtain ⟨-, -, -, hp⟩ := hr
    obtain rfl : s.answers = rest := ha
    simp [run, afterOk, okCommands, ← hp, ← hport]
  | succ k ih =>
    have hlen : i < (slotBytes op L s.cfg.wire).length := by
      simp only [slotBytes, List.length_map]
      omega
    obtain ⟨slot, hslot, hbyte⟩ := slotAt_of_slotBytes (List.getElem?_eq_getElem hlen)
    have ha' : s.answers = .ok :: (List.replicate k .ok ++ rest) := ha
    have hstep := step_tx_ok hscript hr hslot (by omega) ha'
    rw [hbyte] at hstep
    rw [run_succ hstep, ih (i := i + 1) (hr.afterOk _ _ _) hscript rfl (by omega) rfl, afterOk_afterOk,
      List.drop_eq_getElem_cons hlen, List.take_succ_cons, Nat.add_right_comm (i + 1), Nat.add_assoc (i + 1)]
    rfl

/-- An operation whose transactions return ok up to one that returns an error ends there with BusError. -/
theorem run_fails_at {op : Instr} {L : Latched} {s : State} {k d : Nat} {c : Word} {b : Byte} {rest : List Answer}
    (hr : Running s op L (.tx 1)) (hscript : s.script = []) (hport : s.port = none)
    (hbyte : (slotBytes op L s.cfg.wire)[k]? = some b) (ha : s.answers = List.replicate k .ok ++ .err c d :: rest) :
    run (k + 1) s = .next (ended .busError c (some (.bus c)) (sent .command [b] (.err c (min d 1)) rest
      (afterOk ((slotBytes op L s.cfg.wire).take k) (k + 1) (.err c d :: rest) s))) := by
  obtain ⟨slot, hslot, rfl⟩ := slotAt_of_slotBytes hbyte
  obtain ⟨-, hlen⟩ := slotAt_isSome.1 ⟨slot, hslot⟩
  have hok := run_ok_commands (i := 0) k hr hscript hport (by omega) ha
  rw [List.drop_zero, Nat.zero_add, Nat.add_comm 1 k] at hok
  rw [run_add hok]
  exact run_succ (step_tx_err (s := afterOk _ _ _ s) hscript (hr.afterOk _ _ _) hslot rfl) 0

/-! INIT up to its first transaction. -/

theorem initError_eq_none {s : State} {L : Latched} (hd : s.dstate = .uninitialized ∨ s.dstate = .initializing)
    (hs : supported s.cfg L.width.toNat L.height.toNat = true) (ho : L.orient.toNat ≤ 359) : initError s L = none := by
  have hsup : L.supported s.cfg = true := hs
  rcases hd with hd | hd <;> simp [initError, hd, hsup, Nat.not_lt.2 ho]

theorem exec_init_check {s : State} {L : Latched} (hr : Running s .init L .check) (h0 : initError s L = none) :
    exec .init s = .next (initEntry s) := by
  simp only [exec, execInit, opTurn_running _ hr, h0, checked]

theorem exec_init_lazyContrast {s : State} {L : Latched} (hr : Running s .init L .lazyContrast) :
    exec .init s = .next (initContrast L s) := by
  simp only [exec, execInit, opTurn_running _ hr]

/-- `s` after an INIT written to CMD has passed its checks and made its step 1, which writes CONTRAST and its latched
copy to one value (40_sequencer.md R112, R113): its first transaction is next. -/
def initStarted (s : State) : State :=
  let c := if s.contrast = 0#32 then (latch 1#32 s).defaultContrast else s.contrast
  { startOp 1#32 s with
    script := [], dstate := .initializing, pc := .tx 1
    contrast := c, latched := some { latch 1#32 s with contrast := c } }

theorem initContrast_entry (s : State) :
    initContrast (latch 1#32 s) (initEntry (startOp 1#32 { s with script := [] })) = initStarted s := by
  by_cases h : s.contrast = 0#32
  · rw [initContrast, if_pos (by exact h), initStarted, if_pos h]
    rfl
  · rw [initContrast, if_neg (by exact h), initStarted, if_neg h]
    rfl

theorem decodeCmd_init : decodeCmd 1#32 = .init := by decide

/-- An INIT that passes its checks takes three steps to its first transaction, the CMD write among them. -/
theorem run_initStarted {s : State} (hscript : s.script = [.wr 32 s.cfg.regBase 1#32]) (hb : s.busy = false)
    (hf : s.fault = false) (hd : s.dstate = .uninitialized ∨ s.dstate = .initializing)
    (hs : supported s.cfg s.width.toNat s.height.toNat = true) (ho : s.orient.toNat ≤ 359) :
    run 3 s = .next (initStarted s) := by
  have hstart : Running (startOp 1#32 { s with script := [] }) .init (latch 1#32 s) .check :=
    ⟨rfl, rfl, decodeCmd_init, rfl⟩
  have hentry : Running (initEntry (startOp 1#32 { s with script := [] })) .init (latch 1#32 s) .lazyContrast :=
    ⟨rfl, rfl, decodeCmd_init, rfl⟩
  have hcheck := (step_operation rfl hstart (.inl rfl)).trans (exec_init_check hstart (initError_eq_none hd hs ho))
  have hlazy := (step_operation rfl hentry (.inr (.inl rfl))).trans (exec_init_lazyContrast hentry)
  rw [run_succ (step_cmd hscript hb hf), run_succ hcheck, run_succ hlazy, run, initContrast_entry]

/-- Settles O13: `run_initStarted` up to the first transaction, then `run_fails_at`. -/
theorem initFailsAtTheFailedTransaction : Obligations.InitFailsAtTheFailedTransaction := by
  intro s rest k d c b hscript hb hf hport hd hs ho hbyte ha
  rw [initBytes_eq] at hbyte ⊢
  have hr : Running (initStarted s) .init _ (.tx 1) := ⟨rfl, rfl, decodeCmd_init, rfl⟩
  have hfail := run_fails_at hr rfl hport hbyte ha
  rw [← run_add (run_initStarted hscript hb hf hd hs ho), Nat.add_left_comm] at hfail
  refine ⟨_, hfail, rfl, ?_, rfl, rfl, rfl, rfl, rfl, rfl, rfl, rfl⟩
  show (initStarted s).contrast = _
  rw [initStarted, Latched.defaultContrast_eq]
  rfl

end Sys2Proof.Machine
end

section
/-! PROOFS. The memory port, third part: a fill that is in order stays in order (42_packer.md R162), and every step keeps
the frame invariant (20_memory.md R62, 43_write_path.md R181). -/

namespace Sys2Proof.Machine

/-! A longer record of what was read. -/

theorem byteReady_iff {L : Latched} {f : Fill} {k : Nat} :
    byteReady L f k = true ↔
      ∀ i, i < 8 → (Cells.lookup (L.index (k / L.p) (8 * (k % L.p) + i)) f.read).isSome = true := by
  simp only [byteReady, List.all_eq_true, List.mem_range]

theorem Cells.lookup_append_of_isSome {α : Type} {a : Nat} {l : List (Nat × α)} (r : List (Nat × α))
    (h : (Cells.lookup a l).isSome = true) : Cells.lookup a (l ++ r) = Cells.lookup a l := by
  rw [Cells.lookup_append, Option.or_of_isSome h]

theorem byteReady_append {L : Latched} {f : Fill} {k : Nat} (r : List (Nat × Bool)) (h : byteReady L f k = true) :
    byteReady L { f with read := f.read ++ r } k = true :=
  byteReady_iff.2 fun i hi => by
    rw [Cells.lookup_append_of_isSome r (byteReady_iff.1 h i hi)]
    exact byteReady_iff.1 h i hi

/-- A byte whose samples have been read is packed the same whatever is read after them. -/
theorem packByte_append {L : Latched} {f : Fill} {k : Nat} (r : List (Nat × Bool)) (h : byteReady L f k = true) :
    packByte (fillLit L { f with read := f.read ++ r }) L.p k = packByte (fillLit L f) L.p k :=
  packByte_congr fun i hi => congrArg (Option.getD · false) (Cells.lookup_append_of_isSome r (byteReady_iff.1 h i hi))

/-! An action keeps a fill in order. -/

/-- A list without duplicates stays one when a new element is added at its end. -/
theorem nodup_append_new {l : List Nat} {a : Nat} (h : l.Nodup) (ha : a ∉ l) : (l ++ [a]).Nodup := by
  refine List.pairwise_append.2 ⟨h, List.pairwise_singleton _ _, fun b hb c hc => ?_⟩
  rw [List.mem_singleton.1 hc]
  exact fun hba => ha (hba ▸ hb)

theorem FillInv.read_append {L : Latched} {s : State} {j : Nat} (b : Bool) (d : Nat) (sc : List Nat)
    (h : FillInv L s) (hj : j < L.samples) (hnew : Cells.lookup j s.fill.read = none) :
    FillInv L { s with fill := { s.fill with read := s.fill.read ++ [(j, b)] }, draws := d, sched := sc } := by
  obtain ⟨hnodup, hlt, hwnodup, hbytes⟩ := h
  have hj' : j ∉ s.fill.read.map Prod.fst := by
    rw [← Cells.lookup_isSome_iff, hnew]
    exact Bool.false_ne_true
  refine ⟨?_, fun e he => ?_, hwnodup, fun k hk => ?_⟩
  · show ((s.fill.read ++ [(j, b)]).map Prod.fst).Nodup
    rw [List.map_append]
    exact nodup_append_new hnodup hj'
  · rcases List.mem_append.1 he with he | he
    · exact hlt e he
    · rwa [List.mem_singleton.1 he]
  · obtain ⟨hkn, hready, hbyte⟩ := hbytes k hk
    exact ⟨hkn, byteReady_append _ hready, hbyte.trans (congrArg some (packByte_append _ hready).symm)⟩

theorem FillInv.write_append {L : Latched} {s : State} {k : Nat} (sc : List Nat) (hn : L.n ≤ 1024)
    (h : FillInv L s) (hk : k < L.n) (hnew : k ∉ s.fill.written) (hready : byteReady L s.fill k = true) :
    FillInv L { s with
      packbuf := packWrite k (packByte (fillLit L s.fill) L.p k) s.packbuf
      fill := { s.fill with written := s.fill.written ++ [k] }
      sched := sc } := by
  obtain ⟨hnodup, hlt, hwnodup, hbytes⟩ := h
  refine ⟨hnodup, hlt, nodup_append_new hwnodup hnew, fun i hi => ?_⟩
  rcases List.mem_append.1 hi with hi | hi
  · obtain ⟨hin, hiready, hbyte⟩ := hbytes i hi
    have hne : i ≠ k := fun e => hnew (e ▸ hi)
    exact ⟨hin, hiready, (packWrite_lookup_other hne _ _).trans hbyte⟩
  · obtain rfl := List.mem_singleton.1 hi
    exact ⟨hk, hready, packWrite_lookup_self (by omega) _ _⟩

theorem FillAction.fillInv {L : Latched} {s u : State} (ha : FillAction L s u) (hn : L.n ≤ 1024) (h : FillInv L s) :
    FillInv L u := by
  rcases ha with ⟨j, b, d, hj, hnew, rfl, -⟩ | ⟨k, hk, hnew, hready, rfl⟩
  · exact h.read_append b d _ hj hnew
  · exact h.write_append _ hn hk hnew hready

/-- An action leaves the parameters, the operands and the step index alone. -/
theorem FillAction.control {L : Latched} {s u : State} (ha : FillAction L s u) :
    u.cfg = s.cfg ∧ u.latched = s.latched ∧ u.pc = s.pc := by
  rcases ha with ⟨j, b, d, -, -, rfl, -⟩ | ⟨k, -, -, -, rfl⟩ <;> exact ⟨rfl, rfl, rfl⟩

/-! The frame invariant: how it is used and how it is met. -/

/-- What the frame invariant says of a running PACK or WRITE_FRAME. -/
def FrameAt (L : Latched) (s : State) : Prop :=
  (s.pc = .check → s.fill.read = [] ∧ s.fill.written = []) ∧
  (s.pc = .fill ∨ s.pc = .burst → bufferError s.cfg L = none ∧ FillInv L s) ∧
  (s.pc = .burst → ∀ k, k < L.n → k ∈ s.fill.written)

theorem frameInv_iff (s : State) : FrameInv s ↔
    s.cfg.geometry.wellFormed = true ∧ ∀ L, s.busy = true → s.latched = some L →
      (decodeCmd L.cmd = .pack ∨ decodeCmd L.cmd = .writeFrame) → FrameAt L s := Iff.rfl

theorem FrameInv.of_idle {s : State} (hg : s.cfg.geometry.wellFormed = true) (hb : s.busy = false) : FrameInv s :=
  ⟨hg, fun _ hb' => absurd hb' (by simp [hb])⟩

theorem FrameInv.of_latched {s : State} {L : Latched} (hg : s.cfg.geometry.wellFormed = true)
    (hL : s.latched = some L) (h : decodeCmd L.cmd = .pack ∨ decodeCmd L.cmd = .writeFrame → FrameAt L s) :
    FrameInv s := by
  refine (frameInv_iff s).2 ⟨hg, fun M _ hM hop => ?_⟩
  cases hL.symm.trans hM
  exact h hop

/-- Of an operation that uses no pixel buffer the invariant says nothing. -/
theorem FrameInv.of_other {s : State} {L : Latched} {i : Instr} (hg : s.cfg.geometry.wellFormed = true)
    (hL : s.latched = some L) (hi : decodeCmd L.cmd = i) (hp : i ≠ .pack) (hw : i ≠ .writeFrame) : FrameInv s :=
  .of_latched hg hL fun hop => (hop.elim (hp <| hi.symm.trans ·) (hw <| hi.symm.trans ·)).elim

theorem FrameInv.frameAt {s : State} {L : Latched} {i : Instr} {pc : Pc} (hs : FrameInv s) (hr : Running s i L pc)
    (hop : i = .pack ∨ i = .writeFrame) : FrameAt L s := by
  obtain ⟨hb, hL, rfl, -⟩ := hr
  exact hs.2 L hb hL hop

/-- The frame of a geometry that the checks let through fits in PACKBUF. -/
theorem frame_fits {c : Config} {L : Latched} (hg : c.geometry.wellFormed = true) (he : bufferError c L = none) :
    L.n ≤ 1024 := by
  obtain ⟨hsup, -⟩ := bufferError_none he
  obtain ⟨-, -, hn⟩ := supported_frame hg hsup
  exact hn

/-! It is kept. -/

/-- A step of the fill keeps the invariant, if the end of the fill does. -/
theorem fillTurn_frameInv {done : State → State} {s : State} {i : Instr} {L : Latched} (hs : FrameInv s)
    (hr : Running s i L .fill) (hop : i = .pack ∨ i = .writeFrame)
    (hd : ∀ u, u.cfg = s.cfg → u.latched = some L → FillInv L u → fillActs L u.fill = [] → FrameInv (done u)) :
    FrameInv (fillTurn done L s) := by
  obtain ⟨-, hfill, -⟩ := hs.frameAt hr hop
  obtain ⟨hb, hL, -, hp⟩ := hr
  obtain ⟨he, hinv⟩ := hfill (.inl hp)
  have hg : s.cfg.geometry.wellFormed = true := hs.1
  rcases fillTurn_action_cases done L s with ⟨hnil, h⟩ | ⟨j, -, -, h | h⟩ | ⟨u, ha, h⟩ <;> rw [h]
  · exact hd s rfl hL hinv hnil
  · exact hs
  · exact .of_idle hg rfl
  · obtain ⟨hc, hl, hpc⟩ := ha.control
    have hinv' : FillInv L u := ha.fillInv (frame_fits hg he) hinv
    rcases fillNext_cases done L u with ⟨hnil, h⟩ | ⟨-, h⟩ <;> rw [h]
    · exact hd u hc (hl.trans hL) hinv' hnil
    · refine .of_latched (hc ▸ hg) (hl.trans hL) fun _ => ⟨?_, fun _ => ⟨hc ▸ he, hinv'⟩, ?_⟩ <;> rw [hpc, hp] <;> nofun

/-- The burst waits, which changes nothing the invariant speaks of, or ends the operation. -/
theorem sendBurst_frameInv {s : State} {L : Latched} (hs : FrameInv s) (hL : s.latched = some L) (hp : s.pc = .burst) :
    FrameInv (sendBurst L s) := by
  obtain ⟨_, _, h | ⟨_, _, _, h⟩⟩ := sendBurst_cases hL hp <;> rw [h]
  · exact hs
  · exact .of_idle hs.1 rfl

/-- INIT step 1 leaves the latched operands but CONTRAST. -/
theorem initContrast_latched {s : State} {L : Latched} (hL : s.latched = some L) :
    ∃ c, (initContrast L s).latched = some { L with contrast := c } := by
  unfold initContrast
  split
  · exact ⟨_, rfl⟩
  · exact ⟨L.contrast, hL⟩

/-- PACK and WRITE_FRAME have no Command transaction (42_packer.md R161, 43_write_path.md R185). -/
theorem not_buffer_of_slotAt {i : Instr} {L : Latched} {k : Nat} {slot : Slot} (h : slotAt (slots i L) k = some slot) :
    i ≠ .pack ∧ i ≠ .writeFrame := by
  obtain ⟨h1, hk⟩ := slotAt_isSome.1 ⟨slot, h⟩
  constructor <;> rintro rfl <;> simp only [slots, List.length_nil] at hk <;> omega

theorem OpStep.frameInv {i : Instr} {L : Latched} {s t : State} (ho : OpStep i L s t) (hr : Running s i L s.pc)
    (hs : FrameInv s) : FrameInv t := by
  have ⟨hb, hL, hi, _⟩ := hr
  have hg : s.cfg.geometry.wellFormed = true := hs.1
  cases ho with
  | error => exact .of_idle hg rfl
  | initEntry h | window h | contrast h | blank h =>
    exact .of_other (i := i) hg hL hi (by simp [h]) (by simp [h])
  | buffer hop hp he =>
    obtain ⟨hcheck, -, -⟩ := hs.frameAt hr hop
    obtain ⟨hread, hwritten⟩ := hcheck hp
    refine .of_latched hg hL fun _ => ⟨nofun, fun _ => ⟨he, ?_⟩, nofun⟩
    simp [FillInv, hread, hwritten]
  | lazyContrast h =>
    obtain ⟨c, hc⟩ := initContrast_latched hL
    exact .of_other (i := i) ((initContrast_engineKeeps L s).cfg ▸ hg) hc hi (by simp [h]) (by simp [h])
  | tx k slot _ hslot =>
    obtain ⟨_, _, _, _, _, _, _, _, _, _, h⟩ := transact_frame .command [slotByte s.cfg.wire slot] s
    rw [h]
    obtain ⟨hpack, hwrite⟩ := not_buffer_of_slotAt hslot
    exact .of_other hg hL hi hpack hwrite
  | packFill h hp =>
    exact fillTurn_frameInv hs (hp ▸ hr) (.inl h) fun u hc _ _ _ => .of_idle (hc ▸ hg) rfl
  | frameFill h hp =>
    obtain ⟨-, hfill, -⟩ := hs.frameAt hr (.inr h)
    obtain ⟨he, -⟩ := hfill (.inl hp)
    refine fillTurn_frameInv hs (hp ▸ hr) (.inr h) fun u hc hl hinv hnil => ?_
    exact .of_latched (hc ▸ hg) hl fun _ => ⟨nofun, fun _ => ⟨hc ▸ he, hinv⟩, fun _ => (fillActs_nil hnil).2⟩
  | burst _ hp => exact sendBurst_frameInv hs hL hp

/-- A race marks a sample that is still to be read, of which the invariant does not speak, or redraws one that was read,
which keeps the fill in order and the same bytes written. -/
theorem raceSample_frameInv {s : State} {L : Latched} (j : Nat) (hs : FrameInv s) (hb : s.busy = true)
    (hL : s.latched = some L) (hop : decodeCmd L.cmd = .pack ∨ decodeCmd L.cmd = .writeFrame) :
    FrameInv (raceSample L j s) := by
  have hg : s.cfg.geometry.wellFormed = true := hs.1
  rcases raceSample_cases L j s with ⟨-, h⟩ | ⟨hj, h⟩ <;> rw [h]
  · exact hs
  · obtain ⟨hcheck, hfill, hburst⟩ := hs.frameAt ⟨hb, hL, rfl, rfl⟩ hop
    refine .of_latched hg hL fun _ => ⟨fun hp => ?_, fun hp => ?_, hburst⟩
    · rw [(hcheck hp).1] at hj
      cases hj
    · obtain ⟨he, hinv⟩ := hfill hp
      exact ⟨he, redrawSample_fillInv (frame_fits hg he) hj hinv⟩

theorem Event.frameInv {moves : List Move} {s t : State} (he : Event moves s t) (hs : FrameInv s) : FrameInv t := by
  have hg : s.cfg.geometry.wellFormed = true := hs.1
  cases he with
  | none | read | violation | store | answer => exact hs
  | operation i L t hr ho => exact ho.frameInv hr hs
  | burst L hb hL hp => exact sendBurst_frameInv hs hL hp
  | start cmd => exact .of_latched hg rfl fun _ => ⟨fun _ => ⟨rfl, rfl⟩, nofun, nofun⟩
  | pixel a b =>
    rcases hostPixWrite_cases a b s with h | ⟨L, j, hb, hL, hop, -, h⟩ <;> rw [h]
    · exact hs
    · exact raceSample_frameInv (s := { s with pix := Memory.write s.pix a.toNat b }) j hs hb hL hop
  | reset d => exact .of_idle hg rfl

/-- Settles O54: every event keeps the frame invariant. -/
theorem frameInvariantIsKept : Obligations.FrameInvariantIsKept := by
  intro s t hs h
  obtain ⟨rest, he⟩ := step_event h
  exact he.frameInv hs

end Sys2Proof.Machine
end

section
/-! PROOFS. The encoding (30_encoding.md), first part: a CMD word and its instruction determine each other, the byte of a
WIRE row decodes to the first row of the table with its value, and the bytes of the table itself. -/

namespace Sys2Proof

/-! The CMD word. -/

/-- The fields of the words that are no operation: RSVD is nonzero, or OPCODE is 0x0 or 0x7 to 0xF (30_encoding.md R85,
R86). -/
theorem illegal_wellFormed_iff {r : BitVec 28} {o : BitVec 4} :
    (Instr.illegal r o).wellFormed = true ↔ (r ≠ 0#28 ∨ o = 0#4 ∨ 7 ≤ o.toNat) := decide_eq_true_iff

/-- The reserved values of OPCODE are those of none of the six operations. -/
theorem reserved_opcode_iff {o : BitVec 4} :
    (o = 0#4 ∨ 7 ≤ o.toNat) ↔ o ≠ 1#4 ∧ o ≠ 2#4 ∧ o ≠ 3#4 ∧ o ≠ 4#4 ∧ o ≠ 5#4 ∧ o ≠ 6#4 := by
  revert o
  decide

theorem decodeCmd_wellFormed (w : Word) : (decodeCmd w).wellFormed = true := by
  unfold decodeCmd
  split
  · exact illegal_wellFormed_iff.2 (.inl ‹_›)
  · repeat' split
    case isFalse => exact illegal_wellFormed_iff.2 (.inr (reserved_opcode_iff.2 ⟨‹_›, ‹_›, ‹_›, ‹_›, ‹_›, ‹_›⟩))
    all_goals rfl

/-- A word with the fields of no operation is illegal with its own fields. -/
theorem decodeCmd_illegal {w : Word} (h : (Instr.illegal (cmdRsvd w) (cmdOpcode w)).wellFormed = true) :
    decodeCmd w = .illegal (cmdRsvd w) (cmdOpcode w) := by
  unfold decodeCmd
  split
  · rfl
  · rcases illegal_wellFormed_iff.1 h with hr | ho
    · exact absurd hr ‹_›
    · obtain ⟨h1, h2, h3, h4, h5, h6⟩ := reserved_opcode_iff.1 ho
      simp only [h1, h2, h3, h4, h5, h6, if_false]

/-- The word of a well-formed instruction decodes to it. -/
theorem decodeCmd_of_encodeCmd {i : Instr} {v : Word} (hi : i.wellFormed = true) (hv : encodeCmd i = some v) :
    decodeCmd v = i := by
  cases i with
  | init | setWindow | pack | writeFrame | setContrast | setBlank =>
    cases hv
    decide
  | illegal r o =>
    cases hv
    have h := decodeCmd_illegal (w := r ++ o) (by rwa [cmdRsvd_append, cmdOpcode_append])
    rwa [cmdRsvd_append, cmdOpcode_append] at h
  | _ => cases hv

/-- The only word that decodes to a well-formed instruction is the one that encodes it. -/
theorem decodeCmd_eq_iff {i : Instr} {v w : Word} (hi : i.wellFormed = true) (hv : encodeCmd i = some v) :
    decodeCmd w = i ↔ w = v := by
  constructor
  · rintro rfl
    exact Option.some.inj ((Machine.encodeCmd_decodeCmd w).symm.trans hv)
  · rintro rfl
    exact decodeCmd_of_encodeCmd hi hv

/-- A word is illegal with exactly its own fields, when they are those of no operation. -/
theorem decodeCmd_eq_illegal_iff {w : Word} {r : BitVec 28} {o : BitVec 4} :
    decodeCmd w = .illegal r o ↔ cmdRsvd w = r ∧ cmdOpcode w = o ∧ (r ≠ 0#28 ∨ o = 0#4 ∨ 7 ≤ o.toNat) := by
  constructor
  · intro h
    have hwf := h ▸ decodeCmd_wellFormed w
    obtain rfl := (decodeCmd_eq_iff hwf rfl).1 h
    exact ⟨cmdRsvd_append r o, cmdOpcode_append r o, illegal_wellFormed_iff.1 hwf⟩
  · rintro ⟨rfl, rfl, h⟩
    exact decodeCmd_illegal (illegal_wellFormed_iff.2 h)

/-- Settles O2: `decodeCmd_eq_iff` at the six operations and `decodeCmd_eq_illegal_iff`. -/
theorem cmdWordsDecodeAsTheMapSays : Obligations.CmdWordsDecodeAsTheMapSays := by
  intro w
  exact ⟨decodeCmd_eq_iff rfl rfl, decodeCmd_eq_iff rfl rfl, decodeCmd_eq_iff rfl rfl, decodeCmd_eq_iff rfl rfl,
    decodeCmd_eq_iff rfl rfl, decodeCmd_eq_iff rfl rfl, fun _ _ => decodeCmd_eq_illegal_iff⟩

/-- Settles O4: what a word decodes to is well formed, and its word is that word. -/
theorem everyCmdWordIsTheWordOfItsInstruction : Obligations.EveryCmdWordIsTheWordOfItsInstruction :=
  fun w => ⟨decodeCmd_wellFormed w, Machine.encodeCmd_decodeCmd w⟩

/-! One byte on the wire. -/

theorem mem_wireNames (n : WireName) : n ∈ wireNames := by
  cases n <;> decide

/-- A search finds `n` when it accepts `n` and nothing before it. -/
theorem find?_eq_some_of_first {α : Type} [DecidableEq α] {p : α → Bool} {n : α} {l : List α} (hn : n ∈ l)
    (hp : p n = true) (h : ∀ m ∈ l.takeWhile (fun m => decide (m ≠ n)), p m = false) : l.find? p = some n := by
  induction l with
  | nil => cases hn
  | cons x xs ih =>
    by_cases hx : x = n
    · subst hx
      exact List.find?_cons_of_pos hp
    · rw [List.takeWhile_cons_of_pos (by simpa using hx), List.forall_mem_cons] at h
      obtain ⟨hpx, hxs⟩ := h
      rw [List.find?_cons_of_neg (by simp [hpx])]
      exact ih ((List.mem_cons.1 hn).resolve_left (Ne.symm hx)) hxs

/-- A search finds `n` when it accepts nothing else. -/
theorem find?_eq_some_of_unique {α : Type} [DecidableEq α] {p : α → Bool} {n : α} {l : List α} (hn : n ∈ l)
    (hp : p n = true) (h : ∀ m ∈ l, p m = true → m = n) : l.find? p = some n := by
  refine find?_eq_some_of_first hn hp fun m hm => Bool.eq_false_iff.2 fun hpm => ?_
  have hmn : m ≠ n := of_decide_eq_true (List.all_eq_true.1 List.all_takeWhile m hm)
  exact hmn (h m ((List.takeWhile_sublist _).mem hm) hpm)

/-- The byte of a row decodes to it where no row before it has the same value (30_encoding.md R96). -/
theorem decodeWire_get {w : Wire} {n : WireName}
    (h : ∀ m ∈ wireNames.takeWhile (fun m => decide (m ≠ n)), w.get m ≠ w.get n) :
    decodeWire w (w.get n) = some n :=
  find?_eq_some_of_first (mem_wireNames n) (decide_eq_true rfl) fun m hm => decide_eq_false (h m hm)

/-! Every code. -/

theorem Instr.eq_ofWire {i : Instr} {n : WireName} (h : i.wireName = some n) : i = .ofWire n := by
  cases i <;> cases h <;> rfl

theorem Instr.format_ofWire (n : WireName) : (Instr.ofWire n).format = .wc := by
  cases n <;> rfl

theorem Instr.format_of_encodeCmd {i : Instr} {v : Word} (h : encodeCmd i = some v) : i.format = .h32 := by
  cases i <;> cases h <;> rfl

/-- The data burst is the only instruction with neither a CMD word nor a byte of the profile. -/
theorem Instr.eq_dataBurst {i : Instr} (hcmd : encodeCmd i = none) (hwire : i.wireName = none) : i = .dataBurst := by
  cases i with
  | dataBurst => rfl
  | init | setWindow | pack | writeFrame | setContrast | setBlank | illegal => cases hcmd
  | _ => cases hwire

/-- Settles O3: by the three formats of the opcode table (30_encoding.md R80). -/
theorem encodedInstructionsDecodeBack : Obligations.EncodedInstructionsDecodeBack := by
  intro w frame i hi hfirst hlen
  cases hcmd : encodeCmd i with
  | some v =>
    simp only [Instr.format_of_encodeCmd hcmd, encode, hcmd, decode, wordOfBytes_byteOfWord,
      decodeCmd_of_encodeCmd hi hcmd]
  | none =>
    cases hwire : i.wireName with
    | some n =>
      have hdec := decodeWire_get (hfirst n hwire)
      simp only [encode, hcmd, hwire]
      rw [Instr.eq_ofWire hwire, Instr.format_ofWire]
      simp only [decode, hdec]
    | none =>
      obtain rfl := Instr.eq_dataBurst hcmd hwire
      obtain ⟨hmin, hmax⟩ := hlen rfl
      have hlegal : ¬(frame.length = 0 ∨ 1024 < frame.length) := by omega
      exact if_neg hlegal

/-! The table. -/

/-- The decoder reads a table word of 32 bits as the CMD word it is. -/
theorem decodeTableWord_cmd (v : Nat) : decodeTableWord 32 v = some (decodeCmd (BitVec.ofNat 32 v)) := by
  simp only [decodeTableWord, decodeTableWordWith, tableCode, if_true, decode, wordOfBytes_byteOfWord]

/-- Settles O1: the CMD words by `decodeTableWord_cmd`, and the bytes by a search of the default profile. -/
theorem tableWordsDecodeToTheirRows : Obligations.TableWordsDecodeToTheirRows := by
  simp only [Obligations.TableWordsDecodeToTheirRows, decodeTableWord_cmd]
  decide

/-- Settles O31: the table is finite, and its values are read off. -/
theorem defaultProfileBytes : Obligations.DefaultProfileBytes :=
  ⟨rfl, rfl, by decide⟩

end Sys2Proof
end

section
/-! PROOFS. The encoding, second part: the Command bytes of an operation, parsed from its start, are its transactions
(30_encoding.md R89). -/

namespace Sys2Proof.Machine

/-- What may follow the command byte `cmd` as an argument: one of its named arguments, or any computed byte where it has
none (30_encoding.md R89, R95). -/
def IsArgumentOf (cmd : WireName) (slot : Slot) : Prop :=
  match slot with
  | .row n => n ∈ fixedArgs cmd
  | .arg _ => fixedArgs cmd = []

/-- The transactions that 30_encoding.md R89 lets follow, where `left` arguments of the command `cmd` are still to come:
first those, then command bytes each with its arguments. -/
def IsSequence (cmd : WireName) (left : Nat) (l : List Slot) : Prop :=
  match left, l with
  | 0, [] => True
  | _ + 1, [] => False
  | 0, slot :: rest => ∃ n, slot = .row n ∧ isArgument n = false ∧ IsSequence n (argCount n) rest
  | left + 1, slot :: rest => IsArgumentOf cmd slot ∧ IsSequence cmd left rest

/-- At the start of an operation no argument is to come, as after a command that has had its arguments. -/
theorem parseWire_eq_parseWireFrom (w : Wire) (cmd : WireName) (bytes : List Byte) :
    parseWire w bytes = parseWireFrom w (some (cmd, 0)) bytes := by
  cases bytes <;> rfl

section
variable {w : Wire}
  (hcmd : ∀ m n, isArgument m = false → isArgument n = false → w.get m = w.get n → m = n)
  (hpins : w.comPinsAltArg ≠ w.comPinsSeqArg)

include hcmd in
theorem decodeCommandByte_get {n : WireName} (hn : isArgument n = false) :
    decodeCommandByte w (w.get n) = .ok n := by
  have hfind : wireNames.find? (fun m => !isArgument m && decide (w.get m = w.get n)) = some n := by
    refine find?_eq_some_of_unique (mem_wireNames n) (by simp [hn]) fun m _ hm => ?_
    obtain ⟨hm, hmn⟩ : isArgument m = false ∧ w.get m = w.get n := by simpa using hm
    exact hcmd m n hm hn hmn
  simp only [decodeCommandByte, hfind]

include hpins in
/-- The named arguments of a command differ in value: only the COM-pins command has two. -/
theorem fixedArgs_get_inj {cmd m n : WireName} (hm : m ∈ fixedArgs cmd) (hn : n ∈ fixedArgs cmd)
    (h : w.get m = w.get n) : m = n := by
  cases cmd with
  | setComPins =>
    simp only [fixedArgs, List.mem_cons, List.not_mem_nil, or_false] at hm hn
    rcases hm with rfl | rfl <;> rcases hn with rfl | rfl
    · rfl
    · exact absurd h hpins
    · exact absurd h.symm hpins
    · rfl
  | setClockDiv | setChargePump | setMemMode | setPrecharge | setVcomh =>
    exact (List.mem_singleton.1 hm).trans (List.mem_singleton.1 hn).symm
  | _ => cases hm

include hpins in
theorem decodeArgumentByte_slotByte {cmd : WireName} {slot : Slot} (h : IsArgumentOf cmd slot) :
    decodeArgumentByte w cmd (slotByte w slot) = .ok slot := by
  cases slot with
  | arg b =>
    have hnone : fixedArgs cmd = [] := h
    simp only [decodeArgumentByte, hnone, slotByte]
  | row n =>
    have hn : n ∈ fixedArgs cmd := h
    have hfind : (fixedArgs cmd).find? (fun m => decide (w.get m = w.get n)) = some n :=
      find?_eq_some_of_unique hn (decide_eq_true rfl) fun m hm hmn =>
        fixedArgs_get_inj hpins hm hn (of_decide_eq_true hmn)
    unfold decodeArgumentByte
    split
    · rename_i hnil
      rw [hnil] at hn
      cases hn
    · rename_i hcons
      rw [← hcons, slotByte, hfind]

include hcmd hpins in
/-- The parser reads such transactions back from their bytes. -/
theorem parseWireFrom_isSequence {cmd : WireName} {left : Nat} {l : List Slot} (h : IsSequence cmd left l) :
    parseWireFrom w (some (cmd, left)) (l.map (slotByte w)) = .ok l := by
  induction l generalizing cmd left with
  | nil =>
    cases left with
    | zero => rfl
    | succ left => exact h.elim
  | cons slot rest ih =>
    cases left with
    | zero =>
      obtain ⟨n, rfl, hn, hrest⟩ := h
      simp only [List.map_cons, slotByte, parseWireFrom, decodeCommandByte_get hcmd hn, bind, Except.bind, ih hrest]
      rfl
    | succ left =>
      obtain ⟨harg, hrest⟩ := h
      simp only [List.map_cons, parseWireFrom, decodeArgumentByte_slotByte hpins harg, bind, Except.bind, ih hrest]
      rfl

end

/-! The sequences of the operations. -/

theorem comPinsArg_cases (L : Latched) : L.comPinsArg = .comPinsAltArg ∨ L.comPinsArg = .comPinsSeqArg := by
  unfold Latched.comPinsArg
  split
  · exact .inl rfl
  · exact .inr rfl

/-- Every command of INIT has its arguments after it, in either orientation and with either of the COM-pins arguments. -/
theorem initSlots_isSequence (cmd : WireName) (L : Latched) : IsSequence cmd 0 (initSlots L) := by
  have hpins := comPinsArg_cases L
  cases hmirror : L.mirror <;>
    simp [initSlots, Latched.segCmd, Latched.comScanCmd, hmirror, IsSequence, IsArgumentOf, isArgument, argCount,
      fixedArgs, hpins]

/-- SET_CONTRAST and SET_WINDOW send commands with computed arguments, SET_BLANK one command that has none. -/
theorem slots_isSequence (cmd : WireName) (op : Instr) (L : Latched) : IsSequence cmd 0 (slots op L) := by
  cases op with
  | init => exact initSlots_isSequence cmd L
  | setWindow | setContrast =>
    simp [slots, windowSlots, contrastSlots, IsSequence, IsArgumentOf, isArgument, argCount, fixedArgs]
  | setBlank =>
    cases hb : L.blank <;> simp [slots, blankSlots, IsSequence, isArgument, argCount, hb]
  | _ => trivial

/-- Settles O5: the transactions of every operation are commands with their arguments. -/
theorem operationBytesParseBack : Obligations.OperationBytesParseBack := by
  intro w op L hcmd hpins
  rw [parseWire_eq_parseWireFrom w .displayOff]
  exact parseWireFrom_isSequence hcmd hpins (slots_isSequence .displayOff op L)

end Sys2Proof.Machine
end

section
/-! PROOFS. The encoding, third part: the rows that stand for a transaction of an operation (30_encoding.md R88, R90), and
the reserved CMD words (R85, R86). -/

namespace Sys2Proof.Machine

/-! The burst. -/

theorem exec_writeFrame_burst {s : State} {L : Latched} (hr : Running s .writeFrame L .burst) :
    exec .writeFrame s = .next (sendBurst L s) := by
  simp only [exec, execWriteFrame, opTurn_running _ hr]

theorem exec_dataBurst {s : State} {L : Latched} (hL : s.latched = some L) :
    exec .dataBurst s = .next (sendBurst L s) := by
  simp only [exec, execDataBurst, hL]

/-- At the burst WRITE_FRAME's own step is the row DATA_BURST. -/
theorem exec_writeFrame_eq_dataBurst {s : State} {L : Latched} (hr : Running s .writeFrame L .burst) :
    exec .writeFrame s = exec .dataBurst s := by
  have ⟨_, hL, _, _⟩ := hr
  rw [exec_writeFrame_burst hr, exec_dataBurst hL]

/-- Settles O7: `exec_tx` and `exec_ofWire` send the same byte, and `exec_writeFrame_eq_dataBurst`. -/
theorem operationStepIsTheRowItSends : Obligations.OperationStepIsTheRowItSends := by
  intro s op L
  refine ⟨fun k n hr hs => ?_, exec_writeFrame_eq_dataBurst⟩
  rw [exec_tx hr hs, exec_ofWire]
  rfl

/-- After ok the transaction stands in the trace and the operation advances. -/
theorem transact_ok_eq_advance {phase : Phase} {bytes : List Byte} {s : State} {rest : List Answer}
    (ha : s.answers = .ok :: rest) : transact phase bytes s = advance (sent phase bytes .ok rest s) := by
  simp only [transact, ha]
  rfl

/-- The burst is WRITE_FRAME's last step. -/
theorem advance_burst {s : State} {L : Latched} (hL : s.latched = some L) (hp : s.pc = .burst) :
    advance s = ended .ok 0#32 none s := by
  simp only [advance, hL, hp]
  rfl

/-- A burst that is answered `ok`, with every byte of the frame written, ends the operation and draws no free value. -/
theorem sendBurst_ok {s : State} {L : Latched} {rest : List Answer} (hL : s.latched = some L) (hp : s.pc = .burst)
    (hw : ∀ k, k < L.n → (Cells.lookup k s.packbuf).isSome = true) (ha : s.answers = .ok :: rest) :
    sendBurst L s = ended .ok 0#32 none (sent .data (packRead s.packbuf s.draws 0 L.n).1 .ok rest s) := by
  obtain ⟨hd, -⟩ := packRead_frame hw s.draws
  rw [sendBurst, hd, transact_ok_eq_advance (by exact ha)]
  exact advance_burst hL hp

/-- Settles O24: `sendBurst_ok`, with the bytes that `packRead_frame` reads. -/
theorem burstSendsPackbufInOrder : Obligations.BurstSendsPackbufInOrder := by
  intro s L rest hr hw ha
  have ⟨_, hL, _, hp⟩ := hr
  obtain ⟨-, hbytes⟩ := packRead_frame hw s.draws
  refine ⟨_, packRead_length _ _ _ _, fun k hk => hbytes k (by rwa [packRead_length] at hk), ?_,
    exec_writeFrame_eq_dataBurst hr⟩
  rw [exec_dataBurst hL, sendBurst_ok hL hp hw ha]
  rfl

/-! The reserved words. -/

/-- The check step of an illegal word makes no check and raises IllegalOp (60_exceptions.md R227). -/
theorem exec_illegal_check {s : State} {r : BitVec 28} {o : BitVec 4} {L : Latched}
    (hr : Running s (.illegal r o) L .check) :
    exec (.illegal r o) s = .next (ended .illegalOp 0#32 (some .illegalOp) s) := by
  simp only [exec, execIllegal, opTurn_running _ hr]
  rfl

/-- An operation that ends right after its start has set only its outcome and the latched copy: an idle block had no step
and no fill under way. -/
theorem ended_startOp {s : State} (hb : s.busy = false) (hp : s.pc = .idle) (hfill : s.fill = Fill.empty) {r : Result}
    {code : Word} {e : Option OpError} {w : Word} :
    ended r code e (startOp w s) =
      { s with latched := some (latch w s), result := r, errcode := code, lastError := e } := by
  cases s
  cases hb
  cases hp
  cases hfill
  rfl

/-- Settles O34: the CMD write starts the word's operation, whose check step is `exec_illegal_check`, and
`ended_startOp` says what that leaves of the idle block. -/
theorem illegalWordsEndWithIllegalOp : Obligations.IllegalWordsEndWithIllegalOp := by
  refine ⟨fun s r o L hr => exec_illegal_check hr, fun s w hw hscript hb hf hc => ?_⟩
  have hr : Running (startOp w { s with script := [] }) (.illegal (cmdRsvd w) (cmdOpcode w)) (latch w s) .check :=
    ⟨rfl, rfl, decodeCmd_eq_illegal_iff.2 ⟨rfl, rfl, hw⟩, rfl⟩
  have hcheck := (step_operation rfl hr (.inl rfl)).trans (exec_illegal_check hr)
  rw [run_succ (step_cmd hscript hb hf), run_succ hcheck, run]
  obtain ⟨-, hidle, -⟩ := hc
  obtain ⟨hp, hfill⟩ := hidle hb
  exact congrArg _ (ended_startOp (s := { s with script := [] }) hb hp hfill)

end Sys2Proof.Machine
end

section
/-! PROOFS. The sequencer (40_sequencer.md), first part: INIT's checks and its step 1, a Command transaction that returns
ok and a run of all of an operation's, and INIT as a whole. -/

namespace Sys2Proof.Machine

/-! The checks (R111, R112). -/

/-- INIT's check step, whatever the checks give. -/
theorem exec_init_checked {s : State} {L : Latched} (hr : Running s .init L .check) :
    exec .init s = .next (checked (initError s L) initEntry s) := by
  simp only [exec, execInit, opTurn_running _ hr]

/-- The DSTATE check comes first, and fails in On and Blanked. -/
theorem initError_of_initialized {s : State} (L : Latched) (hd : s.dstate = .on ∨ s.dstate = .blanked) :
    initError s L = some (.state .initState) := if_pos hd

/-- With the DSTATE check passed, the geometry is checked before the orientation. -/
theorem initError_of_uninitialized {s : State} (L : Latched) (hd : s.dstate = .uninitialized ∨ s.dstate = .initializing) :
    initError s L =
      if supported s.cfg L.width.toNat L.height.toNat = false then some (.config .geometry)
      else if 359 < L.orient.toNat then some (.config .orientRange) else none := by
  have hpass : ¬(s.dstate = .on ∨ s.dstate = .blanked) := by rcases hd with hd | hd <;> simp [hd]
  exact if_neg hpass

/-- Settles O9: the first check of `initError` that fails decides what `checked` does. -/
theorem initChecksInOrder : Obligations.InitChecksInOrder := by
  intro s L hr
  rw [exec_init_checked hr]
  refine ⟨fun hd => ?_, fun hd => ?_⟩
  · rw [initError_of_initialized L hd]
    rfl
  · rw [initError_of_uninitialized L hd]
    refine ⟨fun hs => ?_, fun hs ho => ?_, fun hs ho => ?_⟩
    · rw [if_pos hs]
      rfl
    · rw [if_neg (by simp [hs]), if_pos ho]
      rfl
    · rw [if_neg (by simp [hs]), if_neg (Nat.not_lt.2 ho)]
      rfl

/-! Step 1 (R113). -/

/-- Settles O10: INIT step 1 is `initContrast`, and the default it stores is `Latched.defaultContrast`. -/
theorem initStoresTheDefaultContrastOnlyIfUnset : Obligations.InitStoresTheDefaultContrastOnlyIfUnset := by
  intro s L hr
  rw [exec_init_lazyContrast hr, initContrast, L.defaultContrast_eq]
  refine ⟨fun hc => ?_, fun hc hh => ?_, fun hc hh => ?_⟩
  · rw [if_neg hc]
  · rw [if_pos hc, if_pos hh]
  · rw [if_pos hc, if_neg hh]

/-! The transactions (R114). -/

/-- A Command transaction that returns ok: the operation goes to its next one, or ends after its last. -/
theorem exec_tx_ok {op : Instr} {s : State} {L : Latched} {k : Nat} {b : Byte} {rest : List Answer}
    (hr : Running s op L (.tx (k + 1))) (ha : s.answers = .ok :: rest)
    (hb : (slotBytes op L s.cfg.wire)[k]? = some b) :
    exec op s = .next
      (if k + 1 = (slots op L).length then ended .ok 0#32 none (finish op L (sent .command [b] .ok rest s))
       else { sent .command [b] .ok rest s with pc := .tx (k + 2) }) := by
  obtain ⟨slot, hslot, rfl⟩ := slotAt_of_slotBytes hb
  obtain ⟨-, hlen⟩ := slotAt_isSome.1 ⟨slot, hslot⟩
  rw [exec_tx hr hslot, transact_ok hr ha]
  by_cases hlast : k + 1 = (slots op L).length
  · rw [if_pos hlast, if_neg (Nat.not_lt.2 (Nat.le_of_eq hlast.symm)), endOp_none_eq_ended]
  · rw [if_neg hlast, if_pos (Nat.lt_of_le_of_ne hlen hlast)]

/-- INIT has 23 transactions. -/
theorem slots_init_length (L : Latched) : (slots .init L).length = 23 := rfl

theorem initBytes_eq_slotBytes (w : Wire) (L : Latched) : initBytes w L = slotBytes .init L w := initBytes_eq w L

/-- Settles O11: `exec_tx_ok` for INIT, whose last transaction is `t23`. -/
theorem initSendsItsTwentyThreeBytes : Obligations.InitSendsItsTwentyThreeBytes := by
  intro s L k b rest hr ha hb
  rw [initBytes_eq_slotBytes] at hb
  rw [exec_tx_ok hr ha hb, slots_init_length]
  have hlast : k + 1 = 23 ↔ k = 22 := by omega
  simp only [hlast]
  rfl

/-! An operation whose transactions all return ok, and INIT as a whole. -/

/-- With no move to come, an operation at a transaction takes it, whether the engine fetches the operation or the row. -/
theorem step_tx {op : Instr} {s : State} {L : Latched} {k : Nat} {slot : Slot} (hscript : s.script = [])
    (hr : Running s op L (.tx k)) (hs : slotAt (slots op L) k = some slot) : step s = exec op s := by
  rw [step_of_script_nil hscript, engineTurn_tx hr hs, exec_tx hr hs]

theorem sent_afterOk (b : Byte) (bytes : List Byte) (k : Nat) (rest rest' : List Answer) (s : State) :
    sent .command [b] .ok rest (afterOk bytes k rest' s) = afterOk (bytes ++ [b]) k rest s := by
  simp [sent, afterOk, okCommands]

/-- An operation whose `n + 1` transactions all return ok issues them all and ends with RESULT = OK. -/
theorem run_all_ok {op : Instr} {L : Latched} {s : State} {n : Nat} {rest : List Answer}
    (hr : Running s op L (.tx 1)) (hscript : s.script = []) (hport : s.port = none)
    (hn : (slots op L).length = n + 1) (ha : s.answers = List.replicate (n + 1) .ok ++ rest) :
    run (n + 1) s = .next (ended .ok 0#32 none
      (finish op L (afterOk (slotBytes op L s.cfg.wire) (n + 1) rest s))) := by
  have hlen : (slotBytes op L s.cfg.wire).length = n + 1 := by rw [slotBytes, List.length_map, hn]
  have hlast := List.getElem?_eq_getElem (l := slotBytes op L s.cfg.wire) (i := n) (by omega)
  obtain ⟨slot, hslot, -⟩ := slotAt_of_slotBytes hlast
  rw [List.replicate_succ', List.append_assoc] at ha
  have hfirst := run_ok_commands (i := 0) n hr hscript hport (by omega) ha
  rw [List.drop_zero, Nat.zero_add, Nat.add_comm 1 n] at hfirst
  have hr' := hr.afterOk ((slotBytes op L s.cfg.wire).take n) (n + 1) (.ok :: rest)
  have hstep := (step_tx (by exact hscript) hr' hslot).trans (exec_tx_ok hr' rfl hlast)
  rw [if_pos hn.symm, sent_afterOk, List.take_append_getElem, List.take_of_length_le (Nat.le_of_eq hlen)] at hstep
  rw [run_add hfirst]
  exact run_succ hstep 0

/-- Settles O12: `run_initStarted` up to the first transaction, then `run_all_ok`. -/
theorem initRunsToOn : Obligations.InitRunsToOn := by
  intro s rest hscript hb hf hport hd hs ho ha
  rw [initBytes_eq_slotBytes]
  have hr : Running (initStarted s) .init _ (.tx 1) := ⟨rfl, rfl, decodeCmd_init, rfl⟩
  have hall := run_all_ok hr rfl hport (slots_init_length _) ha
  rw [← run_add (run_initStarted hscript hb hf hd hs ho)] at hall
  refine ⟨_, hall, rfl, ?_, rfl, rfl, rfl, rfl, rfl, rfl, rfl, rfl, rfl, rfl, rfl, rfl, rfl, hf, rfl⟩
  show (initStarted s).contrast = _
  rw [initStarted, Latched.defaultContrast_eq]
  rfl

end Sys2Proof.Machine
end

section
/-! PROOFS. The sequencer, second part: the two transactions that program the addressing mode (40_sequencer.md R119,
70_reset_and_hazards.md R264). -/

namespace Sys2Proof.Machine

/-- The rows that program the addressing mode: SET_MEM_MODE and its argument. -/
def IsModeRow (n : WireName) : Prop := n = .setMemMode ∨ n = .memModeVerticalArg

/-- A value that stands once in a list stands at that place only. -/
theorem getElem?_append_cons_eq_some_iff {α : Type} {a : α} {pre post : List α} (hpre : a ∉ pre) (hpost : a ∉ post)
    {k : Nat} : (pre ++ a :: post)[k]? = some a ↔ k = pre.length := by
  constructor
  · intro h
    rcases Nat.lt_trichotomy k pre.length with hk | hk | hk
    · rw [List.getElem?_append_left hk] at h
      exact absurd (List.mem_of_getElem? h) hpre
    · exact hk
    · obtain ⟨j, rfl⟩ := Nat.exists_eq_add_of_lt hk
      rw [List.getElem?_append_right (by omega), show pre.length + j + 1 - pre.length = j + 1 by omega,
        List.getElem?_cons_succ] at h
      exact absurd (List.mem_of_getElem? h) hpost
  · rintro rfl
    simp

theorem mem_of_slotAt {l : List Slot} {k : Nat} {slot : Slot} (h : slotAt l k = some slot) : slot ∈ l := by
  cases k with
  | zero => cases h
  | succ k => exact List.mem_of_getElem? h

/-- A slot that stands once in a sequence is one transaction's alone. -/
theorem slotAt_append_cons_eq_some_iff {slot : Slot} {pre post : List Slot} (hpre : slot ∉ pre) (hpost : slot ∉ post)
    (k : Nat) : slotAt (pre ++ slot :: post) k = some slot ↔ k = pre.length + 1 := by
  cases k with
  | zero => simp [slotAt]
  | succ k => rw [slotAt, getElem?_append_cons_eq_some_iff hpre hpost, Nat.succ_inj]

/-- No operation but INIT programs the addressing mode. -/
theorem modeRow_not_mem_slots {op : Instr} {n : WireName} (hop : op ≠ .init) (hn : IsModeRow n) (L : Latched) :
    Slot.row n ∉ slots op L := by
  cases op with
  | init => exact absurd rfl hop
  | setWindow | setContrast => rcases hn with rfl | rfl <;> simp [slots, windowSlots, contrastSlots]
  | setBlank => cases hb : L.blank <;> rcases hn with rfl | rfl <;> simp [slots, blankSlots, hb]
  | _ => exact List.not_mem_nil

/-- INIT programs the addressing mode at none of `t1` to `t14` and `t17` to `t23`. -/
theorem modeRow_not_mem_initSlots {n : WireName} (hn : IsModeRow n) (L : Latched) :
    Slot.row n ∉ (initSlots L).take 14 ∧ Slot.row n ∉ (initSlots L).drop 16 := by
  have hvariants : n ≠ L.segCmd ∧ n ≠ L.comScanCmd ∧ n ≠ L.comPinsArg := by
    unfold Latched.segCmd Latched.comScanCmd Latched.comPinsArg
    rcases hn with rfl | rfl <;> refine ⟨?_, ?_, ?_⟩ <;> split <;> decide
  rcases hn with rfl | rfl <;> simp [initSlots, hvariants]

/-- INIT's sequence cut at its `t15`. -/
theorem slotAt_initSlots_setMemMode_iff (L : Latched) (k : Nat) :
    slotAt (initSlots L) k = some (.row .setMemMode) ↔ k = 15 := by
  obtain ⟨hpre, hpost⟩ := modeRow_not_mem_initSlots (.inl rfl) L
  exact slotAt_append_cons_eq_some_iff (post := .row .memModeVerticalArg :: (initSlots L).drop 16) hpre
    (by simp [hpost]) k

/-- INIT's sequence cut at its `t16`. -/
theorem slotAt_initSlots_memModeVerticalArg_iff (L : Latched) (k : Nat) :
    slotAt (initSlots L) k = some (.row .memModeVerticalArg) ↔ k = 16 := by
  obtain ⟨hpre, hpost⟩ := modeRow_not_mem_initSlots (.inr rfl) L
  exact slotAt_append_cons_eq_some_iff (pre := (initSlots L).take 14 ++ [.row .setMemMode]) (by simp [hpre]) hpost k

/-- A row of the addressing mode that INIT sends as its transaction `j` alone is sent nowhere else. -/
theorem slotAt_modeRow_iff {n : WireName} {L : Latched} {k j : Nat} (hn : IsModeRow n)
    (hinit : slotAt (initSlots L) k = some (.row n) ↔ k = j) (op : Instr) :
    slotAt (slots op L) k = some (.row n) ↔ op = .init ∧ k = j := by
  by_cases hop : op = .init
  · rw [and_iff_right hop, hop]
    exact hinit
  · simp only [hop, false_and, iff_false]
    exact fun h => modeRow_not_mem_slots hop hn L (mem_of_slotAt h)

/-- The byte that 40_sequencer.md R119 fixes, in the number of notes/assumptions/31.md. -/
theorem memModeVerticalArg_of_wellFormed {c : Config} (hc : c.wellFormed = true) :
    c.wire.memModeVerticalArg = 0x01#8 := by
  simp only [Config.wellFormed, Wire.wellFormed, Bool.and_eq_true, decide_eq_true_eq] at hc
  obtain ⟨⟨-, hmode⟩, -⟩ := hc
  exact hmode

/-- Settles O57: `slotAt_modeRow_iff` at the two rows, and INIT's `t16` carries the byte that a well-formed profile
fixes. -/
theorem initAloneSetsTheAddressingMode : Obligations.InitAloneSetsTheAddressingMode := by
  intro s op L k rest hr
  refine ⟨slotAt_modeRow_iff (.inl rfl) (slotAt_initSlots_setMemMode_iff L k) op,
    slotAt_modeRow_iff (.inr rfl) (slotAt_initSlots_memModeVerticalArg_iff L k) op, ?_⟩
  rintro rfl rfl hc ha
  rw [← memModeVerticalArg_of_wellFormed hc]
  exact initSendsItsTwentyThreeBytes s L 15 _ rest hr ha rfl

end Sys2Proof.Machine
end

section
/-! PROOFS. The addressing window (41_window.md): SET_WINDOW's check, its six transactions, and SET_WINDOW as a whole. -/

namespace Sys2Proof.Machine

/-! The check (R141). -/

theorem exec_setWindow_check {s : State} {L : Latched} (hr : Running s .setWindow L .check) :
    exec .setWindow s = .next (checked (windowError s L) (fun s => { s with pc := .tx 1 }) s) := by
  simp only [exec, execSetWindow, opTurn_running _ hr]

/-- The check passes exactly the supported geometries, in any DSTATE. -/
theorem windowError_eq (s : State) (L : Latched) :
    windowError s L =
      if supported s.cfg L.width.toNat L.height.toNat = false then some (.config .geometry) else none := rfl

theorem exec_setWindow_unsupported {s : State} {L : Latched} (hr : Running s .setWindow L .check)
    (hs : supported s.cfg L.width.toNat L.height.toNat = false) :
    exec .setWindow s = .next (ended .configError 0#32 (some (.config .geometry)) s) := by
  rw [exec_setWindow_check hr, windowError_eq, if_pos hs]
  rfl

theorem exec_setWindow_supported {s : State} {L : Latched} (hr : Running s .setWindow L .check)
    (hs : supported s.cfg L.width.toNat L.height.toNat = true) :
    exec .setWindow s = .next { s with pc := .tx 1 } := by
  rw [exec_setWindow_check hr, windowError_eq, if_neg (by simp [hs])]
  rfl

/-! The six transactions (R142 to R144). -/

/-- SET_WINDOW has six transactions. -/
theorem slots_setWindow_length (L : Latched) : (slots .setWindow L).length = 6 := rfl

theorem windowBytes_eq_slotBytes (w : Wire) (L : Latched) :
    windowBytes w L.width.toNat L.height.toNat = slotBytes .setWindow L w := windowBytes_eq w L

/-- SET_WINDOW's last transaction does nothing beside ending it. -/
theorem finish_setWindow (L : Latched) (s : State) : finish .setWindow L s = s := rfl

/-- Settles O14: the check of the geometry, then `exec_tx_ok` for SET_WINDOW, whose last transaction is `t6`. -/
theorem windowSendsItsSixBytes : Obligations.WindowSendsItsSixBytes := by
  intro s L
  refine ⟨fun hr => ⟨exec_setWindow_unsupported hr, exec_setWindow_supported hr⟩, fun k b rest hr ha hb => ?_⟩
  rw [windowBytes_eq_slotBytes] at hb
  rw [exec_tx_ok hr ha hb, slots_setWindow_length, finish_setWindow]
  have hlast : k + 1 = 6 ↔ k = 5 := by omega
  simp only [hlast]

/-! SET_WINDOW as a whole (R142, R146). -/

theorem decodeCmd_setWindow : decodeCmd 2#32 = .setWindow := by decide

/-- `s` after a SET_WINDOW written to CMD has passed its check: its first transaction is next. -/
def windowStarted (s : State) : State := { startOp 2#32 s with script := [], pc := .tx 1 }

/-- A SET_WINDOW with a supported geometry takes two steps to its first transaction, the CMD write among them. -/
theorem run_windowStarted {s : State} (hscript : s.script = [.wr 32 s.cfg.regBase 2#32]) (hb : s.busy = false)
    (hf : s.fault = false) (hs : supported s.cfg s.width.toNat s.height.toNat = true) :
    run 2 s = .next (windowStarted s) := by
  have hstart : Running (startOp 2#32 { s with script := [] }) .setWindow (latch 2#32 s) .check :=
    ⟨rfl, rfl, decodeCmd_setWindow, rfl⟩
  have hcheck := (step_operation rfl hstart (.inl rfl)).trans (exec_setWindow_supported hstart hs)
  rw [run_succ (step_cmd hscript hb hf)]
  exact run_succ hcheck 0

/-- A SET_WINDOW that ends OK has changed, of an idle block with no request outstanding, only the trace, RESULT, ERRCODE,
the latched copy and the plan of the outside world. -/
theorem ended_afterOk_windowStarted {s : State} (hb : s.busy = false) (hport : s.port = none) (bytes : List Byte)
    (k : Nat) (rest : List Answer) :
    ended .ok 0#32 none (afterOk bytes k rest (windowStarted s)) = { s with
      script := [], answers := rest, latched := some (latch 2#32 s), pc := .idle, fill := Fill.empty
      trace := s.trace ++ okCommands bytes
      result := .ok, errcode := 0#32, lastError := none } := by
  cases s
  cases hb
  cases hport
  rfl

/-- Settles O15: `run_windowStarted` up to the first transaction, then `run_all_ok`, and
`ended_afterOk_windowStarted` says what that leaves of the idle block. -/
theorem windowRunIsAFunctionOfTheGeometry : Obligations.WindowRunIsAFunctionOfTheGeometry := by
  intro s rest hscript hb hf hport hs ha
  have hr : Running (windowStarted s) .setWindow (latch 2#32 s) (.tx 1) := ⟨rfl, rfl, decodeCmd_setWindow, rfl⟩
  have hall := run_all_ok hr rfl hport (slots_setWindow_length _) ha
  rw [← run_add (run_windowStarted hscript hb hf hs), finish_setWindow, ← windowBytes_eq_slotBytes] at hall
  rw [← ended_afterOk_windowStarted hb hport]
  exact hall

end Sys2Proof.Machine
end

section
/-! PROOFS. The Frame Packer (42_packer.md), first part: the packed frame bit by bit and as the loop nest of R160, and
its inverse (R164). -/

namespace Sys2Proof.Machine

/-! The packed frame (R160). -/

theorem packByte_getLsbD (lit : Nat → Nat → Bool) (p k : Nat) {i : Nat} (hi : i < 8) :
    (packByte lit p k).getLsbD i = lit (k / p) (8 * (k % p) + i) := byteOf_getLsbD _ hi

/-- Byte `q` of column `x` is made of the pixels of page `q`. -/
theorem packByte_column (lit : Nat → Nat → Bool) (x : Nat) {p q : Nat} (hq : q < p) :
    packByte lit p (x * p + q) = byteOf fun i => lit x (8 * q + i) := by
  have hdiv : (x * p + q) / p = x := by
    rw [Nat.mul_comm, Nat.mul_add_div (by omega), Nat.div_eq_of_lt hq, Nat.add_zero]
  have hmod : (x * p + q) % p = q := by rw [Nat.mul_comm, Nat.mul_add_mod, Nat.mod_eq_of_lt hq]
  rw [packByte, hdiv, hmod]

/-- The bytes of `w` columns of `p` pages, column by column: each further column adds its own pages. -/
theorem map_packByte_range (lit : Nat → Nat → Bool) (w p : Nat) :
    (List.range (w * p)).map (packByte lit p) =
      (List.range w).flatMap fun x => (List.range p).map fun q => byteOf fun i => lit x (8 * q + i) := by
  induction w with
  | zero => simp
  | succ w ih =>
    rw [Nat.succ_mul, List.range_add, List.map_append, ih, List.range_succ, List.flatMap_append, List.flatMap_singleton,
      List.map_map]
    congr 1
    exact List.map_congr_left fun q hq => packByte_column lit w (List.mem_range.1 hq)

/-- Settles O28: `map_packByte_range` for the `H // 8` pages, and `packByte_getLsbD`. -/
theorem packIsTheLoopNest : Obligations.PackIsTheLoopNest := by
  intro lit w h
  refine ⟨map_packByte_range lit w (h / 8), pack_length lit w h, fun k i hk hi => ?_⟩
  rw [pack_getElem? lit w h hk]
  exact packByte_getLsbD lit (h / 8) k hi

/-! Its inverse (R164). -/

/-- Unpacking a packed frame gives back every pixel: pixel `(x, r)` is bit `r mod 8` of byte `r // 8` of column `x`. -/
theorem unpack_pack (lit : Nat → Nat → Bool) {w h x r : Nat} (hh : h % 8 = 0) (hx : x < w) (hr : r < h) :
    unpack (pack lit w h) h x r = lit x r := by
  have hpage : r / 8 < h / 8 := by omega
  have hk : x * (h / 8) + r / 8 < w * (h / 8) := by
    rw [Nat.mul_comm w]
    exact index_lt hpage hx
  rw [unpack, pack_getElem? lit w h hk, packByte_column lit x hpage]
  show (byteOf _).getLsbD (r % 8) = _
  rw [byteOf_getLsbD _ (Nat.mod_lt r (by omega)), Nat.div_add_mod]

/-- Packing what byte `k` of a list unpacks to gives that byte. -/
theorem packByte_unpack {f : List Byte} {h k : Nat} {b : Byte} (hb : f[k]? = some b) :
    packByte (unpack f h) (h / 8) k = b := by
  refine BitVec.eq_of_getLsbD_eq fun i hi => ?_
  rw [packByte_getLsbD _ _ _ hi, unpack, show (8 * (k % (h / 8)) + i) / 8 = k % (h / 8) by omega,
    show (8 * (k % (h / 8)) + i) % 8 = i by omega, Nat.div_add_mod', hb]

theorem pack_unpack {f : List Byte} {w h : Nat} (hf : f.length = w * (h / 8)) : pack (unpack f h) w h = f := by
  refine List.ext_getElem (by rw [pack_length, hf]) fun k _ hk => ?_
  simp only [pack, List.getElem_map, List.getElem_range]
  exact packByte_unpack (List.getElem?_eq_getElem hk)

/-- Settles O29: `unpack_pack` and `pack_unpack`. -/
theorem unpackInvertsPack : Obligations.UnpackInvertsPack := fun _ _ hh =>
  ⟨fun lit _ _ hx hr => unpack_pack lit hh hx hr, fun _ hf => pack_unpack hf⟩

end Sys2Proof.Machine
end

section
/-! PROOFS. The Frame Packer, second part: how much of a fill is left (70_reset_and_hazards.md R266), what a whole fill
does (42_packer.md R162), and PACK and WRITE_FRAME from their CMD write (R161, 43_write_path.md R181, R182). -/

namespace Sys2Proof.Machine

/-! What is left of a fill. -/

/-- Of a list without duplicates, one element less is left when a predicate comes to fail for that element alone. -/
theorem length_filter_add_one {α : Type} [DecidableEq α] {l : List α} {p q : α → Bool} {a : α} (hl : l.Nodup)
    (ha : a ∈ l) (hp : p a = true) (hq : ∀ x, q x = (x != a && p x)) :
    (l.filter q).length + 1 = (l.filter p).length := by
  have herase : l.filter q = (l.filter p).erase a := by
    rw [List.Nodup.erase_eq_filter (List.Pairwise.filter p hl), List.filter_filter]
    exact List.filter_congr fun x _ => hq x
  have hmem : a ∈ l.filter p := List.mem_filter.2 ⟨ha, hp⟩
  rw [herase, List.length_erase_of_mem hmem]
  exact Nat.sub_add_cancel (List.length_pos_of_mem hmem)

theorem fillLeft_empty (L : Latched) : fillLeft L Fill.empty = L.samples + L.n := by
  have hread : (List.range L.samples).filter (fun j => (Cells.lookup j Fill.empty.read).isNone) =
      List.range L.samples := List.filter_eq_self.2 fun _ _ => rfl
  have hwritten : (List.range L.n).filter (fun k => !Fill.empty.written.contains k) = List.range L.n :=
    List.filter_eq_self.2 fun _ _ => rfl
  rw [fillLeft, hread, hwritten, List.length_range, List.length_range]

theorem fillLeft_read {L : Latched} {f : Fill} {j : Nat} (b : Bool) (hj : j < L.samples)
    (hnew : Cells.lookup j f.read = none) :
    fillLeft L { f with read := f.read ++ [(j, b)] } + 1 = fillLeft L f := by
  have hone := length_filter_add_one (p := fun i => (Cells.lookup i f.read).isNone)
    (q := fun i => (Cells.lookup i (f.read ++ [(j, b)])).isNone) List.nodup_range (List.mem_range.2 hj)
    (by simp [hnew]) fun i => by
      by_cases h : i = j <;> simp [Cells.lookup_append, Cells.lookup, h]
  simp only [fillLeft]
  omega

theorem fillLeft_written {L : Latched} {f : Fill} {k : Nat} (hk : k < L.n) (hnew : k ∉ f.written) :
    fillLeft L { f with written := f.written ++ [k] } + 1 = fillLeft L f := by
  have hone := length_filter_add_one (p := fun i => !f.written.contains i)
    (q := fun i => !(f.written ++ [k]).contains i) List.nodup_range (List.mem_range.2 hk)
    (by simp [hnew]) fun i => by
      by_cases h : i = k <;> simp [h]
  simp only [fillLeft]
  omega

theorem FillAction.fillLeft_add_one {L : Latched} {s u : State} (ha : FillAction L s u) :
    fillLeft L u.fill + 1 = fillLeft L s.fill := by
  rcases ha with ⟨j, b, d, hj, hnew, rfl, -⟩ | ⟨k, hk, hnew, -, rfl⟩
  · exact fillLeft_read b hj hnew
  · exact fillLeft_written hk hnew

/-- Settles O21: `fillLeft_empty` and `FillAction.fillLeft_add_one`. -/
theorem fillActionsAreBounded : Obligations.FillActionsAreBounded := fun L =>
  ⟨fillLeft_empty L, fun _ _ ha => ha.fillLeft_add_one⟩

/-- The fill can act exactly while something is left: a sample still to be read or, with all of them read, a byte. -/
theorem fillActs_eq_nil_iff {L : Latched} {f : Fill} : fillActs L f = [] ↔ fillLeft L f = 0 := by
  constructor
  · intro h
    obtain ⟨hread, hwritten⟩ := fillActs_nil h
    simp only [fillLeft, Nat.add_eq_zero_iff, List.length_eq_zero_iff, List.filter_eq_nil_iff, List.mem_range]
    refine ⟨fun j hj => ?_, fun k hk => ?_⟩
    · simpa [Option.isSome_iff_ne_none] using hread j hj
    · simpa using hwritten k hk
  · intro h
    refine List.eq_nil_iff_forall_not_mem.2 fun a ha => ?_
    cases a with
    | sample j =>
      obtain ⟨hj, hnew⟩ := mem_fillActs_sample.1 ha
      have hone := fillLeft_read true hj hnew
      omega
    | byte k =>
      obtain ⟨hk, hnew, -⟩ := mem_fillActs_byte.1 ha
      have hone := fillLeft_written hk hnew
      omega

/-! A fill without races. -/

theorem Cells.mem_of_lookup {α : Type} {a : Nat} {v : α} {l : List (Nat × α)} (h : Cells.lookup a l = some v) :
    (a, v) ∈ l := by
  induction l with
  | nil => cases h
  | cons c l ih =>
    rw [Cells.lookup] at h
    split at h
    · rename_i hc
      cases h
      rw [hc]
      exact List.mem_cons_self
    · exact List.mem_cons_of_mem _ (ih h)

/-- How a fill that began at `s`, with no host write to the buffer since, stands at `u`: it is in order, all it has read
is what pixel memory holds, and nothing has changed outside the frame's bytes, its own progress and the schedule. -/
structure FillsFrom (L : Latched) (s u : State) : Prop where
  frame : u = { s with fill := u.fill, packbuf := u.packbuf, sched := u.sched }
  raced : u.fill.raced = []
  lit   : ∀ e ∈ u.fill.read, e.2 = truthy (Memory.read16 s.pix (L.sampleAddr e.1))
  inv   : FillInv L u
  rest  : ∀ k, L.n ≤ k → Cells.lookup k u.packbuf = Cells.lookup k s.packbuf

theorem FillsFrom.start {s : State} (L : Latched) (hf : s.fill = Fill.empty) : FillsFrom L s s where
  frame := rfl
  raced := by rw [hf]; rfl
  lit   := by rw [hf]; exact nofun
  inv   := by simp [FillInv, hf, Fill.empty]
  rest  := fun _ _ => rfl

theorem FillsFrom.action {L : Latched} {s u v : State} (hn : L.n ≤ 1024) (h : FillsFrom L s u)
    (ha : FillAction L u v) : FillsFrom L s v := by
  obtain ⟨hframe, hraced, hlit, hinv, hrest⟩ := h
  have hinv' : FillInv L v := ha.fillInv hn hinv
  have hpix : u.pix = s.pix := by rw [hframe]
  rcases ha with ⟨j, b, d, hj, hnew, rfl, hb⟩ | ⟨k, hk, hnew, hready, rfl⟩
  · obtain ⟨rfl, rfl⟩ := hb (by simp [hraced])
    refine ⟨?_, hraced, fun e he => ?_, hinv', hrest⟩
    · rw [hframe]
    · rcases List.mem_append.1 he with he | he
      · exact hlit e he
      · rw [List.mem_singleton.1 he, hpix]
  · refine ⟨?_, hraced, hlit, hinv', fun i hi => ?_⟩
    · rw [hframe]
    · exact (packWrite_lookup_other (by omega) _ _).trans (hrest i hi)

/-- What a sample of the buffer was read as. -/
theorem FillsFrom.fillLit_eq {L : Latched} {s u : State} {x r : Nat} (h : FillsFrom L s u)
    (hread : (Cells.lookup (L.index x r) u.fill.read).isSome = true) : fillLit L u.fill x r = litMap L s.pix x r := by
  obtain ⟨b, hb⟩ := Option.isSome_iff_exists.1 hread
  rw [fillLit, hb]
  exact h.lit _ (Cells.mem_of_lookup hb)

/-- With nothing left to do, PACKBUF holds the packed frame of pixel memory. -/
theorem FillsFrom.packed {L : Latched} {s u : State} (h : FillsFrom L s u) (hdone : fillActs L u.fill = []) {k : Nat}
    (hk : k < L.n) : Cells.lookup k u.packbuf = (pack (litMap L s.pix) L.w L.h)[k]? := by
  obtain ⟨hread, hwritten⟩ := fillActs_nil hdone
  obtain ⟨-, -, -, hbytes⟩ := h.inv
  obtain ⟨-, -, hbyte⟩ := hbytes k (hwritten k hk)
  rw [hbyte, pack_getElem? _ _ _ hk]
  exact congrArg some (packByte_congr fun i hi => h.fillLit_eq (hread _ (index_of_byte hk hi)))

theorem FillsFrom.packed_isSome {L : Latched} {s u : State} (h : FillsFrom L s u) (hdone : fillActs L u.fill = [])
    {k : Nat} (hk : k < L.n) : (Cells.lookup k u.packbuf).isSome = true := by
  rw [h.packed hdone hk, pack_getElem? _ _ _ hk]
  rfl

/-- The bytes that the burst then reads are the packed frame. -/
theorem FillsFrom.packRead_eq {L : Latched} {s u : State} (h : FillsFrom L s u) (hdone : fillActs L u.fill = [])
    (d : Nat) : (packRead u.packbuf d 0 L.n).1 = pack (litMap L s.pix) L.w L.h := by
  obtain ⟨-, hbytes⟩ := packRead_frame (fun k hk => h.packed_isSome hdone hk) d
  have hlen : (pack (litMap L s.pix) L.w L.h).length = L.n := pack_length _ _ _
  refine List.ext_getElem? fun k => ?_
  by_cases hk : k < L.n
  · rw [hbytes k hk, h.packed hdone hk]
  · rw [List.getElem?_eq_none (by simpa using hk), List.getElem?_eq_none (by omega)]

/-! A whole fill. -/

section

variable {op : Instr} {L : Latched} {s : State} (hop : op = .pack ∨ op = .writeFrame) (hr : Running s op L .fill)
  (hscript : s.script = []) (hn : L.n ≤ 1024) (hadm : AllAdmitted s.cfg L)

include hop hr hscript hn hadm

/-- A step of a fill that is not done is one action of it; after the last one the fill is done. -/
theorem FillsFrom.step_fill {u : State} (h : FillsFrom L s u) (hleft : fillLeft L u.fill ≠ 0) :
    ∃ v, FillsFrom L s v ∧ fillLeft L v.fill + 1 = fillLeft L u.fill ∧
      step u = .next (if fillLeft L v.fill = 0 then fillDone op v else v) := by
  have hru : Running u op L .fill := by rw [h.frame]; exact hr
  have hsu : u.script = [] := by rw [h.frame]; exact hscript
  have hau : AllAdmitted u.cfg L := by rw [h.frame]; exact hadm
  obtain ⟨v, hv, hturn⟩ := fillTurn_fillAction (fillDone op) hau (mt fillActs_eq_nil_iff.1 hleft)
  refine ⟨v, h.action hn hv, hv.fillLeft_add_one, ?_⟩
  rw [step_operation hsu hru (.inr (.inr rfl)), exec_buffer_fill hop hru, hturn]
  simp only [fillActs_eq_nil_iff]

/-- A fill takes as many steps as it has actions left, whatever the schedule makes of their order (R162,
70_reset_and_hazards.md R266). -/
theorem FillsFrom.run_fill {n : Nat} {u : State} (h : FillsFrom L s u) (hleft : fillLeft L u.fill = n + 1) :
    ∃ v, FillsFrom L s v ∧ fillLeft L v.fill = 0 ∧ run (n + 1) u = .next (fillDone op v) := by
  induction n generalizing u with
  | zero =>
    obtain ⟨v, hv, hone, hstep⟩ := h.step_fill hop hr hscript hn hadm (by omega)
    rw [if_pos (by omega)] at hstep
    exact ⟨v, hv, by omega, run_succ hstep 0⟩
  | succ n ih =>
    obtain ⟨v, hv, hone, hstep⟩ := h.step_fill hop hr hscript hn hadm (by omega)
    rw [if_neg (by omega)] at hstep
    rw [run_succ hstep]
    exact ih hv (by omega)

end

/-! PACK and WRITE_FRAME as a whole. -/

theorem decodeCmd_pack : decodeCmd 3#32 = .pack := by decide

theorem decodeCmd_writeFrame : decodeCmd 4#32 = .writeFrame := by decide

/-- `s` after a PACK or a WRITE_FRAME written to CMD has passed its checks: its fill begins. -/
def fillStarted (w : Word) (s : State) : State := { startOp w s with script := [], pc := .fill }

section

variable {w : Word} {s : State} (hop : decodeCmd w = .pack ∨ decodeCmd w = .writeFrame)
  (hscript : s.script = [.wr 32 s.cfg.regBase w]) (hb : s.busy = false) (hf : s.fault = false)
  (hcheck : bufferError s.cfg (latch w s) = none)

include hop hscript hb hf hcheck

/-- With its checks passing, PACK or WRITE_FRAME takes two steps to its fill, the CMD write among them. -/
theorem run_fillStarted : run 2 s = .next (fillStarted w s) := by
  have hstart : Running (startOp w { s with script := [] }) (decodeCmd w) (latch w s) .check := ⟨rfl, rfl, rfl, rfl⟩
  have hfill := (step_operation rfl hstart (.inl rfl)).trans (exec_buffer_check hop hstart)
  rw [show bufferError (startOp w { s with script := [] }).cfg (latch w s) = none from hcheck] at hfill
  rw [run_succ (step_cmd hscript hb hf)]
  exact run_succ hfill 0

/-- PACK or WRITE_FRAME from its CMD write to the end of its fill. -/
theorem run_filled (hg : s.cfg.geometry.wellFormed = true) (hadm : AllAdmitted s.cfg (latch w s)) :
    ∃ u, FillsFrom (latch w s) (fillStarted w s) u ∧ fillActs (latch w s) u.fill = [] ∧
      run ((latch w s).samples + (latch w s).n + 2) s = .next (fillDone (decodeCmd w) u) := by
  obtain ⟨hsup, -⟩ := bufferError_none hcheck
  obtain ⟨hpos, -, hn⟩ := supported_frame hg hsup
  obtain ⟨n, hleft⟩ : ∃ n, (latch w s).samples + (latch w s).n = n + 1 := ⟨_, (Nat.succ_pred (by omega)).symm⟩
  have hr : Running (fillStarted w s) (decodeCmd w) (latch w s) .fill := ⟨rfl, rfl, rfl, rfl⟩
  obtain ⟨u, hu, hdone, hrun⟩ := (FillsFrom.start (s := fillStarted w s) _ rfl).run_fill hop hr rfl hn hadm
    ((fillLeft_empty _).trans hleft)
  refine ⟨u, hu, fillActs_eq_nil_iff.2 hdone, ?_⟩
  rw [hleft, Nat.add_comm, run_add (run_fillStarted hop hscript hb hf hcheck), hrun]

end

/-- Settles O26: `run_filled`, after which PACK has ended, and `FillsFrom.packed`. -/
theorem packFillsPackbufWithThePackedFrame : Obligations.PackFillsPackbufWithThePackedFrame := by
  rintro s _ hscript hb hf hg rfl hcheck hadm
  obtain ⟨u, hu, hdone, hrun⟩ := run_filled (.inl decodeCmd_pack) hscript hb hf hcheck hg hadm
  rw [decodeCmd_pack] at hrun
  refine ⟨endOp none u, hrun, fun k hk => hu.packed hdone hk, hu.rest, ?_⟩
  rw [hu.frame]
  exact ⟨rfl, rfl, rfl, rfl, rfl, rfl, rfl, rfl, hf⟩

/-- At the burst, with every byte of the frame written, an answer `ok` ends WRITE_FRAME. -/
theorem step_burst_ok {s : State} {L : Latched} {rest : List Answer} (hscript : s.script = [])
    (hr : Running s .writeFrame L .burst) (hw : ∀ k, k < L.n → (Cells.lookup k s.packbuf).isSome = true)
    (ha : s.answers = .ok :: rest) :
    step s = .next (ended .ok 0#32 none (sent .data (packRead s.packbuf s.draws 0 L.n).1 .ok rest s)) := by
  obtain ⟨hb, hL, -, hp⟩ := hr
  rw [step_of_script_nil hscript, engineTurn_burst hb hL hp, sendBurst_ok hL hp hw ha]

/-- Settles O27: `run_filled`, after which WRITE_FRAME is at its burst, and `step_burst_ok`, whose bytes are
`FillsFrom.packRead_eq`. -/
theorem writeFrameSendsThePackedFrame : Obligations.WriteFrameSendsThePackedFrame := by
  rintro s _ rest hscript hb hf hg rfl hcheck hadm ha
  obtain ⟨u, hu, hdone, hrun⟩ := run_filled (.inr decodeCmd_writeFrame) hscript hb hf hcheck hg hadm
  rw [decodeCmd_writeFrame] at hrun
  have hstep : step { u with pc := .burst } = .next (ended .ok 0#32 none
      (sent .data (packRead u.packbuf u.draws 0 (latch 4#32 s).n).1 .ok rest { u with pc := .burst })) := by
    refine step_burst_ok ?_ ?_ (fun k hk => hu.packed_isSome hdone hk) ?_ <;> rw [hu.frame]
    · rfl
    · exact ⟨rfl, rfl, decodeCmd_writeFrame, rfl⟩
    · exact ha
  rw [hu.packRead_eq hdone] at hstep
  refine ⟨_, (run_add hrun 1).trans (run_succ hstep 0), ?_, fun k hk => hu.packed hdone hk, hu.rest, ?_⟩ <;>
    rw [hu.frame]
  · rfl
  · exact ⟨rfl, rfl, rfl, rfl, rfl, rfl, rfl, hf, rfl⟩

end Sys2Proof.Machine
end

section
/-! PROOFS. Contrast and blank control (44_contrast_blank.md): the check SET_CONTRAST and SET_BLANK share, then each one's
transactions. -/

namespace Sys2Proof.Machine

/-! The check (R200, R205). -/

/-- The check step of SET_CONTRAST and SET_BLANK, whatever the check gives. -/
theorem exec_display_checked {s : State} {op : Instr} {L : Latched} (hop : op = .setContrast ∨ op = .setBlank)
    (hr : Running s op L .check) :
    exec op s = .next (checked (notInitialized s) (fun s => { s with pc := .tx 1 }) s) := by
  rcases hop with rfl | rfl
  · simp only [exec, execSetContrast, opTurn_running _ hr]
  · simp only [exec, execSetBlank, opTurn_running _ hr]

/-- The check fails in Uninitialized, and no transaction is sent. -/
theorem exec_display_uninitialized {s : State} {op : Instr} {L : Latched} (hop : op = .setContrast ∨ op = .setBlank)
    (hr : Running s op L .check) (hd : s.dstate = .uninitialized) :
    exec op s = .next (ended .stateError 0#32 (some (.state .notInitialized)) s) := by
  rw [exec_display_checked hop hr, notInitialized, if_pos hd]
  rfl

/-- In every other DSTATE the check passes, and the first transaction is next. -/
theorem exec_display_initialized {s : State} {op : Instr} {L : Latched} (hop : op = .setContrast ∨ op = .setBlank)
    (hr : Running s op L .check) (hd : s.dstate ≠ .uninitialized) : exec op s = .next { s with pc := .tx 1 } := by
  rw [exec_display_checked hop hr, notInitialized, if_neg hd]
  rfl

/-! A Command transaction that fails. -/

/-- A Command transaction that returns an error ends the operation: `busErrorEndsTheOperation`, by the byte it carries. -/
theorem exec_tx_err {op : Instr} {s : State} {L : Latched} {k d : Nat} {b : Byte} {c : Word} {rest : List Answer}
    (hr : Running s op L (.tx (k + 1))) (ha : s.answers = .err c d :: rest)
    (hb : (slotBytes op L s.cfg.wire)[k]? = some b) :
    exec op s = .next (ended .busError c (some (.bus c)) (sent .command [b] (.err c (min d 1)) rest s)) := by
  obtain ⟨slot, hslot, rfl⟩ := slotAt_of_slotBytes hb
  obtain ⟨hend, -⟩ := busErrorEndsTheOperation s op L (k + 1) slot c d rest hr hslot ha
  exact hend

/-! SET_CONTRAST (R200, R201). -/

/-- SET_CONTRAST has two transactions. -/
theorem slots_setContrast_length (L : Latched) : (slots .setContrast L).length = 2 := rfl

theorem slotBytes_setContrast (L : Latched) (w : Wire) :
    slotBytes .setContrast L w = [w.setContrastCmd, L.arg.extractLsb' 0 8] := rfl

/-- SET_CONTRAST's last transaction does nothing beside ending it. -/
theorem finish_setContrast (L : Latched) (s : State) : finish .setContrast L s = s := rfl

/-- Settles O16: the shared check, then `exec_tx_ok` and `exec_tx_err` at SET_CONTRAST's two bytes, the second of which
ends it. -/
theorem contrastSendsTheLevel : Obligations.ContrastSendsTheLevel := by
  intro s L
  have hcmd : (slotBytes .setContrast L s.cfg.wire)[0]? = some s.cfg.wire.setContrastCmd := by
    rw [slotBytes_setContrast, List.getElem?_cons_zero]
  have hlevel : (slotBytes .setContrast L s.cfg.wire)[1]? = some (L.arg.extractLsb' 0 8) := by
    rw [slotBytes_setContrast, List.getElem?_cons_succ, List.getElem?_cons_zero]
  refine ⟨fun hr => ⟨exec_display_uninitialized (.inl rfl) hr, exec_display_initialized (.inl rfl) hr⟩,
    fun rest ha => ⟨fun hr => ?_, fun hr => ?_⟩,
    fun c d rest ha => ⟨fun hr => exec_tx_err hr ha hcmd, fun hr => exec_tx_err hr ha hlevel⟩⟩
  · rw [exec_tx_ok hr ha hcmd, slots_setContrast_length, if_neg (by decide)]
  · rw [exec_tx_ok hr ha hlevel, slots_setContrast_length, if_pos rfl, finish_setContrast]

/-! SET_BLANK (R205, R206). -/

/-- SET_BLANK has one transaction. -/
theorem slots_setBlank_length (L : Latched) : (slots .setBlank L).length = 1 := rfl

theorem Latched.blank_eq_true_iff (L : Latched) : L.blank = true ↔ L.arg ≠ 0#32 := by
  simp [Latched.blank, truthy]

/-- SET_BLANK sends DISPLAY_ON if ARG is 0 and DISPLAY_OFF otherwise. -/
theorem slotBytes_setBlank (L : Latched) (w : Wire) :
    slotBytes .setBlank L w = [if L.arg = 0#32 then w.displayOn else w.displayOff] := by
  by_cases h : L.arg = 0#32 <;> simp [slotBytes, slots, blankSlots, slotByte, L.blank_eq_true_iff, h, Wire.get]

/-- SET_BLANK's transaction that returns ok ends it, and moves DSTATE between On and Blanked only. -/
theorem exec_setBlank_ok {s : State} {L : Latched} {rest : List Answer} (hr : Running s .setBlank L (.tx 1))
    (ha : s.answers = .ok :: rest) :
    exec .setBlank s = .next (ended .ok 0#32 none
      { sent .command [if L.arg = 0#32 then s.cfg.wire.displayOn else s.cfg.wire.displayOff] .ok rest s with
        dstate := if s.dstate = .on ∨ s.dstate = .blanked then (if L.arg = 0#32 then .on else .blanked)
          else s.dstate }) := by
  rw [exec_tx_ok hr ha (by rw [slotBytes_setBlank, List.getElem?_cons_zero]), slots_setBlank_length, if_pos rfl,
    finish_blank]
  simp only [L.blank_eq_true_iff, ne_eq, ite_not]
  rfl

/-- Settles O17: the shared check, then `exec_setBlank_ok` by whether ARG is 0, and `exec_tx_err`. -/
theorem blankSendsAndTracksTheDisplay : Obligations.BlankSendsAndTracksTheDisplay := by
  intro s L
  refine ⟨fun hr => ⟨exec_display_uninitialized (.inr rfl) hr, exec_display_initialized (.inr rfl) hr⟩,
    fun hr => ⟨fun rest ha => ⟨fun hoff => ?_, fun hon => ?_⟩, fun c d rest ha => ?_⟩⟩
  · simp only [exec_setBlank_ok hr ha, if_neg hoff]
  · simp only [exec_setBlank_ok hr ha, if_pos hon]
  · exact exec_tx_err hr ha (by rw [slotBytes_setBlank, List.getElem?_cons_zero])

end Sys2Proof.Machine
end

section
/-! PROOFS. The exceptions (60_exceptions.md): the accesses of the host that set FAULT (R231; 10_state.md R21, R39). -/

namespace Sys2Proof.Machine

/-! Where the registers stand (10_state.md R20, R21). -/

/-- The accesses that no register answers: of another width, misaligned, reserved, or past the window
(60_exceptions.md R231 items 1 and 2). -/
def OutsideRegisters (width off : Nat) : Prop :=
  width ≠ 32 ∨ off % 4 ≠ 0 ∨ (0x024 ≤ off ∧ off < 0x400) ∨ 0x800 ≤ off

/-- The value of a conditional, by its condition. -/
theorem ite_eq_iff_or {α : Type} {p : Prop} [Decidable p] (a b c : α) :
    (if p then a else b) = c ↔ (p ∧ a = c) ∨ (¬p ∧ b = c) := by
  by_cases hp : p
  · simp only [hp, if_true, true_and, not_true, false_and, or_false]
  · simp only [hp, if_false, false_and, not_false_eq_true, true_and, false_or]

theorem regAt_eq_none_iff (width off : Nat) : regAt width off = none ↔ OutsideRegisters width off := by
  simp only [regAt, OutsideRegisters, ite_eq_iff_or, reduceCtorEq, and_true, and_false, false_or]
  omega

/-- The offset of a register, or of a PACKBUF word. -/
def Reg.offset : Reg → Nat
  | .cmd => 0x000
  | .arg => 0x004
  | .status => 0x008
  | .errcode => 0x00C
  | .width => 0x010
  | .height => 0x014
  | .orient => 0x018
  | .contrast => 0x01C
  | .pixbase => 0x020
  | .packbuf k => 0x400 + k

/-- An access reaches a register at the offset of that register only. -/
theorem regAt_offset {width off : Nat} {r : Reg} (hr : regAt width off = some r) : off = r.offset := by
  cases r <;>
    simp only [regAt, Reg.offset, ite_eq_iff_or, Option.some.injEq, reduceCtorEq, Reg.packbuf.injEq, and_true,
      and_false, false_or, or_false] at hr ⊢ <;>
    omega

/-- A register stands below the end of the window. -/
theorem regAt_lt {width off : Nat} {r : Reg} (hr : regAt width off = some r) : off < 0x800 := by
  refine Nat.lt_of_not_le fun ho => ?_
  have hn := (regAt_eq_none_iff width off).2 (.inr (.inr (.inr ho)))
  cases hr.symm.trans hn

/-! Which writes are violations. -/

/-- Bit `k` or a higher one of a word is set exactly if its value is `2^k` or more. -/
theorem truthy_high_bits_iff (v : Word) {k n : Nat} (hkn : k + n = 32) :
    truthy (v.extractLsb' k n) = true ↔ 2 ^ k ≤ v.toNat := by
  have hclear : 2 ^ k ≤ v.toNat ↔ ¬v.toNat / 2 ^ k = 0 := by
    rw [Nat.div_eq_zero_iff_lt (Nat.two_pow_pos k), Nat.not_lt]
  have hlt : v.toNat / 2 ^ k < 2 ^ n := by
    rw [Nat.div_lt_iff_lt_mul (Nat.two_pow_pos k), ← Nat.pow_add, Nat.add_comm, hkn]
    exact v.isLt
  rw [hclear, truthy, decide_eq_true_iff, ne_eq, ← BitVec.toNat_inj, BitVec.extractLsb'_toNat,
    Nat.shiftRight_eq_div_pow, Nat.mod_eq_of_lt hlt, BitVec.toNat_ofNat, Nat.zero_mod]

/-- The writes that the register at `off` does not take: a read-only register, BUSY = 1, a reserved bit, and DSTATE not
Uninitialized (60_exceptions.md R231 items 3 to 6). -/
def RegisterRefuses (off : Nat) (v : Word) (s : State) : Prop :=
  off = 0x008 ∨ off = 0x00C ∨ (0x400 ≤ off ∧ off < 0x800) ∨ s.busy = true ∨
  ((off = 0x010 ∨ off = 0x014) ∧ 2 ^ 16 ≤ v.toNat) ∨ (off = 0x018 ∧ 2 ^ 9 ≤ v.toNat) ∨
  ((off = 0x010 ∨ off = 0x014 ∨ off = 0x018) ∧ s.dstate ≠ .uninitialized)

theorem writeViolates_iff {width off : Nat} {r : Reg} (hr : regAt width off = some r) (v : Word) (s : State) :
    writeViolates r v s = true ↔ RegisterRefuses off v s := by
  have hlt := regAt_lt hr
  cases regAt_offset hr
  cases r with
  | packbuf k =>
    exact iff_of_true (Bool.or_true _) (.inr (.inr (.inl ⟨Nat.le_add_right _ _, hlt⟩)))
  | width | height =>
    simp [writeViolates, RegisterRefuses, Reg.offset, truthy_high_bits_iff v (k := 16) (n := 16) rfl]
  | orient => simp [writeViolates, RegisterRefuses, Reg.offset, truthy_high_bits_iff v (k := 9) (n := 23) rfl]
  | cmd | arg | status | errcode | contrast | pixbase => simp [writeViolates, RegisterRefuses, Reg.offset]

/-- The write is a violation of whatever register it reaches, also where it reaches none. -/
def WriteViolation (width off : Nat) (v : Word) (s : State) : Prop :=
  ∀ r, regAt width off = some r → writeViolates r v s = true

theorem writeViolation_iff (width off : Nat) (v : Word) (s : State) :
    WriteViolation width off v s ↔ OutsideRegisters width off ∨ RegisterRefuses off v s := by
  unfold WriteViolation
  rw [← regAt_eq_none_iff]
  cases hr : regAt width off with
  | none => exact iff_of_true (fun _ h => nomatch h) (.inl rfl)
  | some r => simp only [Option.some.injEq, forall_eq', reduceCtorEq, false_or, writeViolates_iff hr v s]

/-! What an access does to FAULT. -/

/-- A read that no register answers is `fault P`. -/
theorem hostRead_outside {width off : Nat} (ho : OutsideRegisters width off) (s : State) :
    hostRead width off s = faultP s := by
  simp only [hostRead, (regAt_eq_none_iff width off).2 ho]

/-- A read of a register leaves FAULT. -/
theorem hostRead_fault {width off : Nat} (hin : ¬OutsideRegisters width off) (s : State) :
    (hostRead width off s).fault = s.fault := by
  cases hr : regAt width off with
  | none => exact absurd ((regAt_eq_none_iff width off).1 hr) hin
  | some r => rw [hostRead_reg s hr]

/-- A violation of a write is `fault P`. -/
theorem hostWrite_violation {width off : Nat} {v : Word} {s : State} (hf : s.fault = false)
    (hv : WriteViolation width off v s) : hostWrite width off v s = .next (faultP s) := by
  cases hr : regAt width off with
  | none => simp [hostWrite, hf, hr]
  | some r => simp [hostWrite, hf, hr, hv r hr]

/-- A register write that is no violation leaves FAULT 0; CMD's starts an operation. -/
theorem storeReg_fault {r : Reg} {v : Word} {s : State} (hf : s.fault = false) (hv : writeViolates r v s = false) :
    ∃ t, storeReg r v s = .next t ∧ t.fault = false := by
  cases r with
  | cmd =>
    have hb : s.busy = false := by simpa [writeViolates] using hv
    exact ⟨_, exec_decodeCmd_idle v hb hf, hf⟩
  | arg | status | errcode | width | height | orient | contrast | pixbase | packbuf => exact ⟨_, rfl, hf⟩

theorem hostWrite_noViolation {width off : Nat} {v : Word} {s : State} (hf : s.fault = false)
    (hv : ¬WriteViolation width off v s) : ∃ t, hostWrite width off v s = .next t ∧ t.fault = false := by
  obtain ⟨r, hr, hv⟩ : ∃ r, regAt width off = some r ∧ writeViolates r v s = false := by
    simpa only [WriteViolation, Classical.not_forall, Bool.not_eq_true, exists_prop] using hv
  rw [hostWrite_reg hf hr hv]
  exact storeReg_fault hf hv

/-- Settles O35: the list of R231 is `OutsideRegisters` for a read, and `WriteViolation` for a write. -/
theorem protocolViolationsAreExactlyThese : Obligations.ProtocolViolationsAreExactlyThese := by
  intro s width off v
  refine ⟨⟨fun ho => hostRead_outside ho s, fun hin => hostRead_fault hin s⟩, ?_⟩
  intro violation hf
  have hlist : WriteViolation width off v s ↔ violation := by
    rw [writeViolation_iff]
    simp only [OutsideRegisters, RegisterRefuses, or_assoc, violation]
  rw [← hlist]
  exact ⟨hostWrite_violation hf, hostWrite_noViolation hf⟩

end Sys2Proof.Machine
end

section
/-! PROOFS. Reset and hazards (70_reset_and_hazards.md): a reset at any moment (R250, R252 to R254). -/

namespace Sys2Proof.Machine

/-- A reset move is carried out whatever the engine is doing. -/
theorem step_reset {s : State} {d : Nat} {rest : List Move} (hs : s.script = .reset d :: rest) :
    step s = .next (resetDevice d { s with script := rest }) := by
  simp only [step, hs]

/-- Settles O43: the step is `resetDevice`, whose registers and engine are those of `State.reset` (`resetValues`) and
whose trace is that of `abandon_cases`; the rest is the state's own. -/
theorem resetClearsTheBlockAndNothingElse : Obligations.ResetClearsTheBlockAndNothingElse := by
  intro s d rest hs
  obtain ⟨harg, hbusy, hfault, hdstate, hresult, -, herrcode, hwidth, hheight, horient, hcontrast, hpixbase, hpackbuf,
    hpc, hlatched, hport⟩ := resetValues
  refine ⟨_, step_reset hs, harg, herrcode, hwidth, hheight, horient, hcontrast, hpixbase, hbusy, hfault, hdstate,
    hresult, hpackbuf, hpc, hlatched, hport, rfl, rfl, rfl, rfl, rfl, rfl, rfl, rfl, rfl, ?_⟩
  rw [resetDevice_trace]
  rcases abandon_cases d { s with script := rest } with ⟨hnone, htrace⟩ | ⟨q, hq, htrace⟩
  · exact ⟨fun _ => htrace, fun r hr => nomatch hnone.symm.trans hr⟩
  · refine ⟨fun hnone => (nomatch hq.symm.trans hnone), fun r hr => ?_⟩
    obtain rfl : q = r := Option.some.inj (hq.symm.trans hr)
    exact htrace

end Sys2Proof.Machine
end
